-- ==== Sys2Proof/Word.lean ====
section
/-! DEFINITION. The word types of the core (00_scope.md R7, R10): XLEN is 32, so registers, the pc and every bus
value are 32-bit vectors whose `+` and `-` wrap modulo 2^32. -/

namespace Sys2Proof

/-- A register, pc or bus value (R7, R10). -/
abbrev Word := BitVec 32

/-- One byte of the program image and of the reference target's memory (20_memory.md R88). -/
abbrev Byte := BitVec 8

/-- A general register index, `x0` .. `x31` (10_state.md R30). -/
abbrev RegIdx := BitVec 5

end Sys2Proof
end

