-- ==== Sys2Proof/Config.lean ====
section
/-! DEFINITION. The named parameters of 00_scope.md R8 that are plain data, and the free values: constants with no body,
so that nothing can evaluate them and a statement about them holds for every value. -/

namespace Sys2Proof

/-- Which immediate XORI, ORI and ANDI use: the parameter P_LOGIC_IMM (R8; 41_integer_immediate.md R200). -/
inductive LogicImm where
  /-- `UIMM`: the 11-bit zero-extended immediate, the spec's default. -/
  | uimm
  /-- `SIMM`: the 12-bit sign-extended immediate of standard RV32I. -/
  | simm
deriving DecidableEq, Repr

/-- The parameters RESET_PC and P_LOGIC_IMM (R8). The third, TARGET, is no data: see Machine/Target.lean. -/
structure Params where
  /-- RESET_PC, the pc after reset. -/
  resetPc : Word
  /-- P_LOGIC_IMM. -/
  logicImm : LogicImm
deriving DecidableEq, Repr

/-- The defaults this spec adopts (R8): RESET_PC = 0x00000000 and P_LOGIC_IMM = UIMM. -/
def Params.default : Params := { resetPc := 0, logicImm := .uimm }

/-- RESET_PC is a multiple of 4 (R8; 70_reset_and_hazards.md R382). -/
abbrev Params.wf (p : Params) : Prop := p.resetPc.toNat % 4 = 0

/-- FREE VALUE (log 5): the byte the reference target holds at an address that neither the image nor a store has
placed. 20_memory.md R88: "Words the blob does not cover hold unspecified values; the model treats them as any value". -/
opaque Config.initialByte : Nat → Byte

/-- FREE VALUE (log 7): what `dat_o` carries from the n-th read request on. 20_memory.md R80: "For a read (we_o = 0),
the value on dat_o is unspecified and the target must ignore it". -/
opaque Config.readDatO : Nat → Word

end Sys2Proof
end

