-- ==== Sys2Proof/Syntax.lean ====
section
/-! DEFINITION. The instructions: one constructor per row of spec/opcode_table.json, in the table's order. An immediate
is the field as the word holds it; its extension to 32 bits is Machine/Operands.lean's. -/

namespace Sys2Proof

/-- An instruction of the core. Each constructor's docstring names its table row and its rule. -/
inductive Instr where
  /-- ADDI — R201. `imm` is `instr[31:20]`. -/
  | addi (rd rs1 : RegIdx) (imm : BitVec 12)
  /-- SLTI — R202. `imm` is `instr[31:20]`. -/
  | slti (rd rs1 : RegIdx) (imm : BitVec 12)
  /-- SLTIU — R203. `imm` is `instr[31:20]`. -/
  | sltiu (rd rs1 : RegIdx) (imm : BitVec 12)
  /-- XORI — R204. `imm` is `instr[31:20]`. -/
  | xori (rd rs1 : RegIdx) (imm : BitVec 12)
  /-- ORI — R205. `imm` is `instr[31:20]`. -/
  | ori (rd rs1 : RegIdx) (imm : BitVec 12)
  /-- ANDI — R206. `imm` is `instr[31:20]`. -/
  | andi (rd rs1 : RegIdx) (imm : BitVec 12)
  /-- SLLI — R207. `shamt` is `instr[24:20]`. -/
  | slli (rd rs1 : RegIdx) (shamt : BitVec 5)
  /-- SRLI — R208. `shamt` is `instr[24:20]`. -/
  | srli (rd rs1 : RegIdx) (shamt : BitVec 5)
  /-- SRAI — R209. `shamt` is `instr[24:20]`. -/
  | srai (rd rs1 : RegIdx) (shamt : BitVec 5)
  /-- ADD — R231. -/
  | add (rd rs1 rs2 : RegIdx)
  /-- SUB — R232. -/
  | sub (rd rs1 rs2 : RegIdx)
  /-- SLL — R233. -/
  | sll (rd rs1 rs2 : RegIdx)
  /-- SLT — R234. -/
  | slt (rd rs1 rs2 : RegIdx)
  /-- SLTU — R235. -/
  | sltu (rd rs1 rs2 : RegIdx)
  /-- XOR — R236. -/
  | xor (rd rs1 rs2 : RegIdx)
  /-- SRL — R237. -/
  | srl (rd rs1 rs2 : RegIdx)
  /-- SRA — R238. -/
  | sra (rd rs1 rs2 : RegIdx)
  /-- OR — R239. -/
  | or (rd rs1 rs2 : RegIdx)
  /-- AND — R240. -/
  | and (rd rs1 rs2 : RegIdx)
  /-- LUI — R260. `imm` is `instr[31:12]`. -/
  | lui (rd : RegIdx) (imm : BitVec 20)
  /-- AUIPC — R261. `imm` is `instr[31:12]`. -/
  | auipc (rd : RegIdx) (imm : BitVec 20)
  /-- JAL — R271. `off` is the 21-bit `imm[20:0]` of 30_encoding.md R129, whose bit 0 is 0. -/
  | jal (rd : RegIdx) (off : BitVec 21)
  /-- JALR — R272. `imm` is `instr[31:20]`. -/
  | jalr (rd rs1 : RegIdx) (imm : BitVec 12)
  /-- BEQ — R274. `off` is the 13-bit `imm[12:0]` of R130, whose bit 0 is 0. -/
  | beq (rs1 rs2 : RegIdx) (off : BitVec 13)
  /-- BNE — R275. `off` is the 13-bit `imm[12:0]` of R130, whose bit 0 is 0. -/
  | bne (rs1 rs2 : RegIdx) (off : BitVec 13)
  /-- BLT — R276. `off` is the 13-bit `imm[12:0]` of R130, whose bit 0 is 0. -/
  | blt (rs1 rs2 : RegIdx) (off : BitVec 13)
  /-- BGE — R277. `off` is the 13-bit `imm[12:0]` of R130, whose bit 0 is 0. -/
  | bge (rs1 rs2 : RegIdx) (off : BitVec 13)
  /-- BLTU — R278. `off` is the 13-bit `imm[12:0]` of R130, whose bit 0 is 0. -/
  | bltu (rs1 rs2 : RegIdx) (off : BitVec 13)
  /-- BGEU — R279. `off` is the 13-bit `imm[12:0]` of R130, whose bit 0 is 0. -/
  | bgeu (rs1 rs2 : RegIdx) (off : BitVec 13)
  /-- LB — R301. `imm` is `instr[31:20]`. -/
  | lb (rd rs1 : RegIdx) (imm : BitVec 12)
  /-- LH — R302. `imm` is `instr[31:20]`. -/
  | lh (rd rs1 : RegIdx) (imm : BitVec 12)
  /-- LW — R303. `imm` is `instr[31:20]`. -/
  | lw (rd rs1 : RegIdx) (imm : BitVec 12)
  /-- LBU — R304. `imm` is `instr[31:20]`. -/
  | lbu (rd rs1 : RegIdx) (imm : BitVec 12)
  /-- LHU — R305. `imm` is `instr[31:20]`. -/
  | lhu (rd rs1 : RegIdx) (imm : BitVec 12)
  /-- SB — R307. `imm` is `instr[31:25] ‖ instr[11:7]`. -/
  | sb (rs1 rs2 : RegIdx) (imm : BitVec 12)
  /-- SH — R308. `imm` is `instr[31:25] ‖ instr[11:7]`. -/
  | sh (rs1 rs2 : RegIdx) (imm : BitVec 12)
  /-- SW — R309. `imm` is `instr[31:25] ‖ instr[11:7]`. -/
  | sw (rs1 rs2 : RegIdx) (imm : BitVec 12)
  /-- MISC-MEM — R330: the whole class, FENCE, FENCE.TSO, PAUSE, FENCE.I and every other word of the opcode. The
  fields are decoded (R126) and nothing reads them. -/
  | miscMem (rd rs1 : RegIdx) (funct3 : BitVec 3) (imm : BitVec 12)
  /-- SYSTEM — R332: the whole class, ECALL, EBREAK, CSR accesses, xRET, WFI and every other word of the opcode.
  `rest` is `instr[31:7]`, which the hardware ignores; it is kept so that an encoding loses no bit (log 19). -/
  | system (rest : BitVec 25)
deriving DecidableEq, Repr

end Sys2Proof
end

