-- ==== Sys2Proof/Decode.lean ====
section
/-! DEFINITION. The decoder block and the encodings (30_encoding.md): field slices, the decoder's outputs, the reading
of a word as an instruction (total: every word is an instruction, an unrecognized opcode or a non-canonical word rejected
by name), and the encoder. The numeric opcode, funct3 and funct7 values are the spec's, which marks them as the standard
RV32I values from general knowledge (30_encoding.md, introduction; log 12: PRESUMED). -/

namespace Sys2Proof

/-! ## Bytes of a word -/

/-- The 32-bit word whose bytes, lowest address first, are `b0 b1 b2 b3`: little-endian (20_memory.md R88). -/
def wordOfBytes (b0 b1 b2 b3 : Byte) : Word := b3 ++ b2 ++ b1 ++ b0

/-- Byte `k` of a word, bits `8k+7 .. 8k` (R88). -/
def byteOfWord (w : Word) (k : Nat) : Byte := w.extractLsb' (8 * k) 8

/-! ## Fields of an instruction word (00_scope.md R14) -/

/-- `instr[6:0]`, all seven bits significant (R121). -/
def opcodeOf (w : Word) : BitVec 7 := w.extractLsb' 0 7

/-- `instr[11:7]`. -/
def rdOf (w : Word) : RegIdx := w.extractLsb' 7 5

/-- `instr[14:12]`. -/
def funct3Of (w : Word) : BitVec 3 := w.extractLsb' 12 3

/-- `instr[19:15]`. -/
def rs1Of (w : Word) : RegIdx := w.extractLsb' 15 5

/-- `instr[24:20]`, also the shift amount of SLLI, SRLI and SRAI (R138). -/
def rs2Of (w : Word) : RegIdx := w.extractLsb' 20 5

/-- `instr[31:25]`. -/
def funct7Of (w : Word) : BitVec 7 := w.extractLsb' 25 7

/-- The I-type immediate field, `instr[31:20]` (R126). -/
def immIOf (w : Word) : BitVec 12 := w.extractLsb' 20 12

/-- The S-type immediate field, `instr[31:25] ‖ instr[11:7]` (R131). -/
def immSOf (w : Word) : BitVec 12 := w.extractLsb' 25 7 ++ w.extractLsb' 7 5

/-- The B-type immediate field, `instr[31] ‖ instr[7] ‖ instr[30:25] ‖ instr[11:8] ‖ 0` (R130). -/
def immBOf (w : Word) : BitVec 13 :=
  w.extractLsb' 31 1 ++ w.extractLsb' 7 1 ++ w.extractLsb' 25 6 ++ w.extractLsb' 8 4 ++ 0#1

/-- The U-type immediate field, `instr[31:12]` (R127). -/
def immUOf (w : Word) : BitVec 20 := w.extractLsb' 12 20

/-- The J-type immediate field, `instr[31] ‖ instr[19:12] ‖ instr[20] ‖ instr[30:21] ‖ 0` (R129). -/
def immJOf (w : Word) : BitVec 21 :=
  w.extractLsb' 31 1 ++ w.extractLsb' 12 8 ++ w.extractLsb' 20 1 ++ w.extractLsb' 21 10 ++ 0#1

/-! ## Opcode classes and the decoder's outputs -/

/-- The eleven recognized opcode classes (R125). -/
inductive OpClass where
  | load | miscMem | opImm | auipc | store | op | lui | branch | jalr | jal | system
deriving DecidableEq, Repr

/-- The class an opcode selects; `none` for the 117 unrecognized values (R125, R140). -/
def classOf (opcode : BitVec 7) : Option OpClass :=
  match opcode with
  | 0b0000011#7 => some .load
  | 0b0001111#7 => some .miscMem
  | 0b0010011#7 => some .opImm
  | 0b0010111#7 => some .auipc
  | 0b0100011#7 => some .store
  | 0b0110011#7 => some .op
  | 0b0110111#7 => some .lui
  | 0b1100011#7 => some .branch
  | 0b1100111#7 => some .jalr
  | 0b1101111#7 => some .jal
  | 0b1110011#7 => some .system
  | _ => none

/-- The decoder's outputs (R123), under the source's names: for the S type `src1` is `instr[24:20]` and `base` is
`instr[19:15]` (90_conflicts.md C9). -/
structure DecodedFields where
  opcode : BitVec 7
  funct3 : BitVec 3
  funct7 : BitVec 7
  imm    : Word
  uimm   : Word
  src1   : RegIdx
  src2   : RegIdx
  dest   : RegIdx
  base   : RegIdx
deriving DecidableEq, Repr

/-- Every output but `opcode` at its default, zero (R124). -/
def zeroFields (w : Word) : DecodedFields :=
  { opcode := opcodeOf w, funct3 := 0, funct7 := 0, imm := 0, uimm := 0, src1 := 0, src2 := 0, dest := 0, base := 0 }

/-- I-type outputs (R126). -/
def fieldsI (w : Word) : DecodedFields :=
  { zeroFields w with
    imm := (immIOf w).signExtend 32, uimm := (w.extractLsb' 20 11).zeroExtend 32,
    funct3 := funct3Of w, src1 := rs1Of w, dest := rdOf w }

/-- U-type outputs (R127). -/
def fieldsU (w : Word) : DecodedFields :=
  { zeroFields w with imm := immUOf w ++ 0#12, dest := rdOf w }

/-- R-type outputs (R128). -/
def fieldsR (w : Word) : DecodedFields :=
  { zeroFields w with funct3 := funct3Of w, funct7 := funct7Of w, src1 := rs1Of w, src2 := rs2Of w, dest := rdOf w }

/-- J-type outputs (R129). -/
def fieldsJ (w : Word) : DecodedFields :=
  { zeroFields w with imm := (immJOf w).signExtend 32, dest := rdOf w }

/-- B-type outputs (R130). -/
def fieldsB (w : Word) : DecodedFields :=
  { zeroFields w with imm := (immBOf w).signExtend 32, funct3 := funct3Of w, src1 := rs1Of w, src2 := rs2Of w }

/-- S-type outputs (R131). -/
def fieldsS (w : Word) : DecodedFields :=
  { zeroFields w with imm := (immSOf w).signExtend 32, funct3 := funct3Of w, base := rs1Of w, src1 := rs2Of w }

/-- The decoder block: a total function of the word (R122), with the format chosen by the opcode (R125). SYSTEM and
unrecognized opcodes have no format (R132). -/
def decodeFields (w : Word) : DecodedFields :=
  match classOf (opcodeOf w) with
  | some .load => fieldsI w
  | some .miscMem => fieldsI w
  | some .opImm => fieldsI w
  | some .jalr => fieldsI w
  | some .auipc => fieldsU w
  | some .lui => fieldsU w
  | some .store => fieldsS w
  | some .op => fieldsR w
  | some .branch => fieldsB w
  | some .jal => fieldsJ w
  | some .system => zeroFields w
  | none => zeroFields w

/-! ## Reading a word as an instruction -/

/-- The seven items of R150's list of non-canonical words. -/
inductive NonCanonical where
  /-- SLLI with `instr[31:25] ≠ 0000000`. -/
  | slliUpper
  /-- SRLI/SRAI with `instr[31:25] ∉ {0000000, 0100000}`. -/
  | shiftRightUpper
  /-- OP with a `funct7` no row has for its `funct3`. -/
  | opFunct7
  /-- BRANCH with `funct3 ∈ {010, 011}`. -/
  | branchFunct3
  /-- LOAD with `funct3 ∈ {011, 110, 111}`. -/
  | loadFunct3
  /-- STORE with `funct3 ∈ {011, 100, 101, 110, 111}`. -/
  | storeFunct3
  /-- JALR with `funct3 ≠ 000`. -/
  | jalrFunct3
deriving DecidableEq, Repr

/-- R150's list, item by item, as a check on the word: what the clocked machine refuses in DECODE. -/
def nonCanonicalOf (w : Word) : Option NonCanonical :=
  match classOf (opcodeOf w) with
  | some .opImm =>
    if funct3Of w = 0b001 ∧ funct7Of w ≠ 0b0000000 then some .slliUpper
    else if funct3Of w = 0b101 ∧ funct7Of w ≠ 0b0000000 ∧ funct7Of w ≠ 0b0100000 then some .shiftRightUpper
    else none
  | some .op =>
    if (funct7Of w ≠ 0b0000000 ∧ funct7Of w ≠ 0b0100000) ∨
        (funct7Of w = 0b0100000 ∧ funct3Of w ≠ 0b000 ∧ funct3Of w ≠ 0b101) then some .opFunct7
    else none
  | some .branch => if funct3Of w = 0b010 ∨ funct3Of w = 0b011 then some .branchFunct3 else none
  | some .load =>
    if funct3Of w = 0b011 ∨ funct3Of w = 0b110 ∨ funct3Of w = 0b111 then some .loadFunct3 else none
  | some .store => if 0b011 ≤ funct3Of w then some .storeFunct3 else none
  | some .jalr => if funct3Of w ≠ 0b000 then some .jalrFunct3 else none
  | _ => none

/-- What a word is: an instruction of the table, a word with an unrecognized opcode (46_misc_mem_system.md R334), or a
non-canonical word, rejected by name (R150). -/
inductive Decoded where
  | instr (i : Instr)
  | unrecognized
  | nonCanonical (why : NonCanonical)
deriving DecidableEq, Repr

/-- OP-IMM by `funct3`, and for the shifts by `instr[31:25]` (R141). -/
def decodeOpImm (w : Word) : Decoded :=
  match funct3Of w with
  | 0b000#3 => .instr (.addi (rdOf w) (rs1Of w) (immIOf w))
  | 0b010#3 => .instr (.slti (rdOf w) (rs1Of w) (immIOf w))
  | 0b011#3 => .instr (.sltiu (rdOf w) (rs1Of w) (immIOf w))
  | 0b100#3 => .instr (.xori (rdOf w) (rs1Of w) (immIOf w))
  | 0b110#3 => .instr (.ori (rdOf w) (rs1Of w) (immIOf w))
  | 0b111#3 => .instr (.andi (rdOf w) (rs1Of w) (immIOf w))
  | 0b001#3 =>
    match funct7Of w with
    | 0b0000000#7 => .instr (.slli (rdOf w) (rs1Of w) (rs2Of w))
    | _ => .nonCanonical .slliUpper
  | _ =>
    match funct7Of w with
    | 0b0000000#7 => .instr (.srli (rdOf w) (rs1Of w) (rs2Of w))
    | 0b0100000#7 => .instr (.srai (rdOf w) (rs1Of w) (rs2Of w))
    | _ => .nonCanonical .shiftRightUpper

/-- OP by `funct3` and `funct7` (R142). -/
def decodeOp (w : Word) : Decoded :=
  match funct7Of w with
  | 0b0000000#7 =>
    match funct3Of w with
    | 0b000#3 => .instr (.add (rdOf w) (rs1Of w) (rs2Of w))
    | 0b001#3 => .instr (.sll (rdOf w) (rs1Of w) (rs2Of w))
    | 0b010#3 => .instr (.slt (rdOf w) (rs1Of w) (rs2Of w))
    | 0b011#3 => .instr (.sltu (rdOf w) (rs1Of w) (rs2Of w))
    | 0b100#3 => .instr (.xor (rdOf w) (rs1Of w) (rs2Of w))
    | 0b101#3 => .instr (.srl (rdOf w) (rs1Of w) (rs2Of w))
    | 0b110#3 => .instr (.or (rdOf w) (rs1Of w) (rs2Of w))
    | _ => .instr (.and (rdOf w) (rs1Of w) (rs2Of w))
  | 0b0100000#7 =>
    match funct3Of w with
    | 0b000#3 => .instr (.sub (rdOf w) (rs1Of w) (rs2Of w))
    | 0b101#3 => .instr (.sra (rdOf w) (rs1Of w) (rs2Of w))
    | _ => .nonCanonical .opFunct7
  | _ => .nonCanonical .opFunct7

/-- BRANCH by `funct3` (R143). -/
def decodeBranch (w : Word) : Decoded :=
  match funct3Of w with
  | 0b000#3 => .instr (.beq (rs1Of w) (rs2Of w) (immBOf w))
  | 0b001#3 => .instr (.bne (rs1Of w) (rs2Of w) (immBOf w))
  | 0b100#3 => .instr (.blt (rs1Of w) (rs2Of w) (immBOf w))
  | 0b101#3 => .instr (.bge (rs1Of w) (rs2Of w) (immBOf w))
  | 0b110#3 => .instr (.bltu (rs1Of w) (rs2Of w) (immBOf w))
  | 0b111#3 => .instr (.bgeu (rs1Of w) (rs2Of w) (immBOf w))
  | _ => .nonCanonical .branchFunct3

/-- LOAD by `funct3` (R144). -/
def decodeLoad (w : Word) : Decoded :=
  match funct3Of w with
  | 0b000#3 => .instr (.lb (rdOf w) (rs1Of w) (immIOf w))
  | 0b001#3 => .instr (.lh (rdOf w) (rs1Of w) (immIOf w))
  | 0b010#3 => .instr (.lw (rdOf w) (rs1Of w) (immIOf w))
  | 0b100#3 => .instr (.lbu (rdOf w) (rs1Of w) (immIOf w))
  | 0b101#3 => .instr (.lhu (rdOf w) (rs1Of w) (immIOf w))
  | _ => .nonCanonical .loadFunct3

/-- STORE by `funct3` (R145). -/
def decodeStore (w : Word) : Decoded :=
  match funct3Of w with
  | 0b000#3 => .instr (.sb (rs1Of w) (rs2Of w) (immSOf w))
  | 0b001#3 => .instr (.sh (rs1Of w) (rs2Of w) (immSOf w))
  | 0b010#3 => .instr (.sw (rs1Of w) (rs2Of w) (immSOf w))
  | _ => .nonCanonical .storeFunct3

/-- JALR, canonical only with `funct3 = 000` (R146). -/
def decodeJalr (w : Word) : Decoded :=
  match funct3Of w with
  | 0b000#3 => .instr (.jalr (rdOf w) (rs1Of w) (immIOf w))
  | _ => .nonCanonical .jalrFunct3

/-- Total on every word. LUI, AUIPC, JAL, MISC-MEM and SYSTEM have no selector: every word of their opcode is canonical
(R146). -/
def decodeWord (w : Word) : Decoded :=
  match classOf (opcodeOf w) with
  | some .load => decodeLoad w
  | some .miscMem => .instr (.miscMem (rdOf w) (rs1Of w) (funct3Of w) (immIOf w))
  | some .opImm => decodeOpImm w
  | some .auipc => .instr (.auipc (rdOf w) (immUOf w))
  | some .store => decodeStore w
  | some .op => decodeOp w
  | some .lui => .instr (.lui (rdOf w) (immUOf w))
  | some .branch => decodeBranch w
  | some .jalr => decodeJalr w
  | some .jal => .instr (.jal (rdOf w) (immJOf w))
  | some .system => .instr (.system (w.extractLsb' 7 25))
  | none => .unrecognized

/-- The instruction among the decoder's answers, if there is one. -/
def instrOf : Decoded → Option Instr
  | .instr i => some i
  | .unrecognized => none
  | .nonCanonical _ => none

/-- The instruction at the head of a byte stream, lowest address first, with the bytes left over. Every instruction is
four bytes (R120); `none` when fewer are left. -/
def decodeBytes : List Byte → Option (Decoded × List Byte)
  | b0 :: b1 :: b2 :: b3 :: rest => some (decodeWord (wordOfBytes b0 b1 b2 b3), rest)
  | _ => none

/-! ## The encoder -/

/-- I-type word (R126). -/
def packI (opcode : BitVec 7) (funct3 : BitVec 3) (rd rs1 : RegIdx) (imm : BitVec 12) : Word :=
  imm ++ rs1 ++ funct3 ++ rd ++ opcode

/-- R-type word (R128); also the immediate shifts, with the shift amount in the `rs2` field (R141). -/
def packR (opcode : BitVec 7) (funct3 : BitVec 3) (funct7 : BitVec 7) (rd rs1 rs2 : RegIdx) : Word :=
  funct7 ++ rs2 ++ rs1 ++ funct3 ++ rd ++ opcode

/-- U-type word (R127). -/
def packU (opcode : BitVec 7) (rd : RegIdx) (imm : BitVec 20) : Word := imm ++ rd ++ opcode

/-- S-type word (R131). -/
def packS (opcode : BitVec 7) (funct3 : BitVec 3) (rs1 rs2 : RegIdx) (imm : BitVec 12) : Word :=
  imm.extractLsb' 5 7 ++ rs2 ++ rs1 ++ funct3 ++ imm.extractLsb' 0 5 ++ opcode

/-- B-type word (R130). -/
def packB (opcode : BitVec 7) (funct3 : BitVec 3) (rs1 rs2 : RegIdx) (off : BitVec 13) : Word :=
  off.extractLsb' 12 1 ++ off.extractLsb' 5 6 ++ rs2 ++ rs1 ++ funct3 ++ off.extractLsb' 1 4 ++
    off.extractLsb' 11 1 ++ opcode

/-- J-type word (R129). -/
def packJ (opcode : BitVec 7) (rd : RegIdx) (off : BitVec 21) : Word :=
  off.extractLsb' 20 1 ++ off.extractLsb' 1 10 ++ off.extractLsb' 11 1 ++ off.extractLsb' 12 8 ++ rd ++ opcode

/-- The word of an instruction, from the encoding tables R126 to R131 and R141 to R146. -/
def encode : Instr → Word
  | .addi rd rs1 imm => packI 0b0010011 0b000 rd rs1 imm
  | .slti rd rs1 imm => packI 0b0010011 0b010 rd rs1 imm
  | .sltiu rd rs1 imm => packI 0b0010011 0b011 rd rs1 imm
  | .xori rd rs1 imm => packI 0b0010011 0b100 rd rs1 imm
  | .ori rd rs1 imm => packI 0b0010011 0b110 rd rs1 imm
  | .andi rd rs1 imm => packI 0b0010011 0b111 rd rs1 imm
  | .slli rd rs1 shamt => packR 0b0010011 0b001 0b0000000 rd rs1 shamt
  | .srli rd rs1 shamt => packR 0b0010011 0b101 0b0000000 rd rs1 shamt
  | .srai rd rs1 shamt => packR 0b0010011 0b101 0b0100000 rd rs1 shamt
  | .add rd rs1 rs2 => packR 0b0110011 0b000 0b0000000 rd rs1 rs2
  | .sub rd rs1 rs2 => packR 0b0110011 0b000 0b0100000 rd rs1 rs2
  | .sll rd rs1 rs2 => packR 0b0110011 0b001 0b0000000 rd rs1 rs2
  | .slt rd rs1 rs2 => packR 0b0110011 0b010 0b0000000 rd rs1 rs2
  | .sltu rd rs1 rs2 => packR 0b0110011 0b011 0b0000000 rd rs1 rs2
  | .xor rd rs1 rs2 => packR 0b0110011 0b100 0b0000000 rd rs1 rs2
  | .srl rd rs1 rs2 => packR 0b0110011 0b101 0b0000000 rd rs1 rs2
  | .sra rd rs1 rs2 => packR 0b0110011 0b101 0b0100000 rd rs1 rs2
  | .or rd rs1 rs2 => packR 0b0110011 0b110 0b0000000 rd rs1 rs2
  | .and rd rs1 rs2 => packR 0b0110011 0b111 0b0000000 rd rs1 rs2
  | .lui rd imm => packU 0b0110111 rd imm
  | .auipc rd imm => packU 0b0010111 rd imm
  | .jal rd off => packJ 0b1101111 rd off
  | .jalr rd rs1 imm => packI 0b1100111 0b000 rd rs1 imm
  | .beq rs1 rs2 off => packB 0b1100011 0b000 rs1 rs2 off
  | .bne rs1 rs2 off => packB 0b1100011 0b001 rs1 rs2 off
  | .blt rs1 rs2 off => packB 0b1100011 0b100 rs1 rs2 off
  | .bge rs1 rs2 off => packB 0b1100011 0b101 rs1 rs2 off
  | .bltu rs1 rs2 off => packB 0b1100011 0b110 rs1 rs2 off
  | .bgeu rs1 rs2 off => packB 0b1100011 0b111 rs1 rs2 off
  | .lb rd rs1 imm => packI 0b0000011 0b000 rd rs1 imm
  | .lh rd rs1 imm => packI 0b0000011 0b001 rd rs1 imm
  | .lw rd rs1 imm => packI 0b0000011 0b010 rd rs1 imm
  | .lbu rd rs1 imm => packI 0b0000011 0b100 rd rs1 imm
  | .lhu rd rs1 imm => packI 0b0000011 0b101 rd rs1 imm
  | .sb rs1 rs2 imm => packS 0b0100011 0b000 rs1 rs2 imm
  | .sh rs1 rs2 imm => packS 0b0100011 0b001 rs1 rs2 imm
  | .sw rs1 rs2 imm => packS 0b0100011 0b010 rs1 rs2 imm
  | .miscMem rd rs1 funct3 imm => packI 0b0001111 funct3 rd rs1 imm
  | .system rest => rest ++ 0b1110011#7

/-! ## The opcode table's own columns -/

/-- The bits a row of opcode_table.json fixes: its "mask". -/
def tableMask : Instr → Word
  | .addi _ _ _ => 0x0000707F
  | .slti _ _ _ => 0x0000707F
  | .sltiu _ _ _ => 0x0000707F
  | .xori _ _ _ => 0x0000707F
  | .ori _ _ _ => 0x0000707F
  | .andi _ _ _ => 0x0000707F
  | .slli _ _ _ => 0xFE00707F
  | .srli _ _ _ => 0xFE00707F
  | .srai _ _ _ => 0xFE00707F
  | .add _ _ _ => 0xFE00707F
  | .sub _ _ _ => 0xFE00707F
  | .sll _ _ _ => 0xFE00707F
  | .slt _ _ _ => 0xFE00707F
  | .sltu _ _ _ => 0xFE00707F
  | .xor _ _ _ => 0xFE00707F
  | .srl _ _ _ => 0xFE00707F
  | .sra _ _ _ => 0xFE00707F
  | .or _ _ _ => 0xFE00707F
  | .and _ _ _ => 0xFE00707F
  | .lui _ _ => 0x0000007F
  | .auipc _ _ => 0x0000007F
  | .jal _ _ => 0x0000007F
  | .jalr _ _ _ => 0x0000707F
  | .beq _ _ _ => 0x0000707F
  | .bne _ _ _ => 0x0000707F
  | .blt _ _ _ => 0x0000707F
  | .bge _ _ _ => 0x0000707F
  | .bltu _ _ _ => 0x0000707F
  | .bgeu _ _ _ => 0x0000707F
  | .lb _ _ _ => 0x0000707F
  | .lh _ _ _ => 0x0000707F
  | .lw _ _ _ => 0x0000707F
  | .lbu _ _ _ => 0x0000707F
  | .lhu _ _ _ => 0x0000707F
  | .sb _ _ _ => 0x0000707F
  | .sh _ _ _ => 0x0000707F
  | .sw _ _ _ => 0x0000707F
  | .miscMem _ _ _ _ => 0x0000007F
  | .system _ => 0x0000007F

/-- What those bits are: the row's "match". -/
def tableMatch : Instr → Word
  | .addi _ _ _ => 0x00000013
  | .slti _ _ _ => 0x00002013
  | .sltiu _ _ _ => 0x00003013
  | .xori _ _ _ => 0x00004013
  | .ori _ _ _ => 0x00006013
  | .andi _ _ _ => 0x00007013
  | .slli _ _ _ => 0x00001013
  | .srli _ _ _ => 0x00005013
  | .srai _ _ _ => 0x40005013
  | .add _ _ _ => 0x00000033
  | .sub _ _ _ => 0x40000033
  | .sll _ _ _ => 0x00001033
  | .slt _ _ _ => 0x00002033
  | .sltu _ _ _ => 0x00003033
  | .xor _ _ _ => 0x00004033
  | .srl _ _ _ => 0x00005033
  | .sra _ _ _ => 0x40005033
  | .or _ _ _ => 0x00006033
  | .and _ _ _ => 0x00007033
  | .lui _ _ => 0x00000037
  | .auipc _ _ => 0x00000017
  | .jal _ _ => 0x0000006F
  | .jalr _ _ _ => 0x00000067
  | .beq _ _ _ => 0x00000063
  | .bne _ _ _ => 0x00001063
  | .blt _ _ _ => 0x00004063
  | .bge _ _ _ => 0x00005063
  | .bltu _ _ _ => 0x00006063
  | .bgeu _ _ _ => 0x00007063
  | .lb _ _ _ => 0x00000003
  | .lh _ _ _ => 0x00001003
  | .lw _ _ _ => 0x00002003
  | .lbu _ _ _ => 0x00004003
  | .lhu _ _ _ => 0x00005003
  | .sb _ _ _ => 0x00000023
  | .sh _ _ _ => 0x00001023
  | .sw _ _ _ => 0x00002023
  | .miscMem _ _ _ _ => 0x0000000F
  | .system _ => 0x00000073

/-! ## The host's reading of a table word -/

/-- The instruction the decoder reads from a table row's bits `w` of `nbits` bits, the bits above them 0: the word is
laid out as its four little-endian bytes and given to the decoder. -/
def decodeTableWord (nbits w : Nat) : Option Instr :=
  let word : Word := BitVec.ofNat 32 (w % 2 ^ nbits)
  match decodeBytes [byteOfWord word 0, byteOfWord word 1, byteOfWord word 2, byteOfWord word 3] with
  | some (d, _) => instrOf d
  | none => none

end Sys2Proof
end

