-- ==== Sys2Proof/Machine/State.lean ====
section
/-! DEFINITION. Everything the spec gives the machine, as plain data (10_state.md; 40_controller.md R179), the reasons a
step can stop, and the state after reset (R52). -/

namespace Sys2Proof.Machine

/-- The controller state register (R48; 40_controller.md R170). -/
inductive Fsm where
  /-- Issue the fetch request at `pc`. The instruction boundary, and the reset value. -/
  | readPc
  /-- Wait for the fetch acknowledge. -/
  | loadPc
  /-- Decode and execute `ir`. -/
  | decode
  /-- Wait for the load acknowledge. -/
  | load
  /-- Wait for the store acknowledge. -/
  | store
deriving DecidableEq, Repr

/-- The transfer width staged for a load, `ld_width` (R46). -/
inductive Width where
  | byte | half | word
deriving DecidableEq, Repr

/-- The gap kinds (60_exceptions.md R353). -/
inductive Gap where
  | unrecognizedOpcode | miscMem | system | misalignedTarget | dataOffset | narrowStore | immSign
deriving DecidableEq, Repr

/-- The gap record: a set of gap kinds, one membership bit each (R352). -/
structure GapRecord where
  unrecognizedOpcode : Bool
  miscMem : Bool
  system : Bool
  misalignedTarget : Bool
  dataOffset : Bool
  narrowStore : Bool
  immSign : Bool
deriving DecidableEq, Repr

/-- The empty gap record, its value after reset (R352). -/
def GapRecord.empty : GapRecord :=
  { unrecognizedOpcode := false, miscMem := false, system := false, misalignedTarget := false,
    dataOffset := false, narrowStore := false, immSign := false }

/-- The three kinds of bus transaction (20_memory.md R81). -/
inductive BusKind where
  | fetch | load | store
deriving DecidableEq, Repr

/-- One completed transaction, `(kind, adr, we, wdata, rdata)` of R83. A read has no write data (R80: the target ignores
`dat_o`) and a write no read data (R75), so that side is `none` (log 16). -/
structure Transaction where
  kind  : BusKind
  adr   : Word
  we    : Bool
  wdata : Option Word
  rdata : Option Word
deriving DecidableEq, Repr

/-- The reference target's array of words (R88), as the bytes that the image or a store has placed, addresses strictly
rising. An address that is not listed holds no placed value (log 5). -/
abbrev Memory := List Host.Cell

/-- The state of the machine. A field in the spec's own name carries that name. -/
structure State where
  /-- The parameters RESET_PC and P_LOGIC_IMM (00_scope.md R8); fixed along a run. The model's own field. -/
  params : Params
  /-- The controller state register `state` (R48). -/
  fsm : Fsm
  /-- The program counter (R40). -/
  pc : Word
  /-- `x1` .. `x31`: slot `k` is `x(k+1)`. `x0` has no content (R32). -/
  xs : Vector Word 31
  /-- Whether `x1` .. `x31` have had a completed write since reset (R33; R179 "each holding a value or unwritten"). -/
  written : Vector Bool 31
  /-- The instruction register (R45). -/
  ir : Word
  /-- Load staging: the destination index `ld_rd` (R46). -/
  ldRd : RegIdx
  /-- Load staging: `ld_signed` (R46). -/
  ldSigned : Bool
  /-- Load staging: `ld_width` (R46). -/
  ldWidth : Width
  /-- Bus output `cyc_o` (R47; 20_memory.md R71). -/
  cycO : Bool
  /-- Bus output `stb_o`. -/
  stbO : Bool
  /-- Bus output `we_o`, 1 for a write. -/
  weO : Bool
  /-- Bus output `adr_o`, a byte address. -/
  adrO : Word
  /-- Bus output `dat_o`. -/
  datO : Word
  /-- Trace register `last_wr_idx` (R50). -/
  lastWrIdx : RegIdx
  /-- Trace register `last_wr_val` (R50). -/
  lastWrVal : Word
  /-- The gap record (R352). -/
  gaps : GapRecord
  /-- The refusal mark (40_controller.md R184). -/
  refusalMark : Bool
  /-- The transaction trace, oldest first (R83). -/
  trace : List Transaction
  /-- The reference target's memory (R88). -/
  mem : Memory
  /-- The next free value of `dat_o` to take (log 7). The model's own field. -/
  freeIdx : Nat
deriving DecidableEq, Repr

/-- Why a step can stop with a fault: for no reason. The hardware has no fault (60_exceptions.md R350), every register holds
a value after reset, and a read of one that nothing has written computes "with whatever the slot holds" (R367; log 1). The
spec's one model fault is no stop of the machine: it is a verdict on a run, `ModelFault` (Machine/Checked.lean). -/
inductive Fault where
deriving DecidableEq, Repr

/-- Why a step can give no meaning. -/
inductive Refusal where
  /-- An instruction of the table that has no meaning in this model yet; raised only by an arm of `exec`. Safe. -/
  | notModelled (mnemonic : String)
  /-- NONCANONICAL(w): the fetched word is non-canonical (40_controller.md R184; 30_encoding.md R150), and the spec does
  not settle what the hardware does with it. Raised by `step`. Safe. -/
  | nonCanonical (w : Word)
  /-- The state's refusal mark is already set, so no Step may be taken from it (R179, R184). Raised by `step`. Safe. -/
  | refusalMarkSet
deriving DecidableEq, Repr

/-- What a meaning answers. -/
abbrev Result := Host.Outcome State Fault Refusal

/-- The state after reset under given parameters (R52): READ_PC, `pc` at RESET_PC, no request, empty gap record, mark and
trace, every register unwritten. The values of `x1` .. `x31` are DESIGN CHOICE (log 1); those of `ir`, `ld_*`, `adr_o`,
`dat_o` and `last_wr_*` are DESIGN CHOICE (log 4); the spec calls each unspecified. -/
def State.resetWith (p : Params) : State :=
  { params := p
    fsm := .readPc
    pc := p.resetPc
    xs := Vector.replicate 31 0
    written := Vector.replicate 31 false
    ir := 0
    ldRd := 0
    ldSigned := false
    ldWidth := .byte
    cycO := false
    stbO := false
    weO := false
    adrO := 0
    datO := 0
    lastWrIdx := 0
    lastWrVal := 0
    gaps := GapRecord.empty
    refusalMark := false
    trace := []
    mem := []
    freeIdx := 0 }

/-- The machine right after reset, under the spec's default parameters (R8, R52). -/
def State.reset : State := State.resetWith Params.default

end Sys2Proof.Machine
end

