-- ==== Sys2Proof/Machine/Memory.lean ====
section
/-! DEFINITION. The reference target (20_memory.md R88): a word array indexed by `adr[31:2]`, held as its bytes in one
canonical form, and the program image placed in it at boot (70_reset_and_hazards.md R386). -/

namespace Sys2Proof.Machine

/-- The byte placed at an address by the image or a store; `none` where nothing has placed one. -/
def memGet : Memory → Nat → Option Byte
  | [], _ => none
  | (k, b) :: m, a => if k = a then some b else memGet m a

/-- Places a byte, keeping the addresses strictly rising. -/
def memSet : Memory → Nat → Byte → Memory
  | [], a, v => [(a, v)]
  | (k, b) :: m, a, v =>
    if a < k then (a, v) :: (k, b) :: m
    else if a = k then (a, v) :: m
    else (k, b) :: memSet m a v

/-- Addresses strictly rise along the list. -/
def memSorted : Memory → Bool
  | [] => true
  | [_] => true
  | (a, _) :: (b, y) :: m => decide (a < b) && memSorted ((b, y) :: m)

/-- Every listed address lies in the 32-bit address space (R89). -/
def memInSpace (m : Memory) : Bool := m.all (fun c => decide (c.1 < 2 ^ 32))

/-- The canonical form of memory: addresses strictly rising and inside the address space. An unlisted address holds no
placed value, so no entry can equal what it reads as (log 6). -/
def memWf (m : Memory) : Bool := memSorted m && memInSpace m

/-- What a byte address holds: the placed byte, or the free value of that address (R88, 93 U9; log 5). -/
def byteAt (m : Memory) (a : Nat) : Byte := (memGet m a).getD (Config.initialByte a)

/-- The byte address of the word `Mem[adr[31:2]]`: `adr[1:0]` is ignored (R88). -/
def wordBase (adr : Word) : Nat := 4 * (adr.extractLsb' 2 30).toNat

/-- `Mem[adr[31:2]]`, little-endian (R88). -/
def targetRead (m : Memory) (adr : Word) : Word :=
  wordOfBytes (byteAt m (wordBase adr)) (byteAt m (wordBase adr + 1)) (byteAt m (wordBase adr + 2))
    (byteAt m (wordBase adr + 3))

/-- `Mem[adr[31:2]] <- d`, all 32 bits (R88). -/
def targetWrite (m : Memory) (adr d : Word) : Memory :=
  memSet (memSet (memSet (memSet m (wordBase adr) (byteOfWord d 0)) (wordBase adr + 1) (byteOfWord d 1))
    (wordBase adr + 2) (byteOfWord d 2)) (wordBase adr + 3) (byteOfWord d 3)

/-- The listed bytes of an image that starts at address `a`; bytes beyond the address space are not placed. -/
def imageFrom : Nat → List Byte → Memory
  | _, [] => []
  | a, b :: bs => if a < 2 ^ 32 then (a, b) :: imageFrom (a + 1) bs else []

/-- Boot (70_reset_and_hazards.md R386): the flat byte blob at byte address 0 of the target (R88), and the core after
reset. Byte `k` of the blob is byte `k` of memory. -/
def bootImage (p : Params) (blob : List Byte) : State := { State.resetWith p with mem := imageFrom 0 blob }

end Sys2Proof.Machine
end

