-- ==== Sys2Proof/Machine/Flags.lean ====
section
/-! DEFINITION. Conditions. The core has no flags or condition codes (10_state.md R49): a branch compares two registers
directly (44_control_transfer.md R273). Here stand the comparator and the conditions under which a gap is recorded. -/

namespace Sys2Proof.Machine

/-- `bool(c)` of 00_scope.md R10. -/
def boolWord (c : Bool) : Word := if c then 0x00000001 else 0x00000000

/-- The six branch relations (40_controller.md R182). -/
inductive Relation where
  | eq | ne | lt | ge | ltu | geu
deriving DecidableEq, Repr

/-- The branch comparator: whether the relation holds, the table of R182. -/
def cmp (rel : Relation) (p q : Word) : Bool :=
  match rel with
  | .eq => p == q
  | .ne => !(p == q)
  | .lt => p.slt q
  | .ge => !(p.slt q)
  | .ltu => p.ult q
  | .geu => !(p.ult q)

/-- Whether an address or target has its low two bits not zero: the condition of MISALIGNED_TARGET and of DATA_OFFSET
(60_exceptions.md R353). -/
def offWord (a : Word) : Bool := a.extractLsb' 0 2 != 0

/-- `instr[31] = 1`, read from the I-type immediate field: the condition of IMM_SIGN (41_integer_immediate.md R200). -/
def immSignSet (imm : BitVec 12) : Bool := imm.getLsbD 11

/-- Membership in the gap record (R352). -/
def hasGap (g : GapRecord) : Gap → Bool
  | .unrecognizedOpcode => g.unrecognizedOpcode
  | .miscMem => g.miscMem
  | .system => g.system
  | .misalignedTarget => g.misalignedTarget
  | .dataOffset => g.dataOffset
  | .narrowStore => g.narrowStore
  | .immSign => g.immSign

/-- The gap record with a kind added; nothing removes a kind (R352). -/
def addGap (k : Gap) (g : GapRecord) : GapRecord :=
  match k with
  | .unrecognizedOpcode => { g with unrecognizedOpcode := true }
  | .miscMem => { g with miscMem := true }
  | .system => { g with system := true }
  | .misalignedTarget => { g with misalignedTarget := true }
  | .dataOffset => { g with dataOffset := true }
  | .narrowStore => { g with narrowStore := true }
  | .immSign => { g with immSign := true }

end Sys2Proof.Machine
end

