-- ==== Sys2Proof/Machine/Operands.lean ====
section
/-! DEFINITION. Operand forms (register, immediate and pc are the only ones: 30_encoding.md R139), the ALU (40_controller.md
R181) and the adjustment of loaded data (45_load_store.md R300). -/

namespace Sys2Proof.Machine

/-- `simm_I` and `simm_S`: a 12-bit immediate, sign-extended (30_encoding.md R133, R134). -/
def simm12 (imm : BitVec 12) : Word := imm.signExtend 32

/-- `uimm_I = zext_11(instr[30:20])` (R133). -/
def uimm11 (imm : BitVec 12) : Word := (imm.extractLsb' 0 11).zeroExtend 32

/-- `simm_B` (R135). -/
def simmB (off : BitVec 13) : Word := off.signExtend 32

/-- `simm_J` (R137). -/
def simmJ (off : BitVec 21) : Word := off.signExtend 32

/-- `imm_U`: the immediate in the upper 20 bits (R136). -/
def immU (imm : BitVec 20) : Word := imm ++ 0#12

/-- `imm_L`, the immediate of XORI, ORI and ANDI: `uimm_I` or `simm_I` by P_LOGIC_IMM (41_integer_immediate.md R200). -/
def immLogic (p : Params) (imm : BitVec 12) : Word :=
  match p.logicImm with
  | .uimm => uimm11 imm
  | .simm => simm12 imm

/-- The ALU operations (R181). -/
inductive AluOp where
  | add | sub | sll | slt | sltu | xor | srl | sra | or | and | pass
deriving DecidableEq, Repr

/-- `q[4:0]`, the shift amount: RV32 shifts are modulo 32 (30_encoding.md R138). -/
def shiftAmount (q : Word) : Nat := (q.extractLsb' 0 5).toNat

/-- `alu(op, p, q)`, the table of R181. Sums and differences wrap, and nothing records it (42_integer_register.md R241). -/
def alu (op : AluOp) (p q : Word) : Word :=
  match op with
  | .add => p + q
  | .sub => p - q
  | .sll => p <<< shiftAmount q
  | .slt => boolWord (p.slt q)
  | .sltu => boolWord (p.ult q)
  | .xor => p ^^^ q
  | .srl => p >>> shiftAmount q
  | .sra => p.sshiftRight (shiftAmount q)
  | .or => p ||| q
  | .and => p &&& q
  | .pass => q

/-- A 5-bit immediate shift amount as an ALU operand (R138). -/
def shamtWord (shamt : BitVec 5) : Word := shamt.zeroExtend 32

/-- `adjust(r, width, signed)`: the low-order bits of the returned word, sign- or zero-extended (R300). -/
def adjust (r : Word) (w : Width) (signed : Bool) : Word :=
  match w with
  | .word => r
  | .half => if signed then (r.extractLsb' 0 16).signExtend 32 else (r.extractLsb' 0 16).zeroExtend 32
  | .byte => if signed then (r.extractLsb' 0 8).signExtend 32 else (r.extractLsb' 0 8).zeroExtend 32

/-- The only data addressing mode: base register plus sign-extended 12-bit displacement, modulo 2^32 (R310). -/
def effectiveAddress (base : Word) (imm : BitVec 12) : Word := base + simm12 imm

end Sys2Proof.Machine
end

