-- ==== Sys2Proof/Machine/Ops.lean ====
section
/-! DEFINITION. The named operations: registers, the gap record, the bus adapter's requests and acknowledges, and the
ends of an instruction. Each is what one row of the controller's transition table (40_controller.md R171) does.

There is no operation that takes an exception and none that returns from one: the core raises no exception, and has no
trap entry and no trap return (60_exceptions.md R350, R356, R357). -/

namespace Sys2Proof.Machine

/-! ## Registers (10_state.md R30 to R35) -/

/-- `x[i]`: zero for `x0`, else the last completed write (R31). -/
def readReg (s : State) (i : RegIdx) : Word :=
  if i = 0#5 then 0#32 else (s.xs[i.toNat - 1]?).getD 0#32

/-- Whether register `i` has had a completed write since reset; `x0` always has a value (R31, R33). -/
def isWritten (s : State) (i : RegIdx) : Bool :=
  if i = 0#5 then true else (s.written[i.toNat - 1]?).getD false

/-- `x[i] <- v` with the write enable asserted: a write of `x0` is discarded (R32), and the trace registers take every
enabled write, `x0`'s too (R35, R50). -/
def writeReg (i : RegIdx) (v : Word) (s : State) : State :=
  { s with
    xs := if i = 0#5 then s.xs else s.xs.setIfInBounds (i.toNat - 1) v
    written := if i = 0#5 then s.written else s.written.setIfInBounds (i.toNat - 1) true
    lastWrIdx := i
    lastWrVal := v }

/-! ## The gap record (60_exceptions.md R352) -/

/-- `record Gap(k)`: changes the record only (40_controller.md R185). -/
def recordGap (k : Gap) (s : State) : State := { s with gaps := addGap k s.gaps }

/-- `if c then record Gap(k)`. -/
def recordGapIf (c : Bool) (k : Gap) (s : State) : State := if c then recordGap k s else s

/-! ## Ending DECODE (10_state.md R41, R42) -/

/-- `pc <- pc + 4`, and back to READ_PC: the end of every instruction that transfers no control. -/
def advance (s : State) : State := { s with pc := s.pc + 4, fsm := .readPc }

/-- `x[rd] <- v; pc <- pc + 4`: the end of OP-IMM, OP, LUI and AUIPC. -/
def writeResult (rd : RegIdx) (v : Word) (s : State) : State := advance (writeReg rd v s)

/-- `pc <- t; if t[1:0] ≠ 0 then record Gap(MISALIGNED_TARGET)` (44_control_transfer.md R270). -/
def jumpTo (t : Word) (s : State) : State :=
  { recordGapIf (offWord t) .misalignedTarget s with pc := t, fsm := .readPc }

/-! ## The bus adapter (20_memory.md R73 to R81) -/

/-- A read request at an unmodified byte address (R73). `dat_o` is unspecified from here on (R80): it takes the next free
value (log 7). -/
def issueRead (adr : Word) (s : State) : State :=
  { s with
    cycO := true, stbO := true, weO := false, adrO := adr
    datO := Config.readDatO s.freeIdx, freeIdx := s.freeIdx + 1 }

/-- A write request: the whole word, with no size and no byte select (R73, R96). -/
def issueWrite (adr d : Word) (s : State) : State :=
  { s with cycO := true, stbO := true, weO := true, adrO := adr, datO := d }

/-- The acknowledge edge: `cyc_o, stb_o <- 0` (R76), and the transaction goes onto the trace (R83). -/
def completeBus (t : Transaction) (s : State) : State :=
  { s with cycO := false, stbO := false, trace := s.trace ++ [t] }

/-- READ_PC's edge: the fetch request at `pc` (R81). -/
def beginFetch (s : State) : State := { issueRead s.pc s with fsm := .loadPc }

/-- LOAD_PC's acknowledge edge: the returned word goes to `ir` (10_state.md R45). -/
def endFetch (w : Word) (s : State) : State :=
  { completeBus { kind := .fetch, adr := s.adrO, we := false, wdata := none, rdata := some w } s with
    ir := w, fsm := .decode }

/-- DECODE's edge for a load: the read request, the staging registers and the next `pc` (45_load_store.md R300). -/
def beginLoad (rd : RegIdx) (w : Width) (signed : Bool) (ea : Word) (s : State) : State :=
  { issueRead ea (recordGapIf (offWord ea) .dataOffset s) with
    ldRd := rd, ldWidth := w, ldSigned := signed, pc := s.pc + 4, fsm := .load }

/-- LOAD's acknowledge edge: the adjusted data goes to `x[ld_rd]` (R300; 40_controller.md R175). -/
def endLoad (r : Word) (s : State) : State :=
  { completeBus { kind := .load, adr := s.adrO, we := false, wdata := none, rdata := some r }
      (writeReg s.ldRd (adjust r s.ldWidth s.ldSigned) s) with
    fsm := .readPc }

/-- DECODE's edge for a store: the write request and the next `pc` (45_load_store.md R306). `narrow` is SB's and SH's. -/
def beginStore (narrow : Bool) (ea d : Word) (s : State) : State :=
  { issueWrite ea d (recordGapIf narrow .narrowStore (recordGapIf (offWord ea) .dataOffset s)) with
    pc := s.pc + 4, fsm := .store }

/-- STORE's acknowledge edge (40_controller.md R176). -/
def endStore (s : State) : State :=
  { completeBus { kind := .store, adr := s.adrO, we := true, wdata := some s.datO, rdata := none } s with
    fsm := .readPc }

/-! ## The reference target's side of a transaction (20_memory.md R88) -/

/-- The word the reference target answers to the pending read. -/
def targetAnswer (s : State) : Word := targetRead s.mem s.adrO

/-- The reference target performs the pending write. -/
def landStore (s : State) : State := { s with mem := targetWrite s.mem s.adrO s.datO }

/-- A whole Fetch under the reference target: READ_PC's edge, then LOAD_PC's acknowledge (40_controller.md R172, R173). -/
def fetch (s : State) : State := endFetch (targetAnswer (beginFetch s)) (beginFetch s)

/-- A whole load under the reference target. -/
def loadFrom (rd : RegIdx) (w : Width) (signed : Bool) (ea : Word) (s : State) : State :=
  endLoad (targetAnswer (beginLoad rd w signed ea s)) (beginLoad rd w signed ea s)

/-- A whole store under the reference target: the store is acknowledged before the instruction ends (20_memory.md R77). -/
def storeTo (narrow : Bool) (ea d : Word) (s : State) : State := endStore (landStore (beginStore narrow ea d s))

end Sys2Proof.Machine
end

