-- ==== Sys2Proof/Machine/ControlTransfer.lean ====
section
/-! DEFINITION. JAL, JALR and the branches (44_control_transfer.md R270 to R280): no delay slot, no alignment check, a
misaligned target recorded as a gap. -/

namespace Sys2Proof.Machine

/-- R271: `t <- pc + simm_J; x[rd] <- pc + 4; pc <- t`, and MISALIGNED_TARGET when `t[1:0] ≠ 0`. -/
def execJal (rd : RegIdx) (off : BitVec 21) (s : State) : Result :=
  .next (jumpTo (alu .add s.pc (simmJ off)) (writeReg rd (alu .add s.pc 4) s))

/-- R272: `t <- x[rs1] + simm_I; x[rd] <- pc + 4; pc <- t`. Bit 0 of `t` is kept (90_conflicts.md C12; log 14), and the
target uses the old `x[rs1]`. -/
def execJalr (rd rs1 : RegIdx) (imm : BitVec 12) (s : State) : Result :=
  .next (jumpTo (alu .add (readReg s rs1) (simm12 imm)) (writeReg rd (alu .add s.pc 4) s))

/-- R273: to `pc + simm_B` if the relation holds, else to `pc + 4`; only a taken branch can record MISALIGNED_TARGET. -/
def branchIf (rel : Relation) (rs1 rs2 : RegIdx) (off : BitVec 13) (s : State) : State :=
  if cmp rel (readReg s rs1) (readReg s rs2) then jumpTo (alu .add s.pc (simmB off)) s else advance s

/-- R274: R273 with `taken = x[rs1] = x[rs2]`. -/
def execBeq (rs1 rs2 : RegIdx) (off : BitVec 13) (s : State) : Result :=
  .next (branchIf .eq rs1 rs2 off s)

/-- R275: R273 with `taken = x[rs1] ≠ x[rs2]`. -/
def execBne (rs1 rs2 : RegIdx) (off : BitVec 13) (s : State) : Result :=
  .next (branchIf .ne rs1 rs2 off s)

/-- R276: R273 with `taken = x[rs1] <s x[rs2]`. -/
def execBlt (rs1 rs2 : RegIdx) (off : BitVec 13) (s : State) : Result :=
  .next (branchIf .lt rs1 rs2 off s)

/-- R277: R273 with `taken = not (x[rs1] <s x[rs2])`. -/
def execBge (rs1 rs2 : RegIdx) (off : BitVec 13) (s : State) : Result :=
  .next (branchIf .ge rs1 rs2 off s)

/-- R278: R273 with `taken = x[rs1] <u x[rs2]`. -/
def execBltu (rs1 rs2 : RegIdx) (off : BitVec 13) (s : State) : Result :=
  .next (branchIf .ltu rs1 rs2 off s)

/-- R279: R273 with `taken = not (x[rs1] <u x[rs2])`. -/
def execBgeu (rs1 rs2 : RegIdx) (off : BitVec 13) (s : State) : Result :=
  .next (branchIf .geu rs1 rs2 off s)

end Sys2Proof.Machine
end

