-- ==== Sys2Proof/Machine/IntegerImmediate.lean ====
section
/-! DEFINITION. OP-IMM (41_integer_immediate.md R200 to R209): each reads `x[rs1]`, writes `x[rd]` and sets `pc <- pc + 4`. -/

namespace Sys2Proof.Machine

/-- R201: `x[rd] <- x[rs1] + simm_I`. -/
def execAddi (rd rs1 : RegIdx) (imm : BitVec 12) (s : State) : Result :=
  .next (writeResult rd (alu .add (readReg s rs1) (simm12 imm)) s)

/-- R202: `x[rd] <- bool(x[rs1] <s simm_I)`. -/
def execSlti (rd rs1 : RegIdx) (imm : BitVec 12) (s : State) : Result :=
  .next (writeResult rd (alu .slt (readReg s rs1) (simm12 imm)) s)

/-- R203: `x[rd] <- bool(x[rs1] <u simm_I)`; IMM_SIGN when `instr[31] = 1`. The immediate is the spec's decision D5 (log 20). -/
def execSltiu (rd rs1 : RegIdx) (imm : BitVec 12) (s : State) : Result :=
  .next (writeResult rd (alu .sltu (readReg s rs1) (simm12 imm)) (recordGapIf (immSignSet imm) .immSign s))

/-- R204: `x[rd] <- x[rs1] ^ imm_L`; IMM_SIGN when `instr[31] = 1`. -/
def execXori (rd rs1 : RegIdx) (imm : BitVec 12) (s : State) : Result :=
  .next (writeResult rd (alu .xor (readReg s rs1) (immLogic s.params imm)) (recordGapIf (immSignSet imm) .immSign s))

/-- R205: `x[rd] <- x[rs1] | imm_L`; IMM_SIGN when `instr[31] = 1`. -/
def execOri (rd rs1 : RegIdx) (imm : BitVec 12) (s : State) : Result :=
  .next (writeResult rd (alu .or (readReg s rs1) (immLogic s.params imm)) (recordGapIf (immSignSet imm) .immSign s))

/-- R206: `x[rd] <- x[rs1] & imm_L`; IMM_SIGN when `instr[31] = 1`. -/
def execAndi (rd rs1 : RegIdx) (imm : BitVec 12) (s : State) : Result :=
  .next (writeResult rd (alu .and (readReg s rs1) (immLogic s.params imm)) (recordGapIf (immSignSet imm) .immSign s))

/-- R207: `x[rd] <- x[rs1] << shamt`. -/
def execSlli (rd rs1 : RegIdx) (shamt : BitVec 5) (s : State) : Result :=
  .next (writeResult rd (alu .sll (readReg s rs1) (shamtWord shamt)) s)

/-- R208: `x[rd] <- x[rs1] >>u shamt`. -/
def execSrli (rd rs1 : RegIdx) (shamt : BitVec 5) (s : State) : Result :=
  .next (writeResult rd (alu .srl (readReg s rs1) (shamtWord shamt)) s)

/-- R209: `x[rd] <- x[rs1] >>s shamt`. -/
def execSrai (rd rs1 : RegIdx) (shamt : BitVec 5) (s : State) : Result :=
  .next (writeResult rd (alu .sra (readReg s rs1) (shamtWord shamt)) s)

end Sys2Proof.Machine
end

