-- ==== Sys2Proof/Machine/IntegerRegister.lean ====
section
/-! DEFINITION. OP (42_integer_register.md R230 to R240): each reads `x[rs1]` and `x[rs2]`, writes `x[rd]`, sets
`pc <- pc + 4` and records no gap. -/

namespace Sys2Proof.Machine

/-- R231: `x[rd] <- x[rs1] + x[rs2]`. -/
def execAdd (rd rs1 rs2 : RegIdx) (s : State) : Result :=
  .next (writeResult rd (alu .add (readReg s rs1) (readReg s rs2)) s)

/-- R232: `x[rd] <- x[rs1] - x[rs2]`. -/
def execSub (rd rs1 rs2 : RegIdx) (s : State) : Result :=
  .next (writeResult rd (alu .sub (readReg s rs1) (readReg s rs2)) s)

/-- R233: `x[rd] <- x[rs1] << x[rs2][4:0]`. -/
def execSll (rd rs1 rs2 : RegIdx) (s : State) : Result :=
  .next (writeResult rd (alu .sll (readReg s rs1) (readReg s rs2)) s)

/-- R234: `x[rd] <- bool(x[rs1] <s x[rs2])`. -/
def execSlt (rd rs1 rs2 : RegIdx) (s : State) : Result :=
  .next (writeResult rd (alu .slt (readReg s rs1) (readReg s rs2)) s)

/-- R235: `x[rd] <- bool(x[rs1] <u x[rs2])`. -/
def execSltu (rd rs1 rs2 : RegIdx) (s : State) : Result :=
  .next (writeResult rd (alu .sltu (readReg s rs1) (readReg s rs2)) s)

/-- R236: `x[rd] <- x[rs1] ^ x[rs2]`. -/
def execXor (rd rs1 rs2 : RegIdx) (s : State) : Result :=
  .next (writeResult rd (alu .xor (readReg s rs1) (readReg s rs2)) s)

/-- R237: `x[rd] <- x[rs1] >>u x[rs2][4:0]`. -/
def execSrl (rd rs1 rs2 : RegIdx) (s : State) : Result :=
  .next (writeResult rd (alu .srl (readReg s rs1) (readReg s rs2)) s)

/-- R238: `x[rd] <- x[rs1] >>s x[rs2][4:0]`. -/
def execSra (rd rs1 rs2 : RegIdx) (s : State) : Result :=
  .next (writeResult rd (alu .sra (readReg s rs1) (readReg s rs2)) s)

/-- R239: `x[rd] <- x[rs1] | x[rs2]`. -/
def execOr (rd rs1 rs2 : RegIdx) (s : State) : Result :=
  .next (writeResult rd (alu .or (readReg s rs1) (readReg s rs2)) s)

/-- R240: `x[rd] <- x[rs1] & x[rs2]`. -/
def execAnd (rd rs1 rs2 : RegIdx) (s : State) : Result :=
  .next (writeResult rd (alu .and (readReg s rs1) (readReg s rs2)) s)

end Sys2Proof.Machine
end

