-- ==== Sys2Proof/Machine/LoadStore.lean ====
section
/-! DEFINITION. Loads and stores (45_load_store.md R300 to R310): one 32-bit transaction each, at the unmodified effective
address. The narrow widths are the spec's decisions D11 and D12 (log 13). -/

namespace Sys2Proof.Machine

/-- R301: `x[rd] <- sext_8(MemRead(ea, 4)[7:0])`. -/
def execLb (rd rs1 : RegIdx) (imm : BitVec 12) (s : State) : Result :=
  .next (loadFrom rd .byte true (effectiveAddress (readReg s rs1) imm) s)

/-- R302: `x[rd] <- sext_16(MemRead(ea, 4)[15:0])`. -/
def execLh (rd rs1 : RegIdx) (imm : BitVec 12) (s : State) : Result :=
  .next (loadFrom rd .half true (effectiveAddress (readReg s rs1) imm) s)

/-- R303: `x[rd] <- MemRead(ea, 4)`. -/
def execLw (rd rs1 : RegIdx) (imm : BitVec 12) (s : State) : Result :=
  .next (loadFrom rd .word false (effectiveAddress (readReg s rs1) imm) s)

/-- R304: `x[rd] <- zext_8(MemRead(ea, 4)[7:0])`. -/
def execLbu (rd rs1 : RegIdx) (imm : BitVec 12) (s : State) : Result :=
  .next (loadFrom rd .byte false (effectiveAddress (readReg s rs1) imm) s)

/-- R305: `x[rd] <- zext_16(MemRead(ea, 4)[15:0])`. -/
def execLhu (rd rs1 : RegIdx) (imm : BitVec 12) (s : State) : Result :=
  .next (loadFrom rd .half false (effectiveAddress (readReg s rs1) imm) s)

/-- R307: `MemWrite(ea, 4, x[rs2])`; NARROW_STORE. -/
def execSb (rs1 rs2 : RegIdx) (imm : BitVec 12) (s : State) : Result :=
  .next (storeTo true (effectiveAddress (readReg s rs1) imm) (readReg s rs2) s)

/-- R308: `MemWrite(ea, 4, x[rs2])`; NARROW_STORE. -/
def execSh (rs1 rs2 : RegIdx) (imm : BitVec 12) (s : State) : Result :=
  .next (storeTo true (effectiveAddress (readReg s rs1) imm) (readReg s rs2) s)

/-- R309: `MemWrite(ea, 4, x[rs2])`. -/
def execSw (rs1 rs2 : RegIdx) (imm : BitVec 12) (s : State) : Result :=
  .next (storeTo false (effectiveAddress (readReg s rs1) imm) (readReg s rs2) s)

end Sys2Proof.Machine
end

