-- ==== Sys2Proof/Machine/MiscSystem.lean ====
section
/-! DEFINITION. MISC-MEM, SYSTEM and unrecognized opcodes (46_misc_mem_system.md R330 to R335): each is a no-op that
records its gap. No register is written, not even a CSR instruction's `rd` (R333), and no operand is read. -/

namespace Sys2Proof.Machine

/-- R330: `record Gap(MISC_MEM); pc <- pc + 4`. No field matters. -/
def execMiscMem (_rd _rs1 : RegIdx) (_funct3 : BitVec 3) (_imm : BitVec 12) (s : State) : Result :=
  .next (advance (recordGap .miscMem s))

/-- R332: `record Gap(SYSTEM); pc <- pc + 4`. No field matters; there is no trap, halt, CSR or wait. -/
def execSystem (_rest : BitVec 25) (s : State) : Result :=
  .next (advance (recordGap .system s))

/-- R334: `record Gap(UNRECOGNIZED_OPCODE); pc <- pc + 4`, for every word whose opcode is none of the eleven. Such a word
is no row of the opcode table, so `step` runs this beside `exec`. -/
def execUnrecognized (s : State) : Result :=
  .next (advance (recordGap .unrecognizedOpcode s))

end Sys2Proof.Machine
end

