-- ==== Sys2Proof/Machine/UpperImmediate.lean ====
section
/-! DEFINITION. LUI and AUIPC (43_upper_immediate.md R260 to R262): neither reads a register and neither records a gap. -/

namespace Sys2Proof.Machine

/-- R260: `x[rd] <- imm_U`, the ALU's PASS. -/
def execLui (rd : RegIdx) (imm : BitVec 20) (s : State) : Result :=
  .next (writeResult rd (alu .pass 0 (immU imm)) s)

/-- R261: `x[rd] <- pc + imm_U`, with `pc` the address of this instruction (R262). -/
def execAuipc (rd : RegIdx) (imm : BitVec 20) (s : State) : Result :=
  .next (writeResult rd (alu .add s.pc (immU imm)) s)

end Sys2Proof.Machine
end

