-- ==== Sys2Proof/Machine/Execute.lean ====
section
/-! DEFINITION. Running the word in `ir`, and placing a word where the next fetch reads it. -/

namespace Sys2Proof.Machine

/-- DECODE and what follows it, to the next entry into READ_PC (40_controller.md R179): the instruction's meaning, the
no-op of an unrecognized opcode (46_misc_mem_system.md R334), or the refusal of a non-canonical word, which comes before
any operand is read or gap recorded (R184; 60_exceptions.md R355). -/
def runIr (s : State) : Result :=
  match decodeWord s.ir with
  | .instr i => exec i s
  | .unrecognized => execUnrecognized s
  | .nonCanonical _ => .refused (.nonCanonical s.ir)

/-- The word placed at the address the next fetch reads, and the core at an instruction boundary with no refusal mark. -/
def placeFetchWord (w : Word) (s : State) : State :=
  { s with mem := targetWrite s.mem s.pc w, fsm := .readPc, refusalMark := false }

end Sys2Proof.Machine
end

