-- ==== Sys2Proof/Machine/Step.lean ====
section
/-! DEFINITION. One instruction-level Step (40_controller.md R179), under the reference target, which acknowledges every
request (20_memory.md R88). -/

namespace Sys2Proof.Machine

/-- From an instruction boundary (READ_PC): fetch at `pc`, decode, execute. From a state inside an instruction, which no
Step leaves and only the clocked machine visits, the rest of that instruction (log 9). No Step is taken from a state whose
refusal mark is set (R179, R184). -/
def step (s : State) : Host.Outcome State Fault Refusal :=
  if s.refusalMark then .refused .refusalMarkSet
  else
    match s.fsm with
    | .readPc => runIr (fetch s)
    | .loadPc => runIr (endFetch (targetAnswer s) s)
    | .decode => runIr s
    | .load => .next (endLoad (targetAnswer s) s)
    | .store => .next (endStore (landStore s))

/-- The state with the instruction of bits `w` (`nbits` of them, the rest 0) stored where the next step fetches it: the
word that `pc` addresses. It stands for the load of a program image (70_reset_and_hazards.md R386; log 18). -/
def State.withFetchWord (s : State) (nbits w : Nat) : State :=
  placeFetchWord (BitVec.ofNat 32 (w % 2 ^ nbits)) s

end Sys2Proof.Machine
end

