-- ==== Sys2Proof/Machine/TraceOutputs.lean ====
section
/-! DEFINITION. The trace outputs (60_exceptions.md R366): combinational functions of the registers they name. -/

namespace Sys2Proof.Machine

/-- The `dbg_*` outputs. -/
structure TraceOutputs where
  dbgPc     : Word
  dbgState  : BitVec 3
  dbgWrIdx  : RegIdx
  dbgWrVal  : Word
  dbgFields : DecodedFields
deriving DecidableEq, Repr

/-- The encoding of `dbg_state`: READ_PC = 0 to STORE = 4 (R366). -/
def stateCode : Fsm → BitVec 3
  | .readPc => 0
  | .loadPc => 1
  | .decode => 2
  | .load => 3
  | .store => 4

/-- The encoding of `ld_width`: BYTE = 00, HALF = 01, WORD = 10 (10_state.md R46). -/
def widthCode : Width → BitVec 2
  | .byte => 0b00
  | .half => 0b01
  | .word => 0b10

/-- R366. The decoded fields are those of `ir` in every state (40_controller.md R187; 10_state.md R51). -/
def traceOutputs (s : State) : TraceOutputs :=
  { dbgPc := s.pc, dbgState := stateCode s.fsm, dbgWrIdx := s.lastWrIdx, dbgWrVal := s.lastWrVal,
    dbgFields := decodeFields s.ir }

end Sys2Proof.Machine
end

