-- ==== Sys2Proof/Machine/Checked.lean ====
section
/-! DEFINITION. The spec's one model fault, FAULT_UNINIT_READ (10_state.md R33; 60_exceptions.md R367), as a verdict on a
Step: an operand register has had no completed write since reset, so the spec gives the run no final state (93 U1). The
machine does not stop: `step` computes with the value the register holds (log 1), and its own `Fault` is empty. -/

namespace Sys2Proof.Machine

/-- The spec's model faults: one kind (R367). -/
inductive ModelFault where
  /-- FAULT_UNINIT_READ(i): an instruction uses register `i ≠ 0` as an operand, and `i` has had no completed write since
  reset. Given by `execChecked`, `stepChecked` and `specStep`; the hardware has no such fault. Safe: a run judged so proves
  nothing. -/
  | uninitRead (i : RegIdx)
deriving DecidableEq, Repr

/-- What the spec's Step says of one Step of the machine. -/
inductive CheckedOutcome where
  /-- Every operand is written: the Step is what the machine does. -/
  | machine (o : Result)
  /-- The model fault, in place of the machine's answer. -/
  | modelFault (f : ModelFault)
deriving Repr

/-- The "reads" column of R180, in the order a fault names them: `rs1` before `rs2` (60_exceptions.md R355). -/
def operandRegs : Instr → List RegIdx
  | .addi _ rs1 _ => [rs1]
  | .slti _ rs1 _ => [rs1]
  | .sltiu _ rs1 _ => [rs1]
  | .xori _ rs1 _ => [rs1]
  | .ori _ rs1 _ => [rs1]
  | .andi _ rs1 _ => [rs1]
  | .slli _ rs1 _ => [rs1]
  | .srli _ rs1 _ => [rs1]
  | .srai _ rs1 _ => [rs1]
  | .add _ rs1 rs2 => [rs1, rs2]
  | .sub _ rs1 rs2 => [rs1, rs2]
  | .sll _ rs1 rs2 => [rs1, rs2]
  | .slt _ rs1 rs2 => [rs1, rs2]
  | .sltu _ rs1 rs2 => [rs1, rs2]
  | .xor _ rs1 rs2 => [rs1, rs2]
  | .srl _ rs1 rs2 => [rs1, rs2]
  | .sra _ rs1 rs2 => [rs1, rs2]
  | .or _ rs1 rs2 => [rs1, rs2]
  | .and _ rs1 rs2 => [rs1, rs2]
  | .lui _ _ => []
  | .auipc _ _ => []
  | .jal _ _ => []
  | .jalr _ rs1 _ => [rs1]
  | .beq rs1 rs2 _ => [rs1, rs2]
  | .bne rs1 rs2 _ => [rs1, rs2]
  | .blt rs1 rs2 _ => [rs1, rs2]
  | .bge rs1 rs2 _ => [rs1, rs2]
  | .bltu rs1 rs2 _ => [rs1, rs2]
  | .bgeu rs1 rs2 _ => [rs1, rs2]
  | .lb _ rs1 _ => [rs1]
  | .lh _ rs1 _ => [rs1]
  | .lw _ rs1 _ => [rs1]
  | .lbu _ rs1 _ => [rs1]
  | .lhu _ rs1 _ => [rs1]
  | .sb rs1 rs2 _ => [rs1, rs2]
  | .sh rs1 rs2 _ => [rs1, rs2]
  | .sw rs1 rs2 _ => [rs1, rs2]
  | .miscMem _ _ _ _ => []
  | .system _ => []

/-- The first operand register of the instruction that is unwritten, if one is. -/
def uninitOperand (i : Instr) (s : State) : Option RegIdx :=
  (operandRegs i).find? (fun r => !isWritten s r)

/-- The instruction's meaning with the model fault of R33. -/
def execChecked (i : Instr) (s : State) : CheckedOutcome :=
  match uninitOperand i s with
  | some r => .modelFault (.uninitRead r)
  | none => .machine (exec i s)

/-- The instruction the next step is about to decode and execute, if the word is one. -/
def nextInstr (s : State) : Option Instr :=
  match s.fsm with
  | .readPc => instrOf (decodeWord (fetch s).ir)
  | .loadPc => instrOf (decodeWord (targetAnswer s))
  | .decode => instrOf (decodeWord s.ir)
  | .load => none
  | .store => none

/-- The Step with the model fault of R33: a refusal comes first, then the fault, then the instruction (R355). -/
def stepChecked (s : State) : CheckedOutcome :=
  if s.refusalMark then .machine (step s)
  else
    match (nextInstr s).bind (fun i => uninitOperand i s) with
    | some r => .modelFault (.uninitRead r)
    | none => .machine (step s)

end Sys2Proof.Machine
end

