-- ==== Sys2Proof/Machine/Controller.lean ====
section
/-! DEFINITION. The core as a clocked machine: the controller FSM and datapath at the level of one rising edge of `clk_i`
(40_controller.md R170 to R178), on the decoder block's outputs, and the same with the reference target attached. It is
written from R171 and R180 to R183, apart from the instructions' meanings: that it refines the Step (R179) is a statement. -/

namespace Sys2Proof.Machine

/-- What the core samples at a rising edge: `rst_i`, `ack_i`, `dat_i` (20_memory.md R71, R72; 70_reset_and_hazards.md
R380). An arbitrary target is an arbitrary sequence of these. -/
structure BusIn where
  rst : Bool
  ack : Bool
  dat : Word
deriving DecidableEq, Repr

/-- The ALU operation of an OP-IMM word (R180; 30_encoding.md R141): shift right by `uimm_I[10]`. -/
def opImmAlu (d : DecodedFields) : AluOp :=
  match d.funct3 with
  | 0b000#3 => .add
  | 0b001#3 => .sll
  | 0b010#3 => .slt
  | 0b011#3 => .sltu
  | 0b100#3 => .xor
  | 0b101#3 => if d.uimm.getLsbD 10 then .sra else .srl
  | 0b110#3 => .or
  | _ => .and

/-- The second ALU operand of an OP-IMM word (41_integer_immediate.md R200): `imm` for ADDI, SLTI and SLTIU, `uimm` for
the shifts, and the one P_LOGIC_IMM names for XORI, ORI and ANDI. -/
def opImmOperand (p : Params) (d : DecodedFields) : Word :=
  match d.funct3 with
  | 0b000#3 => d.imm
  | 0b010#3 => d.imm
  | 0b011#3 => d.imm
  | 0b001#3 => d.uimm
  | 0b101#3 => d.uimm
  | _ =>
    match p.logicImm with
    | .uimm => d.uimm
    | .simm => d.imm

/-- Whether an OP-IMM word records IMM_SIGN: SLTIU, XORI, ORI or ANDI with `instr[31] = 1` (R200). -/
def opImmSignGap (d : DecodedFields) : Bool :=
  match d.funct3 with
  | 0b011#3 => d.imm.msb
  | 0b100#3 => d.imm.msb
  | 0b110#3 => d.imm.msb
  | 0b111#3 => d.imm.msb
  | _ => false

/-- The ALU operation of an OP word: `funct7[5]` tells ADD from SUB and SRL from SRA (42_integer_register.md R230). -/
def opAlu (d : DecodedFields) : AluOp :=
  match d.funct3 with
  | 0b000#3 => if d.funct7.getLsbD 5 then .sub else .add
  | 0b001#3 => .sll
  | 0b010#3 => .slt
  | 0b011#3 => .sltu
  | 0b100#3 => .xor
  | 0b101#3 => if d.funct7.getLsbD 5 then .sra else .srl
  | 0b110#3 => .or
  | _ => .and

/-- The comparator's relation by `funct3` (R182). -/
def relationOf (funct3 : BitVec 3) : Relation :=
  match funct3 with
  | 0b000#3 => .eq
  | 0b001#3 => .ne
  | 0b100#3 => .lt
  | 0b101#3 => .ge
  | 0b110#3 => .ltu
  | _ => .geu

/-- `ld_width` from `funct3` (30_encoding.md R144). -/
def widthOf (funct3 : BitVec 3) : Width :=
  match funct3 with
  | 0b000#3 => .byte
  | 0b100#3 => .byte
  | 0b001#3 => .half
  | 0b101#3 => .half
  | _ => .word

/-- `ld_signed` from `funct3`: 1 for LB and LH (10_state.md R46). -/
def signedOf (funct3 : BitVec 3) : Bool :=
  match funct3 with
  | 0b000#3 => true
  | 0b001#3 => true
  | _ => false

/-- DECODE's edge (R171): the decoder, the register ports A = `x[rs1]` and B = `x[rs2]` (10_state.md R36), the ALU, the
comparator and the address adder, all on the state before the edge (R174, R177). A non-canonical word has no row: the
refusal mark is set and nothing else changes (R184). -/
def decodeEdge (s : State) : State :=
  let d := decodeFields s.ir
  let a := readReg s (rs1Of s.ir)
  let b := readReg s (rs2Of s.ir)
  match nonCanonicalOf s.ir with
  | some _ => { s with refusalMark := true }
  | none =>
    match classOf d.opcode with
    | some .opImm =>
      writeResult d.dest (alu (opImmAlu d) a (opImmOperand s.params d)) (recordGapIf (opImmSignGap d) .immSign s)
    | some .op => writeResult d.dest (alu (opAlu d) a b) s
    | some .lui => writeResult d.dest (alu .pass 0 d.imm) s
    | some .auipc => writeResult d.dest (alu .add s.pc d.imm) s
    | some .jal => jumpTo (alu .add s.pc d.imm) (writeReg d.dest (alu .add s.pc 4) s)
    | some .jalr => jumpTo (alu .add a d.imm) (writeReg d.dest (alu .add s.pc 4) s)
    | some .branch => if cmp (relationOf d.funct3) a b then jumpTo (alu .add s.pc d.imm) s else advance s
    | some .load => beginLoad d.dest (widthOf d.funct3) (signedOf d.funct3) (alu .add a d.imm) s
    | some .store => beginStore (d.funct3 == 0b000 || d.funct3 == 0b001) (alu .add a d.imm) b s
    | some .miscMem => advance (recordGap .miscMem s)
    | some .system => advance (recordGap .system s)
    | none => advance (recordGap .unrecognizedOpcode s)

/-- A rising edge with `rst_i = 1` (70_reset_and_hazards.md R380 to R383): the reset values, whatever the core was doing.
The register file is neither cleared nor written, and its registers count as unwritten; memory is the target's. -/
def resetEdge (s : State) : State :=
  { State.resetWith s.params with xs := s.xs, mem := s.mem, freeIdx := s.freeIdx }

/-- One rising edge of `clk_i`: the transition table R171. A wait state does nothing but sample `ack_i` (20_memory.md R78);
elsewhere `ack_i` is ignored (R79). A refused machine has stopped (R184). -/
def clock (b : BusIn) (s : State) : State :=
  if b.rst then resetEdge s
  else if s.refusalMark then s
  else
    match s.fsm with
    | .readPc => beginFetch s
    | .loadPc => if b.ack then endFetch b.dat s else s
    | .decode => decodeEdge s
    | .load => if b.ack then endLoad b.dat s else s
    | .store => if b.ack then endStore s else s

/-- A run of rising edges, one for each listed input. -/
def clocks : List BusIn → State → State
  | [], s => s
  | b :: bs, s => clocks bs (clock b s)

/-- What the environment of the core with its reference target chooses at an edge: the reset input, whether the target
acknowledges now, and, for a store that reset abandons, whether the target had already performed it (R383, D28). -/
structure EnvIn where
  rst : Bool
  ack : Bool
  abandonedLands : Bool
deriving DecidableEq, Repr

/-- Whether the reference target performs the pending write at this edge. -/
def writeLands (e : EnvIn) (s : State) : Bool :=
  s.fsm == .store && !s.refusalMark && (if e.rst then e.abandonedLands else e.ack)

/-- One rising edge of the core with the reference target attached (20_memory.md R88). -/
def tick (e : EnvIn) (s : State) : State :=
  let t := clock { rst := e.rst, ack := e.ack, dat := targetAnswer s } s
  if writeLands e s then { t with mem := targetWrite s.mem s.adrO s.datO } else t

/-- Edges with no reset, one for each listed value of `ack_i`. -/
def ticks : List Bool → State → State
  | [], s => s
  | a :: as, s => ticks as (tick { rst := false, ack := a, abandonedLands := false } s)

end Sys2Proof.Machine
end

