-- ==== Sys2Proof/Machine/Target.lean ====
section
/-! DEFINITION. The Step under an arbitrary bus target: the parameter TARGET (20_memory.md R85; 00_scope.md R8), an oracle
over the transaction trace and the pending request. The oracle is an argument, never a field of State. `specStep` is the
whole Step of 40_controller.md R179, with its hangs, refusal and model fault; `stepUnder` is the hardware's, which has no
fault. -/

namespace Sys2Proof.Machine

/-- The pending request, as the target sees it (R73). A read carries no write data the target may use (R80). -/
structure Request where
  adr   : Word
  we    : Bool
  wdata : Option Word
deriving DecidableEq, Repr

/-- The request on the bus outputs. -/
def pendingRequest (s : State) : Request :=
  { adr := s.adrO, we := s.weO, wdata := if s.weO then some s.datO else none }

/-- TARGET: given the trace so far and the request, the word returned with the acknowledge, or `none` if it never
acknowledges. A write's word is ignored (R75). The delay is left out: nothing depends on it (R395). -/
abbrev Target := List Transaction → Request → Option Word

/-- How a Step under a target ends. -/
inductive TargetOutcome where
  /-- The next instruction boundary. -/
  | next (s : State)
  /-- The core waits forever in this state: a hang (60_exceptions.md R368; R84). -/
  | hang (s : State)
  /-- The word is non-canonical; the state has the refusal mark set (40_controller.md R184). -/
  | refused (s : State)
  /-- The spec's model fault of an unwritten operand, with the state after the fetch: nothing of the instruction is performed
  (10_state.md R33; 60_exceptions.md R355 item 3, R367). Only `specStep`, the spec's judgement, ends so; the hardware goes
  on as `stepUnder` says. -/
  | modelFault (f : ModelFault) (s : State)
deriving DecidableEq, Repr

/-- The acknowledge edge of the data transaction a load or store is waiting for. -/
def endData (r : Word) (s : State) : State := if s.fsm = .load then endLoad r s else endStore s

/-- The Fetch of a Step under a target, and then what `k` does from DECODE. A hang of the Fetch comes first, and nothing
else happens (R355 item 1). No Step is taken from a state whose refusal mark is set (R179). -/
def fetchUnder (target : Target) (k : State → TargetOutcome) (s : State) : TargetOutcome :=
  if s.refusalMark then .refused s
  else
    match target (beginFetch s).trace (pendingRequest (beginFetch s)) with
    | none => .hang (beginFetch s)
    | some w => k (endFetch w (beginFetch s))

/-- The end of a Step after DECODE's edge: a refusal, the next boundary, or the data transaction, whose hang comes last
(R355 item 5). -/
def finishUnder (target : Target) (s : State) : TargetOutcome :=
  if s.refusalMark then .refused s
  else if s.fsm = .readPc then .next s
  else
    match target s.trace (pendingRequest s) with
    | none => .hang s
    | some r => .next (endData r s)

/-- One Step of the hardware from READ_PC under a target: fetch, decode, at most one data transaction; an unwritten register
reads as what it holds (60_exceptions.md R367; log 1). The target's memory is its own; the core's state here never
changes `mem`. -/
def stepUnder (target : Target) (s : State) : TargetOutcome :=
  fetchUnder target (fun u => finishUnder target (decodeEdge u)) s

/-- The spec's Step from DECODE on: the refusal, then the fault for the first unwritten operand, then the instruction
(R179; R355 items 2 to 5). -/
def executeSpec (target : Target) (s : State) : TargetOutcome :=
  match decodeWord s.ir with
  | .nonCanonical _ => .refused { s with refusalMark := true }
  | .unrecognized => finishUnder target (decodeEdge s)
  | .instr i =>
    match uninitOperand i s with
    | some r => .modelFault (.uninitRead r) s
    | none => finishUnder target (decodeEdge s)

/-- The Step of R179, whole: any target, hangs, the refusal and FAULT_UNINIT_READ, in R355's order. -/
def specStep (target : Target) (s : State) : TargetOutcome := fetchUnder target (executeSpec target) s

/-- The memory after the stores of a trace, oldest first, from memory `m` (R88). -/
def replay (m : Memory) : List Transaction → Memory
  | [] => m
  | t :: ts =>
    match t.we, t.wdata with
    | true, some d => replay (targetWrite m t.adr d) ts
    | _, _ => replay m ts

/-- The reference target of R88 as an oracle: it holds `m` at boot and answers every request. -/
def referenceTarget (m : Memory) : Target :=
  fun trace r => some (targetRead (replay m trace) r.adr)

end Sys2Proof.Machine
end

