-- ==== Sys2Proof/Machine/Run.lean ====
section
/-! DEFINITION. The architectural state, runs of the spec's Step under a target, and the end of a run (40_controller.md R179;
20_memory.md R84; 70_reset_and_hazards.md R395, R396). Time is no part of any of them. -/

namespace Sys2Proof.Machine

/-- The architectural state (R179): what a final state is compared by. Memory is the target's: under the reference target
it is the boot memory with the trace's stores replayed. -/
structure ArchState where
  pc          : Word
  /-- `x1` .. `x31`, each holding a value or unwritten; slot `k` is `x(k+1)`. -/
  regs        : Vector (Option Word) 31
  gaps        : GapRecord
  refusalMark : Bool
  trace       : List Transaction
deriving DecidableEq, Repr

/-- `x[i]` as R179 has it: a value, or unwritten (10_state.md R33). -/
def regContent (s : State) (i : RegIdx) : Option Word := if isWritten s i then some (readReg s i) else none

/-- The architectural part of a state. -/
def archState (s : State) : ArchState :=
  { pc := s.pc
    regs := Vector.ofFn (fun k => regContent s (BitVec.ofNat 5 (k.val + 1)))
    gaps := s.gaps
    refusalMark := s.refusalMark
    trace := s.trace }

/-- TARGET_ACKS (R84; 92_eei_decisions.md D31): the premise that every request is eventually acknowledged. -/
abbrev TargetAcks (target : Target) : Prop := ∀ (trace : List Transaction) (r : Request), (target trace r).isSome = true

/-- The word a Fetch at `pc` would return; `none` if it would hang. -/
def fetchAnswer (target : Target) (s : State) : Option Word :=
  target s.trace { adr := s.pc, we := false, wdata := none }

/-- A run of the spec's Step under a target ends at this state (R396): an instruction boundary, no refusal mark, and the
word fetched at `pc` is `jal x0, 0`. That no fault has been reached is in the run: a Step that faults has no next state. -/
def endOfRun (target : Target) (s : State) : Bool :=
  s.fsm == .readPc && !s.refusalMark && fetchAnswer target s == some 0x0000006F

/-- `n` Steps under a target, stopping at the first hang, refusal or fault. -/
def runUnder (target : Target) : Nat → State → TargetOutcome
  | 0, s => .next s
  | n + 1, s =>
    match specStep target s with
    | .next t => runUnder target n t
    | .hang t => .hang t
    | .refused t => .refused t
    | .modelFault f t => .modelFault f t

/-- The final state of the run from `s` if the run ends after exactly `n` Steps: the first boundary that meets R396. A run
that hangs, is refused or faults first has none. -/
def finalAfter (target : Target) : Nat → State → Option State
  | 0, s => if endOfRun target s then some s else none
  | n + 1, s =>
    if endOfRun target s then none
    else
      match specStep target s with
      | .next t => finalAfter target n t
      | .hang _ => none
      | .refused _ => none
      | .modelFault _ _ => none

/-- The run from `s` ends (R396). A claim of this takes TARGET_ACKS and a target that returns the program's words. -/
def RunEnds (target : Target) (s : State) : Prop := ∃ n t, finalAfter target n s = some t

end Sys2Proof.Machine
end

