-- ==== Sys2Proof/Safety.lean ====
section
/-! DEFINITION. What claims speak of: the end of a run, a run that met no gap, the invariants of the machine, what an
instruction changes and what it leaves unchanged, and schedules of the clocked machine. -/

namespace Sys2Proof.Machine

/-- An instruction boundary: the core is about to fetch (70_reset_and_hazards.md R392). -/
abbrev atBoundary (s : State) : Prop := s.fsm = .readPc

/-- R396's conditions on one state, under the reference target with memory `s.mem`: an instruction boundary, no refusal mark,
and the word fetched at `pc` is `jal x0, 0`. Under any target it is `endOfRun`, and the run itself, which has reached no
fault, is `finalAfter` (Machine/Run.lean). -/
abbrev atEndOfRun (s : State) : Prop :=
  atBoundary s ∧ s.refusalMark = false ∧ targetRead s.mem s.pc = 0x0000006F

/-- No gap kind is recorded (60_exceptions.md R352): no unimplemented or decided behaviour has been met. -/
abbrev noGap (s : State) : Prop := s.gaps = GapRecord.empty

/-- A wait state (40_controller.md R170, R186): the core holds a request and waits for the acknowledge. -/
def Fsm.waits : Fsm → Bool
  | .readPc => false
  | .loadPc => true
  | .decode => false
  | .load => true
  | .store => true

/-- The handshake (20_memory.md R73, R76, R77): `cyc_o` and `stb_o` are 1 together, exactly in the wait states; a fetch or
load request is a read, a fetch request is at `pc`, and a store request is a write. -/
abbrev busInv (s : State) : Prop :=
  s.cycO = s.fsm.waits ∧ s.stbO = s.fsm.waits ∧
  (s.fsm = .loadPc → s.weO = false ∧ s.adrO = s.pc) ∧
  (s.fsm = .load → s.weO = false) ∧
  (s.fsm = .store → s.weO = true)

/-- The memory keeps its canonical form. -/
abbrev memInv (s : State) : Prop := memWf s.mem = true

/-- The pc is misaligned only if MISALIGNED_TARGET is recorded (10_state.md R43), given RESET_PC a multiple of 4. -/
abbrev pcInv (s : State) : Prop :=
  s.params.wf ∧ (hasGap s.gaps .misalignedTarget = false → s.pc.toNat % 4 = 0)

/-! ## What changes and what does not -/

/-- `t` has `s`'s registers, their written bits and the trace registers of the last register write. -/
structure KeepsRegisters (s t : State) : Prop where
  reads   : ∀ r, readReg t r = readReg s r
  marks   : ∀ r, isWritten t r = isWritten s r
  lastIdx : t.lastWrIdx = s.lastWrIdx
  lastVal : t.lastWrVal = s.lastWrVal

/-- `t` has `s`'s registers but for one write of `v` to `rd`: `rd` reads `v` unless it is `x0`, which reads as before (10_state.md
R31, R32), and the trace registers take the write, `x0`'s too (R35, R50). -/
structure WritesRegister (s t : State) (rd : RegIdx) (v : Word) : Prop where
  reads   : ∀ r, readReg t r = if r = rd ∧ r ≠ 0#5 then v else readReg s r
  marks   : ∀ r, isWritten t r = (isWritten s r || decide (r = rd))
  lastIdx : t.lastWrIdx = rd
  lastVal : t.lastWrVal = v

/-- Every byte of memory reads as before. -/
abbrev KeepsMemory (s t : State) : Prop := ∀ a, byteAt t.mem a = byteAt s.mem a

/-- The bus outputs, the transaction trace, the load staging registers and the free-value counter are unchanged: no
transaction was made. -/
structure KeepsBus (s t : State) : Prop where
  cyc       : t.cycO = s.cycO
  stb       : t.stbO = s.stbO
  we        : t.weO = s.weO
  adr       : t.adrO = s.adrO
  dat       : t.datO = s.datO
  trace     : t.trace = s.trace
  ldRd      : t.ldRd = s.ldRd
  ldSigned  : t.ldSigned = s.ldSigned
  ldWidth   : t.ldWidth = s.ldWidth
  freeIdx   : t.freeIdx = s.freeIdx

/-- The parameters, the instruction register and the refusal mark are unchanged. -/
structure KeepsFixed (s t : State) : Prop where
  params : t.params = s.params
  ir     : t.ir = s.ir
  mark   : t.refusalMark = s.refusalMark

/-- The gap record gains exactly the listed kinds and loses none (60_exceptions.md R352). -/
abbrev RecordsExactly (s t : State) (new : List Gap) : Prop :=
  ∀ k, hasGap t.gaps k = (hasGap s.gaps k || decide (k ∈ new))

/-- What the spec's Step answers when the instruction reads these operands in this order and otherwise reaches `t`:
FAULT_UNINIT_READ of the first unwritten one (10_state.md R33; 60_exceptions.md R355), else `t`. -/
def checkedAnswer (s t : State) : List RegIdx → CheckedOutcome
  | [] => .machine (.next t)
  | r :: rs => if isWritten s r then checkedAnswer s t rs else .modelFault (.uninitRead r)

/-- The instruction completes: it writes `v` to `rd`, sets `pc <- pc + 4`, records the kinds in `new`, and changes nothing
else; with the spec's model fault, it reads `operands`. -/
def RegisterResult (i : Instr) (operands : List RegIdx) (s : State) (rd : RegIdx) (v : Word) (new : List Gap) : Prop :=
  ∃ t, exec i s = .next t ∧ WritesRegister s t rd v ∧ t.pc = s.pc + 4 ∧ t.fsm = .readPc ∧ RecordsExactly s t new ∧
    KeepsMemory s t ∧ KeepsBus s t ∧ KeepsFixed s t ∧ execChecked i s = checkedAnswer s t operands

/-- The instruction completes: it goes to `target` and links `pc + 4` to `rd`; MISALIGNED_TARGET is recorded exactly when
the target is not a multiple of 4; nothing else changes. -/
def JumpResult (i : Instr) (operands : List RegIdx) (s : State) (rd : RegIdx) (target : Word) : Prop :=
  ∃ t, exec i s = .next t ∧ WritesRegister s t rd (s.pc + 4) ∧ t.pc = target ∧ t.fsm = .readPc ∧
    RecordsExactly s t (if target.toNat % 4 = 0 then [] else [.misalignedTarget]) ∧
    KeepsMemory s t ∧ KeepsBus s t ∧ KeepsFixed s t ∧ execChecked i s = checkedAnswer s t operands

/-- The instruction completes: taken, it goes to `target` and records MISALIGNED_TARGET exactly when that is not a multiple
of 4; not taken, it goes to `pc + 4` and records nothing. No register, no memory, no bus. -/
def BranchResult (i : Instr) (operands : List RegIdx) (s : State) (taken : Bool) (target : Word) : Prop :=
  ∃ t, exec i s = .next t ∧ KeepsRegisters s t ∧ t.pc = (if taken then target else s.pc + 4) ∧ t.fsm = .readPc ∧
    RecordsExactly s t (if taken && target.toNat % 4 != 0 then [.misalignedTarget] else []) ∧
    KeepsMemory s t ∧ KeepsBus s t ∧ KeepsFixed s t ∧ execChecked i s = checkedAnswer s t operands

/-- The instruction completes as a no-op that records one gap kind: `pc + 4`, and nothing else changes; it reads no
operand. -/
def NoOpResult (i : Instr) (s : State) (kind : Gap) : Prop :=
  ∃ t, exec i s = .next t ∧ KeepsRegisters s t ∧ t.pc = s.pc + 4 ∧ t.fsm = .readPc ∧ RecordsExactly s t [kind] ∧
    KeepsMemory s t ∧ KeepsBus s t ∧ KeepsFixed s t ∧ execChecked i s = .machine (.next t)

/-- The load completes: one read at the unmodified `ea`, whose word is recorded in the trace, and `v` to `rd`; the staging
registers hold the load; the request is gone from the bus; DATA_OFFSET exactly when `ea` is not a multiple of 4. What
`dat_o` holds is not said: it is a free value (20_memory.md R80). -/
def LoadResult (i : Instr) (operands : List RegIdx) (s : State) (rd : RegIdx) (ea v : Word) (w : Width) (signed : Bool) : Prop :=
  ∃ t, exec i s = .next t ∧ WritesRegister s t rd v ∧ t.pc = s.pc + 4 ∧ t.fsm = .readPc ∧
    RecordsExactly s t (if ea.toNat % 4 = 0 then [] else [.dataOffset]) ∧
    t.trace = s.trace ++ [{ kind := .load, adr := ea, we := false, wdata := none, rdata := some (targetRead s.mem ea) }] ∧
    t.cycO = false ∧ t.stbO = false ∧ t.weO = false ∧ t.adrO = ea ∧
    t.ldRd = rd ∧ t.ldWidth = w ∧ t.ldSigned = signed ∧
    KeepsMemory s t ∧ KeepsFixed s t ∧ execChecked i s = checkedAnswer s t operands

/-- The store completes: one write of the whole word `d` at the unmodified `ea`; the four bytes of the word that `ea`
addresses hold `d` and every other byte reads as before; no register changes; the gaps are NARROW_STORE for SB and SH and
DATA_OFFSET when `ea` is not a multiple of 4. -/
def StoreResult (i : Instr) (operands : List RegIdx) (s : State) (ea d : Word) (narrow : Bool) : Prop :=
  ∃ t, exec i s = .next t ∧ KeepsRegisters s t ∧ t.pc = s.pc + 4 ∧ t.fsm = .readPc ∧
    RecordsExactly s t ((if narrow then [.narrowStore] else []) ++ (if ea.toNat % 4 = 0 then [] else [.dataOffset])) ∧
    t.trace = s.trace ++ [{ kind := .store, adr := ea, we := true, wdata := some d, rdata := none }] ∧
    t.cycO = false ∧ t.stbO = false ∧ t.weO = true ∧ t.adrO = ea ∧ t.datO = d ∧
    t.ldRd = s.ldRd ∧ t.ldWidth = s.ldWidth ∧ t.ldSigned = s.ldSigned ∧ t.freeIdx = s.freeIdx ∧
    targetRead t.mem ea = d ∧
    (∀ a, a < wordBase ea ∨ wordBase ea + 4 ≤ a → byteAt t.mem a = byteAt s.mem a) ∧
    KeepsFixed s t ∧ execChecked i s = checkedAnswer s t operands

/-- The trace record of a fetch (20_memory.md R83). -/
def fetchRecord (adr w : Word) : Transaction := { kind := .fetch, adr := adr, we := false, wdata := none, rdata := some w }

/-! ## Kinds of instruction, for whole-machine rules -/

/-- A load (R301 to R305). -/
def isLoad : Instr → Bool
  | .lb _ _ _ => true
  | .lh _ _ _ => true
  | .lw _ _ _ => true
  | .lbu _ _ _ => true
  | .lhu _ _ _ => true
  | _ => false

/-- A store (R307 to R309). -/
def isStore : Instr → Bool
  | .sb _ _ _ => true
  | .sh _ _ _ => true
  | .sw _ _ _ => true
  | _ => false

/-- The effective address of a load or store (45_load_store.md R310). -/
def dataAddress (s : State) : Instr → Option Word
  | .lb _ rs1 imm => some (effectiveAddress (readReg s rs1) imm)
  | .lh _ rs1 imm => some (effectiveAddress (readReg s rs1) imm)
  | .lw _ rs1 imm => some (effectiveAddress (readReg s rs1) imm)
  | .lbu _ rs1 imm => some (effectiveAddress (readReg s rs1) imm)
  | .lhu _ rs1 imm => some (effectiveAddress (readReg s rs1) imm)
  | .sb rs1 _ imm => some (effectiveAddress (readReg s rs1) imm)
  | .sh rs1 _ imm => some (effectiveAddress (readReg s rs1) imm)
  | .sw rs1 _ imm => some (effectiveAddress (readReg s rs1) imm)
  | _ => none

/-- The general register the instruction writes, R37's list; `none` for branches, stores, MISC-MEM and SYSTEM. -/
def destination : Instr → Option RegIdx
  | .beq _ _ _ => none
  | .bne _ _ _ => none
  | .blt _ _ _ => none
  | .bge _ _ _ => none
  | .bltu _ _ _ => none
  | .bgeu _ _ _ => none
  | .sb _ _ _ => none
  | .sh _ _ _ => none
  | .sw _ _ _ => none
  | .miscMem _ _ _ _ => none
  | .system _ => none
  | .addi rd _ _ => some rd
  | .slti rd _ _ => some rd
  | .sltiu rd _ _ => some rd
  | .xori rd _ _ => some rd
  | .ori rd _ _ => some rd
  | .andi rd _ _ => some rd
  | .slli rd _ _ => some rd
  | .srli rd _ _ => some rd
  | .srai rd _ _ => some rd
  | .add rd _ _ => some rd
  | .sub rd _ _ => some rd
  | .sll rd _ _ => some rd
  | .slt rd _ _ => some rd
  | .sltu rd _ _ => some rd
  | .xor rd _ _ => some rd
  | .srl rd _ _ => some rd
  | .sra rd _ _ => some rd
  | .or rd _ _ => some rd
  | .and rd _ _ => some rd
  | .lui rd _ => some rd
  | .auipc rd _ => some rd
  | .jal rd _ => some rd
  | .jalr rd _ _ => some rd
  | .lb rd _ _ => some rd
  | .lh rd _ _ => some rd
  | .lw rd _ _ => some rd
  | .lbu rd _ _ => some rd
  | .lhu rd _ _ => some rd

/-- Whether the instruction transfers control in this state: JAL, JALR, or a branch whose relation holds. -/
def transfers (s : State) : Instr → Bool
  | .jal _ _ => true
  | .jalr _ _ _ => true
  | .beq rs1 rs2 _ => cmp .eq (readReg s rs1) (readReg s rs2)
  | .bne rs1 rs2 _ => cmp .ne (readReg s rs1) (readReg s rs2)
  | .blt rs1 rs2 _ => cmp .lt (readReg s rs1) (readReg s rs2)
  | .bge rs1 rs2 _ => cmp .ge (readReg s rs1) (readReg s rs2)
  | .bltu rs1 rs2 _ => cmp .ltu (readReg s rs1) (readReg s rs2)
  | .bgeu rs1 rs2 _ => cmp .geu (readReg s rs1) (readReg s rs2)
  | _ => false

/-- The data of a store, `x[rs2]` (R306). -/
def storeData (s : State) : Instr → Option Word
  | .sb _ rs2 _ => some (readReg s rs2)
  | .sh _ rs2 _ => some (readReg s rs2)
  | .sw _ rs2 _ => some (readReg s rs2)
  | _ => none

/-- The next pc, the rule R183 written out on integers and naturals. -/
def nextPc (s : State) : Instr → Word
  | .jal _ off => s.pc + BitVec.ofInt 32 off.toInt
  | .jalr _ rs1 imm => readReg s rs1 + BitVec.ofInt 32 imm.toInt
  | .beq rs1 rs2 off => if readReg s rs1 = readReg s rs2 then s.pc + BitVec.ofInt 32 off.toInt else s.pc + 4
  | .bne rs1 rs2 off => if readReg s rs1 ≠ readReg s rs2 then s.pc + BitVec.ofInt 32 off.toInt else s.pc + 4
  | .blt rs1 rs2 off =>
    if (readReg s rs1).toInt < (readReg s rs2).toInt then s.pc + BitVec.ofInt 32 off.toInt else s.pc + 4
  | .bge rs1 rs2 off =>
    if (readReg s rs2).toInt ≤ (readReg s rs1).toInt then s.pc + BitVec.ofInt 32 off.toInt else s.pc + 4
  | .bltu rs1 rs2 off =>
    if (readReg s rs1).toNat < (readReg s rs2).toNat then s.pc + BitVec.ofInt 32 off.toInt else s.pc + 4
  | .bgeu rs1 rs2 off =>
    if (readReg s rs2).toNat ≤ (readReg s rs1).toNat then s.pc + BitVec.ofInt 32 off.toInt else s.pc + 4
  | _ => s.pc + 4

/-- The condition of each gap kind for an instruction that goes from `s` to `t`: the table R353. -/
def gapCondition (i : Instr) (s t : State) : Gap → Bool
  | .unrecognizedOpcode => false
  | .miscMem => match i with | .miscMem _ _ _ _ => true | _ => false
  | .system => match i with | .system _ => true | _ => false
  | .misalignedTarget => transfers s i && t.pc.toNat % 4 != 0
  | .dataOffset => match dataAddress s i with | some ea => ea.toNat % 4 != 0 | none => false
  | .narrowStore => match i with | .sb _ _ _ => true | .sh _ _ _ => true | _ => false
  | .immSign =>
    match i with
    | .sltiu _ _ imm => imm.msb
    | .xori _ _ imm => imm.msb
    | .ori _ _ imm => imm.msb
    | .andi _ _ imm => imm.msb
    | _ => false

/-- Whether a decoded word makes a data transaction (20_memory.md R81). -/
def accessesData : Decoded → Bool
  | .instr i => isLoad i || isStore i
  | .unrecognized => false
  | .nonCanonical _ => false

/-! ## Schedules of the clocked machine -/

/-- The acknowledges of one instruction whose fetch waits `lf` cycles and whose data transaction, if it has one, waits `ld`:
READ_PC, LOAD_PC × (lf+1), DECODE, and LOAD or STORE × (ld+1) (70_reset_and_hazards.md R393). -/
def schedule (lf ld : Nat) (data : Bool) : List Bool :=
  [false] ++ List.replicate lf false ++ [true, false] ++ (if data then List.replicate ld false ++ [true] else [])

/-- The inputs of READ_PC, LOAD_PC and DECODE under any target: `waits` are the words on `dat_i` while the fetch is not
acknowledged, `w` the word it returns; `ack_i` and `dat_i` in READ_PC and DECODE are arbitrary (20_memory.md R75, R79). -/
def fetchInputs (readPc decode : Bool × Word) (waits : List Word) (w : Word) : List BusIn :=
  [{ rst := false, ack := readPc.1, dat := readPc.2 }] ++
    waits.map (fun j => { rst := false, ack := false, dat := j }) ++
    [{ rst := false, ack := true, dat := w }, { rst := false, ack := decode.1, dat := decode.2 }]

/-- The inputs of LOAD or STORE: the words on `dat_i` while not acknowledged, and the word with the acknowledge. -/
def dataInputs (waits : List Word) (r : Word) : List BusIn :=
  waits.map (fun j => { rst := false, ack := false, dat := j }) ++ [{ rst := false, ack := true, dat := r }]

end Sys2Proof.Machine
end

