-- ==== Sys2Proof/Certificates/Slice0/Obligations.lean ====
section
/-! DEFINITION. The statements for the provers, in the order of OBLIGATIONS.json. Each docstring says which rules of spec/ it
formalises; values are written out as the rule gives them (integers and naturals where the rule speaks of numbers), not
through the model's own ALU. No statement rests on the value of a free value or of a register at reset. -/

open Sys2Proof Sys2Proof.Machine

/-! ## Encoding and the decoder block -/

/-- Every well-formed instruction, at every value of its operands, is what the decoder reads from its encoding
(30_encoding.md R126 to R131, R141 to R146). -/
def Obligations.DecodeReadsBackEveryEncoding : Prop :=
  ∀ i : Instr, i.wellFormed = true → decodeWord (encode i) = .instr i

/-- Every word that is an instruction is that instruction's encoding: no bit of a word is dropped and no two instructions
share a word. -/
def Obligations.EncodeWritesBackEveryDecoding : Prop :=
  ∀ (w : Word) (i : Instr), decodeWord w = .instr i → encode i = w ∧ i.wellFormed = true

/-- Words the spec writes out (95_test_vectors.md section 2 and the rules' examples) are the instructions it says. -/
def Obligations.SpecWordsDecode : Prop :=
  decodeWord 0xFFF10093 = .instr (.addi 1 2 0xFFF) ∧ decodeWord 0x41F35293 = .instr (.srai 5 6 31) ∧
  decodeWord 0x41DF0FB3 = .instr (.sub 31 30 29) ∧ decodeWord 0xFFFFF3B7 = .instr (.lui 7 0xFFFFF) ∧
  decodeWord 0x7FFFF06F = .instr (.jal 0 0x0FFFFE) ∧ decodeWord 0x7FF280E7 = .instr (.jalr 1 5 0x7FF) ∧
  decodeWord 0x7E41FFE3 = .instr (.bgeu 3 4 0x0FFE) ∧ decodeWord 0xFFC0A183 = .instr (.lw 3 1 0xFFC) ∧
  decodeWord 0x8020A023 = .instr (.sw 1 2 0x800) ∧ decodeWord 0x0FF0000F = .instr (.miscMem 0 0 0 0x0FF) ∧
  decodeWord 0x00000073 = .instr (.system 0) ∧ decodeWord 0x0021A0AF = .unrecognized ∧
  decodeWord 0x022081B3 = .nonCanonical .opFunct7

/-- Every row of spec/opcode_table.json (R141 to R146): a word that matches the row's mask and value is that row's
instruction, each operand the slice that R126 to R131 and R138 give it. The selector values are the standard ones (log 12). -/
def Obligations.OpcodeTableRowsDecode : Prop := ∀ w : Word,
  let rd := w.extractLsb' 7 5
  let funct3 := w.extractLsb' 12 3
  let rs1 := w.extractLsb' 15 5
  let rs2 := w.extractLsb' 20 5
  let rest := w.extractLsb' 7 25
  let immI := w.extractLsb' 20 12
  let immS := w.extractLsb' 25 7 ++ w.extractLsb' 7 5
  let immB := w.extractLsb' 31 1 ++ w.extractLsb' 7 1 ++ w.extractLsb' 25 6 ++ w.extractLsb' 8 4 ++ 0#1
  let immU := w.extractLsb' 12 20
  let immJ := w.extractLsb' 31 1 ++ w.extractLsb' 12 8 ++ w.extractLsb' 20 1 ++ w.extractLsb' 21 10 ++ 0#1
  (w &&& 0x707F = 0x13 → decodeWord w = .instr (.addi rd rs1 immI)) ∧
  (w &&& 0x707F = 0x2013 → decodeWord w = .instr (.slti rd rs1 immI)) ∧
  (w &&& 0x707F = 0x3013 → decodeWord w = .instr (.sltiu rd rs1 immI)) ∧
  (w &&& 0x707F = 0x4013 → decodeWord w = .instr (.xori rd rs1 immI)) ∧
  (w &&& 0x707F = 0x6013 → decodeWord w = .instr (.ori rd rs1 immI)) ∧
  (w &&& 0x707F = 0x7013 → decodeWord w = .instr (.andi rd rs1 immI)) ∧
  (w &&& 0xFE00707F = 0x1013 → decodeWord w = .instr (.slli rd rs1 rs2)) ∧
  (w &&& 0xFE00707F = 0x5013 → decodeWord w = .instr (.srli rd rs1 rs2)) ∧
  (w &&& 0xFE00707F = 0x40005013 → decodeWord w = .instr (.srai rd rs1 rs2)) ∧
  (w &&& 0xFE00707F = 0x33 → decodeWord w = .instr (.add rd rs1 rs2)) ∧
  (w &&& 0xFE00707F = 0x40000033 → decodeWord w = .instr (.sub rd rs1 rs2)) ∧
  (w &&& 0xFE00707F = 0x1033 → decodeWord w = .instr (.sll rd rs1 rs2)) ∧
  (w &&& 0xFE00707F = 0x2033 → decodeWord w = .instr (.slt rd rs1 rs2)) ∧
  (w &&& 0xFE00707F = 0x3033 → decodeWord w = .instr (.sltu rd rs1 rs2)) ∧
  (w &&& 0xFE00707F = 0x4033 → decodeWord w = .instr (.xor rd rs1 rs2)) ∧
  (w &&& 0xFE00707F = 0x5033 → decodeWord w = .instr (.srl rd rs1 rs2)) ∧
  (w &&& 0xFE00707F = 0x40005033 → decodeWord w = .instr (.sra rd rs1 rs2)) ∧
  (w &&& 0xFE00707F = 0x6033 → decodeWord w = .instr (.or rd rs1 rs2)) ∧
  (w &&& 0xFE00707F = 0x7033 → decodeWord w = .instr (.and rd rs1 rs2)) ∧
  (w &&& 0x7F = 0x37 → decodeWord w = .instr (.lui rd immU)) ∧
  (w &&& 0x7F = 0x17 → decodeWord w = .instr (.auipc rd immU)) ∧
  (w &&& 0x7F = 0x6F → decodeWord w = .instr (.jal rd immJ)) ∧
  (w &&& 0x707F = 0x67 → decodeWord w = .instr (.jalr rd rs1 immI)) ∧
  (w &&& 0x707F = 0x63 → decodeWord w = .instr (.beq rs1 rs2 immB)) ∧
  (w &&& 0x707F = 0x1063 → decodeWord w = .instr (.bne rs1 rs2 immB)) ∧
  (w &&& 0x707F = 0x4063 → decodeWord w = .instr (.blt rs1 rs2 immB)) ∧
  (w &&& 0x707F = 0x5063 → decodeWord w = .instr (.bge rs1 rs2 immB)) ∧
  (w &&& 0x707F = 0x6063 → decodeWord w = .instr (.bltu rs1 rs2 immB)) ∧
  (w &&& 0x707F = 0x7063 → decodeWord w = .instr (.bgeu rs1 rs2 immB)) ∧
  (w &&& 0x707F = 0x3 → decodeWord w = .instr (.lb rd rs1 immI)) ∧
  (w &&& 0x707F = 0x1003 → decodeWord w = .instr (.lh rd rs1 immI)) ∧
  (w &&& 0x707F = 0x2003 → decodeWord w = .instr (.lw rd rs1 immI)) ∧
  (w &&& 0x707F = 0x4003 → decodeWord w = .instr (.lbu rd rs1 immI)) ∧
  (w &&& 0x707F = 0x5003 → decodeWord w = .instr (.lhu rd rs1 immI)) ∧
  (w &&& 0x707F = 0x23 → decodeWord w = .instr (.sb rs1 rs2 immS)) ∧
  (w &&& 0x707F = 0x1023 → decodeWord w = .instr (.sh rs1 rs2 immS)) ∧
  (w &&& 0x707F = 0x2023 → decodeWord w = .instr (.sw rs1 rs2 immS)) ∧
  (w &&& 0x7F = 0xF → decodeWord w = .instr (.miscMem rd rs1 funct3 immI)) ∧
  (w &&& 0x7F = 0x73 → decodeWord w = .instr (.system rest))

/-- The decoder rejects exactly the words of R150's list, item by item. The opcode and selector values are the standard ones
(log 12). -/
def Obligations.DecoderRejectsExactlyTheNonCanonical : Prop :=
  ∀ w : Word, (∃ why, decodeWord w = .nonCanonical why) ↔
    (opcodeOf w = 0x13 ∧ funct3Of w = 1 ∧ funct7Of w ≠ 0) ∨
    (opcodeOf w = 0x13 ∧ funct3Of w = 5 ∧ funct7Of w ≠ 0 ∧ funct7Of w ≠ 0x20) ∨
    (opcodeOf w = 0x33 ∧ funct7Of w ≠ 0 ∧ funct7Of w ≠ 0x20) ∨
    (opcodeOf w = 0x33 ∧ funct7Of w = 0x20 ∧ funct3Of w ≠ 0 ∧ funct3Of w ≠ 5) ∨
    (opcodeOf w = 0x63 ∧ (funct3Of w = 2 ∨ funct3Of w = 3)) ∨
    (opcodeOf w = 0x03 ∧ (funct3Of w = 3 ∨ funct3Of w = 6 ∨ funct3Of w = 7)) ∨
    (opcodeOf w = 0x23 ∧ (funct3Of w = 3 ∨ funct3Of w = 4 ∨ funct3Of w = 5 ∨ funct3Of w = 6 ∨ funct3Of w = 7)) ∨
    (opcodeOf w = 0x67 ∧ funct3Of w ≠ 0)

/-- R140 and R120: the eleven recognized opcodes, the 117 others, and that a word whose low two bits are not 11 is one of the
others. The opcode values are the standard ones (log 12). -/
def Obligations.UnrecognizedOpcodesAreTheOther117 : Prop :=
  (∀ w : Word, decodeWord w = .unrecognized ↔
    opcodeOf w ∉ ([0x03, 0x0F, 0x13, 0x17, 0x23, 0x33, 0x37, 0x63, 0x67, 0x6F, 0x73] : List (BitVec 7))) ∧
  (∀ w : Word, w.extractLsb' 0 2 ≠ 0b11#2 → decodeWord w = .unrecognized) ∧
  ((List.range 128).filter (fun n => (classOf (BitVec.ofNat 7 n)).isNone)).length = 117

/-- R133: the two I-type immediates, their ranges, and how they differ by instr[31]. -/
def Obligations.ITypeImmediates : Prop :=
  ∀ w : Word, classOf (opcodeOf w) ∈ [some OpClass.opImm, some .jalr, some .load, some .miscMem] →
    (decodeFields w).imm = (w.extractLsb' 20 12).signExtend 32 ∧
    (decodeFields w).uimm = (w.extractLsb' 20 11).zeroExtend 32 ∧
    -2048 ≤ (decodeFields w).imm.toInt ∧ (decodeFields w).imm.toInt ≤ 2047 ∧ (decodeFields w).uimm.toNat ≤ 2047 ∧
    (w.getLsbD 31 = false → (decodeFields w).imm = (decodeFields w).uimm) ∧
    (w.getLsbD 31 = true → (decodeFields w).imm.toInt = (decodeFields w).uimm.toNat - 2048)

/-- R135 and R137: branch and jump offsets are even and in range, and bit 1 of each is an instruction bit, so an offset need
not be a multiple of 4. For the J type that bit is instr[21], by R137's own formula (log 23). -/
def Obligations.BranchAndJumpOffsets : Prop :=
  (∀ w : Word, classOf (opcodeOf w) = some .branch →
    (decodeFields w).imm.toInt % 2 = 0 ∧ -4096 ≤ (decodeFields w).imm.toInt ∧ (decodeFields w).imm.toInt ≤ 4094 ∧
    (decodeFields w).imm.getLsbD 1 = w.getLsbD 8) ∧
  (∀ w : Word, classOf (opcodeOf w) = some .jal →
    (decodeFields w).imm.toInt % 2 = 0 ∧ -1048576 ≤ (decodeFields w).imm.toInt ∧
    (decodeFields w).imm.toInt ≤ 1048574 ∧ (decodeFields w).imm.getLsbD 1 = w.getLsbD 21)

/-- R126 to R131: the decoder's outputs by format, the register and selector fields as digits of the word read as a number.
That the register indices and functs a format leaves unassigned are zero is the spec's decision D3 (R124; log 24). -/
def Obligations.DecoderOutputsByFormat : Prop :=
  (∀ w : Word, classOf (opcodeOf w) ∈ [some OpClass.opImm, some .jalr, some .load, some .miscMem] →
    decodeFields w =
      { opcode := BitVec.ofNat 7 w.toNat, funct3 := BitVec.ofNat 3 (w.toNat / 2 ^ 12), funct7 := 0,
        imm := (w.extractLsb' 20 12).signExtend 32, uimm := (w.extractLsb' 20 11).zeroExtend 32,
        src1 := BitVec.ofNat 5 (w.toNat / 2 ^ 15), src2 := 0, dest := BitVec.ofNat 5 (w.toNat / 2 ^ 7), base := 0 }) ∧
  (∀ w : Word, classOf (opcodeOf w) ∈ [some OpClass.lui, some .auipc] →
    decodeFields w =
      { opcode := BitVec.ofNat 7 w.toNat, funct3 := 0, funct7 := 0, imm := w &&& 0xFFFFF000, uimm := 0,
        src1 := 0, src2 := 0, dest := BitVec.ofNat 5 (w.toNat / 2 ^ 7), base := 0 }) ∧
  (∀ w : Word, classOf (opcodeOf w) = some .op →
    decodeFields w =
      { opcode := BitVec.ofNat 7 w.toNat, funct3 := BitVec.ofNat 3 (w.toNat / 2 ^ 12),
        funct7 := BitVec.ofNat 7 (w.toNat / 2 ^ 25), imm := 0, uimm := 0, src1 := BitVec.ofNat 5 (w.toNat / 2 ^ 15),
        src2 := BitVec.ofNat 5 (w.toNat / 2 ^ 20), dest := BitVec.ofNat 5 (w.toNat / 2 ^ 7), base := 0 }) ∧
  (∀ w : Word, classOf (opcodeOf w) = some .jal →
    decodeFields w =
      { opcode := BitVec.ofNat 7 w.toNat, funct3 := 0, funct7 := 0,
        imm := (w.extractLsb' 31 1 ++ w.extractLsb' 12 8 ++ w.extractLsb' 20 1 ++ w.extractLsb' 21 10 ++ 0#1).signExtend 32,
        uimm := 0, src1 := 0, src2 := 0, dest := BitVec.ofNat 5 (w.toNat / 2 ^ 7), base := 0 }) ∧
  (∀ w : Word, classOf (opcodeOf w) = some .branch →
    decodeFields w =
      { opcode := BitVec.ofNat 7 w.toNat, funct3 := BitVec.ofNat 3 (w.toNat / 2 ^ 12), funct7 := 0,
        imm := (w.extractLsb' 31 1 ++ w.extractLsb' 7 1 ++ w.extractLsb' 25 6 ++ w.extractLsb' 8 4 ++ 0#1).signExtend 32,
        uimm := 0, src1 := BitVec.ofNat 5 (w.toNat / 2 ^ 15), src2 := BitVec.ofNat 5 (w.toNat / 2 ^ 20), dest := 0,
        base := 0 }) ∧
  (∀ w : Word, classOf (opcodeOf w) = some .store →
    decodeFields w =
      { opcode := BitVec.ofNat 7 w.toNat, funct3 := BitVec.ofNat 3 (w.toNat / 2 ^ 12), funct7 := 0,
        imm := (w.extractLsb' 25 7 ++ w.extractLsb' 7 5).signExtend 32, uimm := 0,
        src1 := BitVec.ofNat 5 (w.toNat / 2 ^ 20), src2 := 0, dest := 0, base := BitVec.ofNat 5 (w.toNat / 2 ^ 15) })

/-- R132 (the spec's decision D3): SYSTEM and every unrecognized opcode decode to the opcode and zeros. -/
def Obligations.SystemAndUnrecognizedFieldsAreZero : Prop :=
  ∀ w : Word, classOf (opcodeOf w) = some .system ∨ classOf (opcodeOf w) = none →
    decodeFields w =
      { opcode := BitVec.ofNat 7 w.toNat, funct3 := 0, funct7 := 0, imm := 0, uimm := 0, src1 := 0, src2 := 0, dest := 0,
        base := 0 }

/-! ## Registers -/

/-- R31 and R32: after any sequence of writes a read of x0 gives 0, and a read of another register gives the last value
written to it, or what it held. -/
def Obligations.ReadGivesLastWriteAndZeroForX0 : Prop :=
  ∀ (ws : List (RegIdx × Word)) (s : State) (r : RegIdx),
    readReg (ws.foldl (fun u w => writeReg w.1 w.2 u) s) r =
      if r = 0#5 then 0#32
      else
        match ws.reverse.find? (fun w => w.1 == r) with
        | some w => w.2
        | none => readReg s r

/-! ## OP-IMM -/

/-- R201 and R202: ADDI and SLTI, with their whole frame. In this statement and every one on RegisterResult, JumpResult or
LoadResult below, the clause that a write to `rd = x0` also goes to last_wr_idx and last_wr_val is the spec's decisions D23
and D24 (log 22), not the instruction's rule. The fault of an unwritten rs1 is D17 (log 1). -/
def Obligations.AddiAndSltiResults : Prop :=
  (∀ rd rs1 imm s, RegisterResult (.addi rd rs1 imm) [rs1] s rd (readReg s rs1 + imm.signExtend 32) []) ∧
  (∀ rd rs1 imm s, RegisterResult (.slti rd rs1 imm) [rs1] s rd (if (readReg s rs1).toInt < imm.toInt then 1 else 0) [])

/-- R203: SLTIU compares with the sign-extended immediate read unsigned (the spec's decision D5, log 20) and records
IMM_SIGN exactly when instr[31] = 1. For `rd = x0` the last_wr_* clause is D23 and D24 (log 22). The fault of an unwritten
rs1 is D17 (log 1). IMM_SIGN is D20 (R353, log 22). -/
def Obligations.SltiuResult : Prop :=
  ∀ rd rs1 imm s, RegisterResult (.sltiu rd rs1 imm) [rs1] s rd
    (if (readReg s rs1).toNat < (imm.signExtend 32).toNat then 1 else 0) (if imm.msb then [.immSign] else [])

/-- R204 to R206: XORI, ORI and ANDI with the immediate that P_LOGIC_IMM names (R200), and IMM_SIGN exactly when instr[31]
= 1. For `rd = x0` the last_wr_* clause is D23 and D24 (log 22). The fault of an unwritten rs1 is D17 (log 1). IMM_SIGN is
D20 (R353, log 22). -/
def Obligations.LogicImmediateResults : Prop :=
  ∀ (rd rs1 : RegIdx) (imm : BitVec 12) (s : State) (immL : Word),
    immL = (if s.params.logicImm = .uimm then BitVec.ofNat 32 (imm.toNat % 2048) else imm.signExtend 32) →
    RegisterResult (.xori rd rs1 imm) [rs1] s rd (readReg s rs1 ^^^ immL) (if imm.msb then [.immSign] else []) ∧
    RegisterResult (.ori rd rs1 imm) [rs1] s rd (readReg s rs1 ||| immL) (if imm.msb then [.immSign] else []) ∧
    RegisterResult (.andi rd rs1 imm) [rs1] s rd (readReg s rs1 &&& immL) (if imm.msb then [.immSign] else [])

/-- R207 to R209: the immediate shifts as multiplication and floor division by a power of two, modulo 2^32. For `rd = x0`
the last_wr_* clause is D23 and D24 (log 22). The fault of an unwritten rs1 is D17 (log 1). -/
def Obligations.ShiftImmediateResults : Prop :=
  (∀ rd rs1 shamt s, RegisterResult (.slli rd rs1 shamt) [rs1] s rd
    (BitVec.ofNat 32 ((readReg s rs1).toNat * 2 ^ shamt.toNat)) []) ∧
  (∀ rd rs1 shamt s, RegisterResult (.srli rd rs1 shamt) [rs1] s rd
    (BitVec.ofNat 32 ((readReg s rs1).toNat / 2 ^ shamt.toNat)) []) ∧
  (∀ rd rs1 shamt s, RegisterResult (.srai rd rs1 shamt) [rs1] s rd
    (BitVec.ofInt 32 ((readReg s rs1).toInt / 2 ^ shamt.toNat)) [])

/-! ## OP -/

/-- R231 and R232: ADD and SUB, modulo 2^32. For `rd = x0` the last_wr_* clause is D23 and D24 (log 22). The fault of an
unwritten operand, rs1 first, is D17 (R355, log 1). -/
def Obligations.AddAndSubResults : Prop :=
  (∀ rd rs1 rs2 s, RegisterResult (.add rd rs1 rs2) [rs1, rs2] s rd
    (BitVec.ofNat 32 ((readReg s rs1).toNat + (readReg s rs2).toNat)) []) ∧
  (∀ rd rs1 rs2 s, RegisterResult (.sub rd rs1 rs2) [rs1, rs2] s rd
    (BitVec.ofInt 32 ((readReg s rs1).toInt - (readReg s rs2).toInt)) [])

/-- R234 and R235: SLT compares as integers, SLTU as naturals. For `rd = x0` the last_wr_* clause is D23 and D24 (log 22).
The fault of an unwritten operand, rs1 first, is D17 (R355, log 1). -/
def Obligations.SetLessThanResults : Prop :=
  (∀ rd rs1 rs2 s, RegisterResult (.slt rd rs1 rs2) [rs1, rs2] s rd
    (if (readReg s rs1).toInt < (readReg s rs2).toInt then 1 else 0) []) ∧
  (∀ rd rs1 rs2 s, RegisterResult (.sltu rd rs1 rs2) [rs1, rs2] s rd
    (if (readReg s rs1).toNat < (readReg s rs2).toNat then 1 else 0) [])

/-- R236, R239 and R240: XOR, OR and AND. For `rd = x0` the last_wr_* clause is D23 and D24 (log 22). The fault of an
unwritten operand, rs1 first, is D17 (R355, log 1). -/
def Obligations.BitwiseResults : Prop :=
  (∀ rd rs1 rs2 s, RegisterResult (.xor rd rs1 rs2) [rs1, rs2] s rd (readReg s rs1 ^^^ readReg s rs2) []) ∧
  (∀ rd rs1 rs2 s, RegisterResult (.or rd rs1 rs2) [rs1, rs2] s rd (readReg s rs1 ||| readReg s rs2) []) ∧
  (∀ rd rs1 rs2 s, RegisterResult (.and rd rs1 rs2) [rs1, rs2] s rd (readReg s rs1 &&& readReg s rs2) [])

/-- R233, R237 and R238: the register shifts use the amount modulo 32. For `rd = x0` the last_wr_* clause is D23 and D24
(log 22). The fault of an unwritten operand, rs1 first, is D17 (R355, log 1). -/
def Obligations.ShiftRegisterResults : Prop :=
  (∀ rd rs1 rs2 s, RegisterResult (.sll rd rs1 rs2) [rs1, rs2] s rd
    (BitVec.ofNat 32 ((readReg s rs1).toNat * 2 ^ ((readReg s rs2).toNat % 32))) []) ∧
  (∀ rd rs1 rs2 s, RegisterResult (.srl rd rs1 rs2) [rs1, rs2] s rd
    (BitVec.ofNat 32 ((readReg s rs1).toNat / 2 ^ ((readReg s rs2).toNat % 32))) []) ∧
  (∀ rd rs1 rs2 s, RegisterResult (.sra rd rs1 rs2) [rs1, rs2] s rd
    (BitVec.ofInt 32 ((readReg s rs1).toInt / 2 ^ ((readReg s rs2).toNat % 32))) [])

/-! ## LUI, AUIPC -/

/-- R260 and R261: LUI and AUIPC read no register. For `rd = x0` the last_wr_* clause is D23 and D24
(log 22). -/
def Obligations.UpperImmediateResults : Prop :=
  (∀ rd imm s, RegisterResult (.lui rd imm) [] s rd (BitVec.ofNat 32 (imm.toNat * 4096)) []) ∧
  (∀ rd imm s, RegisterResult (.auipc rd imm) [] s rd (s.pc + BitVec.ofNat 32 (imm.toNat * 4096)) [])

/-! ## Control transfer -/

/-- R271: JAL; the offset is R129's formula, whose bit 1 is instr[21] (log 23). For `rd = x0` the last_wr_* clause is D23 and
D24 (log 22). -/
def Obligations.JalResult : Prop :=
  ∀ rd off s, JumpResult (.jal rd off) [] s rd (s.pc + BitVec.ofInt 32 off.toInt)

/-- R272: JALR; bit 0 of the target is kept (the spec's reading, 90_conflicts.md C12, log 14), and the target uses the old
x[rs1], also when rd = rs1. For `rd = x0` the last_wr_* clause is D23 and D24 (log 22). The fault of an unwritten rs1 is
D17 (log 1). -/
def Obligations.JalrResult : Prop :=
  ∀ rd rs1 imm s, JumpResult (.jalr rd rs1 imm) [rs1] s rd (readReg s rs1 + BitVec.ofInt 32 imm.toInt)

/-- R274 and R275: BEQ and BNE. The fault of an unwritten operand, rs1 first, is D17 (R355, log 1). -/
def Obligations.EqualityBranchResults : Prop :=
  (∀ rs1 rs2 off s, BranchResult (.beq rs1 rs2 off) [rs1, rs2] s (decide (readReg s rs1 = readReg s rs2))
    (s.pc + BitVec.ofInt 32 off.toInt)) ∧
  (∀ rs1 rs2 off s, BranchResult (.bne rs1 rs2 off) [rs1, rs2] s (decide (readReg s rs1 ≠ readReg s rs2))
    (s.pc + BitVec.ofInt 32 off.toInt))

/-- R276 to R279: BLT and BGE compare as integers, BLTU and BGEU as naturals. The fault of an unwritten operand, rs1 first,
is D17 (R355, log 1). -/
def Obligations.OrderBranchResults : Prop :=
  (∀ rs1 rs2 off s, BranchResult (.blt rs1 rs2 off) [rs1, rs2] s
    (decide ((readReg s rs1).toInt < (readReg s rs2).toInt)) (s.pc + BitVec.ofInt 32 off.toInt)) ∧
  (∀ rs1 rs2 off s, BranchResult (.bge rs1 rs2 off) [rs1, rs2] s
    (decide ((readReg s rs2).toInt ≤ (readReg s rs1).toInt)) (s.pc + BitVec.ofInt 32 off.toInt)) ∧
  (∀ rs1 rs2 off s, BranchResult (.bltu rs1 rs2 off) [rs1, rs2] s
    (decide ((readReg s rs1).toNat < (readReg s rs2).toNat)) (s.pc + BitVec.ofInt 32 off.toInt)) ∧
  (∀ rs1 rs2 off s, BranchResult (.bgeu rs1 rs2 off) [rs1, rs2] s
    (decide ((readReg s rs2).toNat ≤ (readReg s rs1).toNat)) (s.pc + BitVec.ofInt 32 off.toInt))

/-! ## Loads and stores -/

/-- R303: LW under the reference target (log 8). For `rd = x0` the last_wr_* clause is D23 and D24 (log 22). The fault of an
unwritten rs1 is D17 (log 1). DATA_OFFSET is D20 (R353, log 22). -/
def Obligations.LoadWordResult : Prop :=
  ∀ rd rs1 imm s, LoadResult (.lw rd rs1 imm) [rs1] s rd (effectiveAddress (readReg s rs1) imm)
    (targetRead s.mem (effectiveAddress (readReg s rs1) imm)) .word false

/-- R301, R302, R304 and R305: the narrow loads take the low bits of the returned word, whatever ea[1:0] is (the spec's
decision D11, log 13). For `rd = x0` the last_wr_* clause is D23 and D24 (log 22). The fault of an unwritten rs1 is D17
(log 1). DATA_OFFSET is D20 (R353, log 22). -/
def Obligations.NarrowLoadResults : Prop :=
  ∀ (rd rs1 : RegIdx) (imm : BitVec 12) (s : State) (ea r : Word),
    ea = effectiveAddress (readReg s rs1) imm → r = targetRead s.mem ea →
    LoadResult (.lb rd rs1 imm) [rs1] s rd ea ((r.setWidth 8).signExtend 32) .byte true ∧
    LoadResult (.lh rd rs1 imm) [rs1] s rd ea ((r.setWidth 16).signExtend 32) .half true ∧
    LoadResult (.lbu rd rs1 imm) [rs1] s rd ea (BitVec.ofNat 32 (r.toNat % 256)) .byte false ∧
    LoadResult (.lhu rd rs1 imm) [rs1] s rd ea (BitVec.ofNat 32 (r.toNat % 65536)) .half false

/-- R309: SW under the reference target (log 8). The fault of an unwritten operand, rs1 first, is D17 (R355, log 1).
DATA_OFFSET is D20 (R353, log 22). -/
def Obligations.StoreWordResult : Prop :=
  ∀ rs1 rs2 imm s, StoreResult (.sw rs1 rs2 imm) [rs1, rs2] s (effectiveAddress (readReg s rs1) imm) (readReg s rs2) false

/-- R307 and R308: SB and SH write the whole word (the spec's decision D12, log 13) and always record NARROW_STORE. The
fault of an unwritten operand, rs1 first, is D17 (R355, log 1). NARROW_STORE and DATA_OFFSET are D20 (R353, log 22). -/
def Obligations.NarrowStoreResults : Prop :=
  (∀ rs1 rs2 imm s, StoreResult (.sb rs1 rs2 imm) [rs1, rs2] s (effectiveAddress (readReg s rs1) imm) (readReg s rs2) true) ∧
  (∀ rs1 rs2 imm s, StoreResult (.sh rs1 rs2 imm) [rs1, rs2] s (effectiveAddress (readReg s rs1) imm) (readReg s rs2) true)

/-- R99 and R101: a stored word is what a load of that word returns next, and what the next fetch returns if it is there. That
this is all of x[rs2] after SB and SH too is the spec's decision D12 (log 13). -/
def Obligations.StoredWordIsSeenNext : Prop :=
  ∀ (rs1 rs2 : RegIdx) (imm : BitVec 12) (s t : State),
    exec (.sw rs1 rs2 imm) s = .next t ∨ exec (.sh rs1 rs2 imm) s = .next t ∨ exec (.sb rs1 rs2 imm) s = .next t →
    (wordBase t.pc = wordBase (effectiveAddress (readReg s rs1) imm) → (fetch t).ir = readReg s rs2) ∧
    (∀ (rd b : RegIdx) (off : BitVec 12) (u : State), exec (.lw rd b off) t = .next u → rd ≠ 0#5 →
      wordBase (effectiveAddress (readReg t b) off) = wordBase (effectiveAddress (readReg s rs1) imm) →
      readReg u rd = readReg s rs2)

/-! ## MISC-MEM, SYSTEM and unrecognized words -/

/-- R330: every MISC-MEM word, whatever its fields, only advances the pc and records MISC_MEM. -/
def Obligations.MiscMemIsANoOp : Prop :=
  ∀ rd rs1 funct3 imm s, NoOpResult (.miscMem rd rs1 funct3 imm) s .miscMem

/-- R332: every SYSTEM word, whatever its fields, only advances the pc and records SYSTEM; no register is written. -/
def Obligations.SystemIsANoOp : Prop := ∀ rest s, NoOpResult (.system rest) s .system

/-! ## One Step -/

/-- R179: when the word at `pc` is an instruction, the Step is that instruction's meaning after the fetch; and the fetch
changes the instruction register, the bus outputs and the trace, and nothing that the instruction reads. -/
def Obligations.StepRunsTheDecodedInstruction : Prop :=
  ∀ (s : State) (i : Instr), s.fsm = .readPc → s.refusalMark = false → decodeWord (targetRead s.mem s.pc) = .instr i →
    step s = exec i (fetch s) ∧
    (fetch s).ir = targetRead s.mem s.pc ∧ (fetch s).pc = s.pc ∧ KeepsRegisters s (fetch s) ∧ (fetch s).mem = s.mem ∧
    (fetch s).gaps = s.gaps ∧ (fetch s).params = s.params ∧ (fetch s).refusalMark = false ∧
    (fetch s).trace = s.trace ++ [fetchRecord s.pc (targetRead s.mem s.pc)] ∧
    (fetch s).cycO = false ∧ (fetch s).stbO = false ∧ (fetch s).weO = false ∧ (fetch s).adrO = s.pc ∧
    (fetch s).ldRd = s.ldRd ∧ (fetch s).ldSigned = s.ldSigned ∧ (fetch s).ldWidth = s.ldWidth

/-- R334: a word with an unrecognized opcode only advances the pc and records UNRECOGNIZED_OPCODE; its one transaction is
the fetch. -/
def Obligations.StepRunsUnrecognizedWordAsNoOp : Prop :=
  ∀ s : State, s.fsm = .readPc → s.refusalMark = false → decodeWord (targetRead s.mem s.pc) = .unrecognized →
    ∃ t, step s = .next t ∧ stepChecked s = .machine (.next t) ∧ KeepsRegisters s t ∧ t.pc = s.pc + 4 ∧ t.fsm = .readPc ∧
      RecordsExactly s t [.unrecognizedOpcode] ∧ KeepsMemory s t ∧ t.params = s.params ∧ t.refusalMark = false ∧
      t.trace = s.trace ++ [fetchRecord s.pc (targetRead s.mem s.pc)]

/-- The host's placement (log 18): a word stored by `withFetchWord` is what the very next Step fetches, decodes and runs, and
`decodeTableWord` is the decoder on that word. -/
def Obligations.PlacedWordRunsNext : Prop :=
  ∀ (s : State) (w : Word),
    (fetch (s.withFetchWord 32 w.toNat)).ir = w ∧
    (∀ i, decodeWord w = .instr i → step (s.withFetchWord 32 w.toNat) = exec i (fetch (s.withFetchWord 32 w.toNat))) ∧
    decodeTableWord 32 w.toNat = instrOf (decodeWord w)

/-- R184 and R355 (the spec's decision D7): a non-canonical word is refused by its word, before any operand is looked at;
the clocked machine sets the refusal mark and changes nothing else; and a machine with the mark set has stopped until reset. -/
def Obligations.NonCanonicalWordIsRefused : Prop :=
  (∀ (s : State) (why : NonCanonical), s.fsm = .readPc → s.refusalMark = false →
    decodeWord (targetRead s.mem s.pc) = .nonCanonical why →
    step s = .refused (.nonCanonical (targetRead s.mem s.pc)) ∧
    stepChecked s = .machine (.refused (.nonCanonical (targetRead s.mem s.pc))) ∧
    decodeEdge (fetch s) = { fetch s with refusalMark := true }) ∧
  (∀ s : State, s.refusalMark = true →
    step s = .refused .refusalMarkSet ∧ ∀ b : BusIn, b.rst = false → clock b s = s)

/-- R33, R355 and R367 (the spec's decision D17; log 1). Under the reference target the spec's Step gives the model
fault, a verdict and no stop of the machine, of the first unwritten operand register, rs1 before rs2, never of x0, and is
`step` when there is none. Under any target the whole Step of
R179 takes its events in R355's order: a hang of the Fetch; the refusal of a non-canonical word; the fault, whatever the
target would answer to a data request; and else the hardware's Step, the hang of its data transaction included. -/
def Obligations.UnwrittenOperandFaultsInTheCheckedStep : Prop :=
  (∀ (s : State) (i : Instr), s.fsm = .readPc → s.refusalMark = false → decodeWord (targetRead s.mem s.pc) = .instr i →
    (∀ r, (operandRegs i).find? (fun q => !isWritten s q) = some r →
      stepChecked s = .modelFault (.uninitRead r) ∧ r ≠ 0#5) ∧
    ((∀ r ∈ operandRegs i, isWritten s r = true) → stepChecked s = .machine (step s))) ∧
  (∀ (target : Target) (s : State), s.refusalMark = false → fetchAnswer target s = none →
    specStep target s = .hang (beginFetch s)) ∧
  (∀ (target : Target) (s : State) (w : Word), s.refusalMark = false → fetchAnswer target s = some w →
    (∀ why, decodeWord w = .nonCanonical why →
      specStep target s = .refused { endFetch w (beginFetch s) with refusalMark := true }) ∧
    (∀ i r, decodeWord w = .instr i → (operandRegs i).find? (fun q => !isWritten s q) = some r →
      specStep target s = .modelFault (.uninitRead r) (endFetch w (beginFetch s))) ∧
    (∀ i, decodeWord w = .instr i → (∀ r ∈ operandRegs i, isWritten s r = true) →
      specStep target s = stepUnder target s) ∧
    (decodeWord w = .unrecognized → specStep target s = stepUnder target s))

/-- R350: no instruction raises an exception or stops: each completes at the next instruction boundary from every state. That
it does so with an unwritten operand, where the spec's own Step faults (R33), is the model's choice of log 1; that a load or
store never hangs is the reference target's answer to every request (R84, TARGET_ACKS; log 8). -/
def Obligations.EveryInstructionCompletes : Prop :=
  ∀ (i : Instr) (s : State), ∃ t, exec i s = .next t ∧ t.fsm = .readPc ∧ t.refusalMark = s.refusalMark ∧
    t.params = s.params ∧ t.ir = s.ir

/-! ## Reset and invariants -/

/-- R52, R381 and R382 (the spec's decisions D15 to D17): what reset leaves, where the spec says what. Not said: the values
of x1 to x31 and of the registers it calls unspecified (log 1, log 4). -/
def Obligations.ResetLeavesWhatTheSpecSays : Prop :=
  (∀ p : Params,
    (State.resetWith p).fsm = .readPc ∧ (State.resetWith p).pc = p.resetPc ∧ (State.resetWith p).cycO = false ∧
    (State.resetWith p).stbO = false ∧ (State.resetWith p).weO = false ∧ readReg (State.resetWith p) 0 = 0 ∧
    (∀ r, isWritten (State.resetWith p) r = decide (r = 0#5)) ∧ (∀ k, hasGap (State.resetWith p).gaps k = false) ∧
    (State.resetWith p).refusalMark = false ∧ (State.resetWith p).trace = []) ∧
  State.reset.pc = 0x00000000 ∧ State.reset.params.logicImm = .uimm ∧ core.reset = State.reset

/-- R386 and R88: boot places byte `k` of the image at byte address `k`, the spec's decision D18; an image is cut at 2^32 bytes
(log 18, DESIGN CHOICE); an address the image does not cover holds its free value (log 5); and the rest is the state after
reset. -/
def Obligations.BootImagePlacesTheBytes : Prop :=
  ∀ (p : Params) (blob : List Byte),
    (∀ k b, blob[k]? = some b → k < 2 ^ 32 → byteAt (bootImage p blob).mem k = b) ∧
    (∀ k, blob.length ≤ k ∨ 2 ^ 32 ≤ k → byteAt (bootImage p blob).mem k = Config.initialByte k) ∧
    { bootImage p blob with mem := [] } = State.resetWith p

/-- The invariants hold at reset for every admissible RESET_PC, with any program image. -/
def Obligations.InvariantHoldsAtReset : Prop :=
  ∀ (p : Params) (blob : List Byte), p.wf →
    busInv (bootImage p blob) ∧ memInv (bootImage p blob) ∧ pcInv (bootImage p blob) ∧ atBoundary (bootImage p blob) ∧
    busInv (State.resetWith p) ∧ memInv (State.resetWith p) ∧ pcInv (State.resetWith p)

/-- From every state that meets them, a Step keeps the bus handshake, the canonical form of memory and the rule that the pc
is misaligned only if MISALIGNED_TARGET is recorded (20_memory.md R73, R76, R77; 10_state.md R43), and ends at an
instruction boundary. -/
def Obligations.StepKeepsInvariant : Prop :=
  ∀ s t : State, step s = .next t → busInv s → memInv s → pcInv s → busInv t ∧ memInv t ∧ pcInv t ∧ atBoundary t

/-- So does every clock edge, whatever the environment does, reset included. -/
def Obligations.ClockKeepsInvariant : Prop :=
  (∀ (b : BusIn) (s : State), busInv s → busInv (clock b s)) ∧
  (∀ (e : EnvIn) (s : State), busInv s → memInv s → pcInv s →
    busInv (tick e s) ∧ memInv (tick e s) ∧ pcInv (tick e s))

/-! ## Whole-machine rules -/

/-- R352: nothing removes a gap kind, in a Step or at a clock edge without reset. -/
def Obligations.GapRecordNeverShrinks : Prop :=
  (∀ (s t : State) (k : Gap), step s = .next t → hasGap s.gaps k = true → hasGap t.gaps k = true) ∧
  (∀ (b : BusIn) (s : State) (k : Gap), b.rst = false → hasGap s.gaps k = true → hasGap (clock b s).gaps k = true)

/-- R353: an instruction records each gap kind exactly when that kind's condition holds. -/
def Obligations.GapsAreRecordedExactlyByTheTable : Prop :=
  ∀ (i : Instr) (s t : State) (k : Gap), exec i s = .next t →
    hasGap t.gaps k = (hasGap s.gaps k || gapCondition i s t k)

/-- R81 and R82: a Step makes one Fetch at `pc`, then one Load or Store at the effective address if the instruction is one,
and no other transaction; a Store carries `x[rs2]`, and a Load returns the target's word at its address. -/
def Obligations.OneFetchThenAtMostOneDataTransaction : Prop :=
  ∀ s t : State, s.fsm = .readPc → step s = .next t →
    ∃ data, t.trace = s.trace ++ fetchRecord s.pc (targetRead s.mem s.pc) :: data ∧
      (accessesData (decodeWord (targetRead s.mem s.pc)) = false → data = []) ∧
      (∀ i, decodeWord (targetRead s.mem s.pc) = .instr i → ∀ ea, dataAddress s i = some ea →
        ∃ x, data = [x] ∧ x.adr = ea ∧ x.we = isStore i ∧ x.wdata = storeData s i ∧
          x.kind = (if isStore i then .store else .load) ∧
          x.rdata = (if isStore i then none else some (targetRead s.mem ea)))

/-- Only a store changes memory, and only in the word its effective address names (R81, R88). -/
def Obligations.OnlyStoresChangeMemory : Prop :=
  ∀ (i : Instr) (s t : State) (a : Nat), exec i s = .next t →
    (isStore i = true → ∀ ea, dataAddress s i = some ea → a < wordBase ea ∨ wordBase ea + 4 ≤ a) →
    byteAt t.mem a = byteAt s.mem a

/-- R37: no register but the destination changes, and branches, stores, MISC-MEM and SYSTEM write none. -/
def Obligations.OnlyTheDestinationRegisterChanges : Prop :=
  ∀ (i : Instr) (s t : State), exec i s = .next t →
    (∀ r, destination i ≠ some r → readReg t r = readReg s r ∧ isWritten t r = isWritten s r) ∧
    (destination i = none → t.lastWrIdx = s.lastWrIdx ∧ t.lastWrVal = s.lastWrVal)

/-- R183: the next pc of every instruction, and of every word with an unrecognized opcode. That JALR's target keeps bit 0 is
the spec's reading (90_conflicts.md C12; log 14). -/
def Obligations.NextPcFollowsTheRule : Prop :=
  (∀ (i : Instr) (s t : State), exec i s = .next t → t.pc = nextPc s i) ∧
  (∀ s t : State, s.fsm = .readPc → decodeWord (targetRead s.mem s.pc) = .unrecognized → step s = .next t →
    t.pc = s.pc + 4)

/-- R396 (the spec's decision D26, log 26). Under the reference target, executing the self-loop at the end of a run leaves pc,
registers, memory and gaps as they are, and the run stays ended. Under any target it changes nothing of the architectural
state but the trace. A run that ends has one final state, after one number of Steps, and reaches it with no fault, refusal or
hang. -/
def Obligations.SelfLoopEndsTheRun : Prop :=
  (∀ s : State, atEndOfRun s → pcInv s →
    ∃ t, step s = .next t ∧ t.pc = s.pc ∧ (∀ r, readReg t r = readReg s r ∧ isWritten t r = isWritten s r) ∧
      t.mem = s.mem ∧ (∀ k, hasGap t.gaps k = hasGap s.gaps k) ∧ atEndOfRun t) ∧
  (∀ (target : Target) (s : State), endOfRun target s = true → pcInv s →
    ∃ t, specStep target s = .next t ∧ t.fsm = .readPc ∧
      archState t = { archState s with trace := s.trace ++ [fetchRecord s.pc 0x0000006F] }) ∧
  (∀ (target : Target) (s t u : State) (n m : Nat), finalAfter target n s = some t → finalAfter target m s = some u →
    n = m ∧ t = u) ∧
  (∀ (target : Target) (s t : State) (n : Nat), finalAfter target n s = some t →
    endOfRun target t = true ∧ runUnder target n s = .next t)

/-! ## The clocked machine -/

/-- R179: the clocked machine with its reference target refines the Step: however long the fetch and the data transaction
wait, the state at the next entry into READ_PC is the Step's, and a refused word ends with the refusal mark set. -/
def Obligations.ClockedMachineRefinesStep : Prop :=
  ∀ (s : State) (lf ld : Nat), s.fsm = .readPc → s.refusalMark = false →
    (∀ t, step s = .next t → ticks (schedule lf ld (accessesData (decodeWord (targetRead s.mem s.pc)))) s = t) ∧
    (∀ w, step s = .refused (.nonCanonical w) → ticks (schedule lf ld false) s = { fetch s with refusalMark := true })

/-- R85, R75 and R79: under any target, whatever its words, delays and stray acknowledges, the clocked machine reaches the
state of the Step under that target. That an acknowledge in READ_PC and DECODE is ignored is the spec's decision D30
(log 21). -/
def Obligations.ClockedMachineFollowsAnyTarget : Prop :=
  ∀ (target : Target) (s t : State) (w : Word), s.fsm = .readPc →
    target (beginFetch s).trace (pendingRequest (beginFetch s)) = some w → stepUnder target s = .next t →
    ∀ (a0 a1 : Bool × Word) (waits : List Word),
      ((decodeEdge (endFetch w (beginFetch s))).fsm = .readPc → clocks (fetchInputs a0 a1 waits w) s = t) ∧
      (∀ r, (decodeEdge (endFetch w (beginFetch s))).fsm ≠ .readPc →
        target (decodeEdge (endFetch w (beginFetch s))).trace
          (pendingRequest (decodeEdge (endFetch w (beginFetch s)))) = some r →
        ∀ waits2 : List Word, clocks (fetchInputs a0 a1 waits w ++ dataInputs waits2 r) s = t)

/-- R85 and R88: the Step under the reference target as an oracle over the transaction trace is `step`, whose memory is the
boot memory with the trace's stores replayed; with the model fault it is `stepChecked`; and a run ends under it where
`atEndOfRun` says. -/
def Obligations.ReferenceOracleAgreesWithStep : Prop :=
  (∀ (m : Memory) (s t : State), s.fsm = .readPc → s.mem = replay m s.trace → step s = .next t →
    stepUnder (referenceTarget m) s = .next { t with mem := s.mem } ∧ t.mem = replay m t.trace) ∧
  (∀ (m : Memory) (s t : State), s.fsm = .readPc → s.mem = replay m s.trace → stepChecked s = .machine (.next t) →
    specStep (referenceTarget m) s = .next { t with mem := s.mem }) ∧
  (∀ (m : Memory) (s : State) (f : ModelFault), s.fsm = .readPc → s.mem = replay m s.trace → stepChecked s = .modelFault f →
    specStep (referenceTarget m) s = .modelFault f (fetch s)) ∧
  (∀ (m : Memory) (s : State), s.mem = replay m s.trace → (endOfRun (referenceTarget m) s = true ↔ atEndOfRun s)) ∧
  (∀ m : Memory, TargetAcks (referenceTarget m))

/-- R78: in a wait state the core does nothing but sample ack_i. -/
def Obligations.WaitStatesOnlyWait : Prop :=
  ∀ (b : BusIn) (s : State), s.fsm.waits = true → b.rst = false → b.ack = false → clock b s = s

/-- R76: the acknowledge edge drops the request and leaves the wait state, so the request lines are low for at least one
cycle between two transactions. -/
def Obligations.AcknowledgeDropsTheRequest : Prop :=
  ∀ (b : BusIn) (s : State), s.fsm.waits = true → s.refusalMark = false → b.rst = false → b.ack = true →
    (clock b s).cycO = false ∧ (clock b s).stbO = false ∧ (clock b s).fsm.waits = false

/-- R79 (the spec's decision D30): outside the wait states ack_i and dat_i are ignored. -/
def Obligations.StrayAcknowledgeIsIgnored : Prop :=
  ∀ (rst ack ack' : Bool) (dat dat' : Word) (s : State), s.fsm.waits = false →
    clock { rst := rst, ack := ack, dat := dat } s = clock { rst := rst, ack := ack', dat := dat' } s

/-- R173: on the fetch acknowledge the returned word goes to ir and the core to DECODE; ir is written nowhere else. -/
def Obligations.FetchAcknowledgeLatchesIr : Prop :=
  ∀ (b : BusIn) (s : State), b.rst = false → s.refusalMark = false →
    (s.fsm = .loadPc → b.ack = true → (clock b s).ir = b.dat ∧ (clock b s).fsm = .decode) ∧
    (¬ (s.fsm = .loadPc ∧ b.ack = true) → (clock b s).ir = s.ir)

/-- R40, R41 and R178 (the spec's decision D9): without reset the pc is written only in DECODE, and the register file only in
DECODE or at the LOAD acknowledge, there only in x[ld_rd] with the adjusted data. -/
def Obligations.PcAndRegistersAreWrittenInTheirCycles : Prop :=
  ∀ (b : BusIn) (s : State), b.rst = false → s.fsm ≠ .decode →
    (clock b s).pc = s.pc ∧
    (¬ (s.fsm = .load ∧ b.ack = true) → ∀ r, readReg (clock b s) r = readReg s r) ∧
    (s.fsm = .load → b.ack = true → s.refusalMark = false → ∀ r, readReg (clock b s) r =
      if r = s.ldRd ∧ r ≠ 0#5 then adjust b.dat s.ldWidth s.ldSigned else readReg s r)

/-- R380, R381 and R383 (the spec's decisions D15, D28): an edge with rst_i = 1 takes the reset values from any state and
writes no register; a store it abandons leaves the word stored or unchanged, and no other memory changes. That every
register counts as unwritten is the spec's decision D17; that it reads as before the edge is the model's choice (log 15,
DESIGN CHOICE), the spec calling the value unspecified. -/
def Obligations.ResetEdgeTakesResetValues : Prop :=
  (∀ (b : BusIn) (s : State), b.rst = true →
    (clock b s).fsm = .readPc ∧ (clock b s).pc = s.params.resetPc ∧ (clock b s).cycO = false ∧
    (clock b s).stbO = false ∧ (clock b s).weO = false ∧ (clock b s).refusalMark = false ∧ (clock b s).trace = [] ∧
    (∀ k, hasGap (clock b s).gaps k = false) ∧
    (∀ r, readReg (clock b s) r = readReg s r ∧ isWritten (clock b s) r = decide (r = 0#5))) ∧
  (∀ (e : EnvIn) (s : State), e.rst = true →
    (tick e s).mem = s.mem ∨ (s.fsm = .store ∧ (tick e s).mem = targetWrite s.mem s.adrO s.datO)) ∧
  (∀ (e : EnvIn) (s : State), e.rst = true → s.fsm = .store → s.refusalMark = false →
    (e.abandonedLands = true → (tick e s).mem = targetWrite s.mem s.adrO s.datO) ∧
    (e.abandonedLands = false → (tick e s).mem = s.mem))

/-- R84, R355 and R368: a Step under a target that never acknowledges leaves the core in a wait state with its request
asserted, no register and no memory changed, and no later edge without acknowledge changes anything; a fetch hang has
recorded nothing. That in LOAD and STORE pc has already advanced is the spec's decision D9 (log 24). Under TARGET_ACKS
neither Step hangs. -/
def Obligations.HangKeepsWaiting : Prop :=
  (∀ (target : Target) (s h : State), s.fsm = .readPc → stepUnder target s = .hang h ∨ specStep target s = .hang h →
    h.fsm.waits = true ∧ h.cycO = true ∧ h.stbO = true ∧ KeepsRegisters s h ∧ h.mem = s.mem ∧
    (h.fsm = .loadPc → h.pc = s.pc ∧ h.gaps = s.gaps) ∧ (h.fsm ≠ .loadPc → h.pc = s.pc + 4) ∧
    (∀ b : BusIn, b.rst = false → b.ack = false → clock b h = h)) ∧
  (∀ (target : Target) (s h : State), TargetAcks target → stepUnder target s ≠ .hang h ∧ specStep target s ≠ .hang h)

/-- R366 (the spec's decision D23): the trace outputs, with the state encoding; and the encoding of ld_width, which is R46's
own choice and no trace output. -/
def Obligations.TraceOutputsShowTheRegisters : Prop :=
  (∀ s : State, (traceOutputs s).dbgPc = s.pc ∧ (traceOutputs s).dbgState = stateCode s.fsm ∧
    (traceOutputs s).dbgWrIdx = s.lastWrIdx ∧ (traceOutputs s).dbgWrVal = s.lastWrVal ∧
    (traceOutputs s).dbgFields = decodeFields s.ir) ∧
  [Fsm.readPc, .loadPc, .decode, .load, .store].map stateCode = [0, 1, 2, 3, 4] ∧
  [Width.byte, .half, .word].map widthCode = [0b00, 0b01, 0b10]
end

