-- ==== Sys2Proof/Laws/Decode.lean ====
section
/-! SUPPORT. Field extraction from a packed word, and a packed word from its fields: one lemma per field per format
(30_encoding.md R126 to R131). Each is a comparison bit by bit. -/

namespace Sys2Proof

/-! ### packI -/

@[simp] theorem opcodeOf_packI (op : BitVec 7) (f3 : BitVec 3) (rd rs1 : RegIdx) (imm : BitVec 12) :
    opcodeOf (packI op f3 rd rs1 imm) = op := by
  apply BitVec.eq_of_getLsbD_eq; intro i hi
  interval_cases i <;> simp only [opcodeOf, packI, BitVec.getLsbD_append, BitVec.getLsbD_extractLsb'] <;> simp

@[simp] theorem funct3Of_packI (op : BitVec 7) (f3 : BitVec 3) (rd rs1 : RegIdx) (imm : BitVec 12) :
    funct3Of (packI op f3 rd rs1 imm) = f3 := by
  apply BitVec.eq_of_getLsbD_eq; intro i hi
  interval_cases i <;> simp only [funct3Of, packI, BitVec.getLsbD_append, BitVec.getLsbD_extractLsb'] <;> simp

@[simp] theorem rdOf_packI (op : BitVec 7) (f3 : BitVec 3) (rd rs1 : RegIdx) (imm : BitVec 12) :
    rdOf (packI op f3 rd rs1 imm) = rd := by
  apply BitVec.eq_of_getLsbD_eq; intro i hi
  interval_cases i <;> simp only [rdOf, packI, BitVec.getLsbD_append, BitVec.getLsbD_extractLsb'] <;> simp

@[simp] theorem rs1Of_packI (op : BitVec 7) (f3 : BitVec 3) (rd rs1 : RegIdx) (imm : BitVec 12) :
    rs1Of (packI op f3 rd rs1 imm) = rs1 := by
  apply BitVec.eq_of_getLsbD_eq; intro i hi
  interval_cases i <;> simp only [rs1Of, packI, BitVec.getLsbD_append, BitVec.getLsbD_extractLsb'] <;> simp

@[simp] theorem immIOf_packI (op : BitVec 7) (f3 : BitVec 3) (rd rs1 : RegIdx) (imm : BitVec 12) :
    immIOf (packI op f3 rd rs1 imm) = imm := by
  apply BitVec.eq_of_getLsbD_eq; intro i hi
  interval_cases i <;> simp only [immIOf, packI, BitVec.getLsbD_append, BitVec.getLsbD_extractLsb'] <;> simp

/-! ### packR -/

@[simp] theorem opcodeOf_packR (op : BitVec 7) (f3 : BitVec 3) (f7 : BitVec 7) (rd rs1 rs2 : RegIdx) :
    opcodeOf (packR op f3 f7 rd rs1 rs2) = op := by
  apply BitVec.eq_of_getLsbD_eq; intro i hi
  interval_cases i <;> simp only [opcodeOf, packR, BitVec.getLsbD_append, BitVec.getLsbD_extractLsb'] <;> simp

@[simp] theorem funct3Of_packR (op : BitVec 7) (f3 : BitVec 3) (f7 : BitVec 7) (rd rs1 rs2 : RegIdx) :
    funct3Of (packR op f3 f7 rd rs1 rs2) = f3 := by
  apply BitVec.eq_of_getLsbD_eq; intro i hi
  interval_cases i <;> simp only [funct3Of, packR, BitVec.getLsbD_append, BitVec.getLsbD_extractLsb'] <;> simp

@[simp] theorem funct7Of_packR (op : BitVec 7) (f3 : BitVec 3) (f7 : BitVec 7) (rd rs1 rs2 : RegIdx) :
    funct7Of (packR op f3 f7 rd rs1 rs2) = f7 := by
  apply BitVec.eq_of_getLsbD_eq; intro i hi
  interval_cases i <;> simp only [funct7Of, packR, BitVec.getLsbD_append, BitVec.getLsbD_extractLsb'] <;> simp

@[simp] theorem rdOf_packR (op : BitVec 7) (f3 : BitVec 3) (f7 : BitVec 7) (rd rs1 rs2 : RegIdx) :
    rdOf (packR op f3 f7 rd rs1 rs2) = rd := by
  apply BitVec.eq_of_getLsbD_eq; intro i hi
  interval_cases i <;> simp only [rdOf, packR, BitVec.getLsbD_append, BitVec.getLsbD_extractLsb'] <;> simp

@[simp] theorem rs1Of_packR (op : BitVec 7) (f3 : BitVec 3) (f7 : BitVec 7) (rd rs1 rs2 : RegIdx) :
    rs1Of (packR op f3 f7 rd rs1 rs2) = rs1 := by
  apply BitVec.eq_of_getLsbD_eq; intro i hi
  interval_cases i <;> simp only [rs1Of, packR, BitVec.getLsbD_append, BitVec.getLsbD_extractLsb'] <;> simp

@[simp] theorem rs2Of_packR (op : BitVec 7) (f3 : BitVec 3) (f7 : BitVec 7) (rd rs1 rs2 : RegIdx) :
    rs2Of (packR op f3 f7 rd rs1 rs2) = rs2 := by
  apply BitVec.eq_of_getLsbD_eq; intro i hi
  interval_cases i <;> simp only [rs2Of, packR, BitVec.getLsbD_append, BitVec.getLsbD_extractLsb'] <;> simp

/-! ### packU -/

@[simp] theorem opcodeOf_packU (op : BitVec 7) (rd : RegIdx) (imm : BitVec 20) :
    opcodeOf (packU op rd imm) = op := by
  apply BitVec.eq_of_getLsbD_eq; intro i hi
  interval_cases i <;> simp only [opcodeOf, packU, BitVec.getLsbD_append, BitVec.getLsbD_extractLsb'] <;> simp

@[simp] theorem rdOf_packU (op : BitVec 7) (rd : RegIdx) (imm : BitVec 20) :
    rdOf (packU op rd imm) = rd := by
  apply BitVec.eq_of_getLsbD_eq; intro i hi
  interval_cases i <;> simp only [rdOf, packU, BitVec.getLsbD_append, BitVec.getLsbD_extractLsb'] <;> simp

@[simp] theorem immUOf_packU (op : BitVec 7) (rd : RegIdx) (imm : BitVec 20) :
    immUOf (packU op rd imm) = imm := by
  apply BitVec.eq_of_getLsbD_eq; intro i hi
  interval_cases i <;> simp only [immUOf, packU, BitVec.getLsbD_append, BitVec.getLsbD_extractLsb'] <;> simp

/-! ### packS -/

@[simp] theorem opcodeOf_packS (op : BitVec 7) (f3 : BitVec 3) (rs1 rs2 : RegIdx) (imm : BitVec 12) :
    opcodeOf (packS op f3 rs1 rs2 imm) = op := by
  apply BitVec.eq_of_getLsbD_eq; intro i hi
  interval_cases i <;> simp only [opcodeOf, packS, BitVec.getLsbD_append, BitVec.getLsbD_extractLsb'] <;> simp

@[simp] theorem funct3Of_packS (op : BitVec 7) (f3 : BitVec 3) (rs1 rs2 : RegIdx) (imm : BitVec 12) :
    funct3Of (packS op f3 rs1 rs2 imm) = f3 := by
  apply BitVec.eq_of_getLsbD_eq; intro i hi
  interval_cases i <;> simp only [funct3Of, packS, BitVec.getLsbD_append, BitVec.getLsbD_extractLsb'] <;> simp

@[simp] theorem rs1Of_packS (op : BitVec 7) (f3 : BitVec 3) (rs1 rs2 : RegIdx) (imm : BitVec 12) :
    rs1Of (packS op f3 rs1 rs2 imm) = rs1 := by
  apply BitVec.eq_of_getLsbD_eq; intro i hi
  interval_cases i <;> simp only [rs1Of, packS, BitVec.getLsbD_append, BitVec.getLsbD_extractLsb'] <;> simp

@[simp] theorem rs2Of_packS (op : BitVec 7) (f3 : BitVec 3) (rs1 rs2 : RegIdx) (imm : BitVec 12) :
    rs2Of (packS op f3 rs1 rs2 imm) = rs2 := by
  apply BitVec.eq_of_getLsbD_eq; intro i hi
  interval_cases i <;> simp only [rs2Of, packS, BitVec.getLsbD_append, BitVec.getLsbD_extractLsb'] <;> simp

@[simp] theorem immSOf_packS (op : BitVec 7) (f3 : BitVec 3) (rs1 rs2 : RegIdx) (imm : BitVec 12) :
    immSOf (packS op f3 rs1 rs2 imm) = imm := by
  apply BitVec.eq_of_getLsbD_eq; intro i hi
  interval_cases i <;> simp only [immSOf, packS, BitVec.getLsbD_append, BitVec.getLsbD_extractLsb'] <;> simp

/-! ### packB -/

@[simp] theorem opcodeOf_packB (op : BitVec 7) (f3 : BitVec 3) (rs1 rs2 : RegIdx) (off : BitVec 13) :
    opcodeOf (packB op f3 rs1 rs2 off) = op := by
  apply BitVec.eq_of_getLsbD_eq; intro i hi
  interval_cases i <;> simp only [opcodeOf, packB, BitVec.getLsbD_append, BitVec.getLsbD_extractLsb'] <;> simp

@[simp] theorem funct3Of_packB (op : BitVec 7) (f3 : BitVec 3) (rs1 rs2 : RegIdx) (off : BitVec 13) :
    funct3Of (packB op f3 rs1 rs2 off) = f3 := by
  apply BitVec.eq_of_getLsbD_eq; intro i hi
  interval_cases i <;> simp only [funct3Of, packB, BitVec.getLsbD_append, BitVec.getLsbD_extractLsb'] <;> simp

@[simp] theorem rs1Of_packB (op : BitVec 7) (f3 : BitVec 3) (rs1 rs2 : RegIdx) (off : BitVec 13) :
    rs1Of (packB op f3 rs1 rs2 off) = rs1 := by
  apply BitVec.eq_of_getLsbD_eq; intro i hi
  interval_cases i <;> simp only [rs1Of, packB, BitVec.getLsbD_append, BitVec.getLsbD_extractLsb'] <;> simp

@[simp] theorem rs2Of_packB (op : BitVec 7) (f3 : BitVec 3) (rs1 rs2 : RegIdx) (off : BitVec 13) :
    rs2Of (packB op f3 rs1 rs2 off) = rs2 := by
  apply BitVec.eq_of_getLsbD_eq; intro i hi
  interval_cases i <;> simp only [rs2Of, packB, BitVec.getLsbD_append, BitVec.getLsbD_extractLsb'] <;> simp

theorem immBOf_packB (op : BitVec 7) (f3 : BitVec 3) (rs1 rs2 : RegIdx) (off : BitVec 13) (h : evenOffset off = true) :
    immBOf (packB op f3 rs1 rs2 off) = off := by
  simp only [evenOffset, beq_iff_eq] at h
  apply BitVec.eq_of_getLsbD_eq; intro i hi
  interval_cases i <;> simp only [immBOf, packB, BitVec.getLsbD_append, BitVec.getLsbD_extractLsb'] <;> simp
  simpa using h

/-! ### packJ -/

@[simp] theorem opcodeOf_packJ (op : BitVec 7) (rd : RegIdx) (off : BitVec 21) :
    opcodeOf (packJ op rd off) = op := by
  apply BitVec.eq_of_getLsbD_eq; intro i hi
  interval_cases i <;> simp only [opcodeOf, packJ, BitVec.getLsbD_append, BitVec.getLsbD_extractLsb'] <;> simp

@[simp] theorem rdOf_packJ (op : BitVec 7) (rd : RegIdx) (off : BitVec 21) :
    rdOf (packJ op rd off) = rd := by
  apply BitVec.eq_of_getLsbD_eq; intro i hi
  interval_cases i <;> simp only [rdOf, packJ, BitVec.getLsbD_append, BitVec.getLsbD_extractLsb'] <;> simp

theorem immJOf_packJ (op : BitVec 7) (rd : RegIdx) (off : BitVec 21) (h : evenOffset off = true) :
    immJOf (packJ op rd off) = off := by
  simp only [evenOffset, beq_iff_eq] at h
  apply BitVec.eq_of_getLsbD_eq; intro i hi
  interval_cases i <;> simp only [immJOf, packJ, BitVec.getLsbD_append, BitVec.getLsbD_extractLsb'] <;> simp
  simpa using h

/-! ### A word is the packing of its own fields -/

theorem packI_fields (w : Word) : packI (opcodeOf w) (funct3Of w) (rdOf w) (rs1Of w) (immIOf w) = w := by
  apply BitVec.eq_of_getLsbD_eq; intro i hi
  interval_cases i <;> simp only [packI, opcodeOf, funct3Of, rdOf, rs1Of, immIOf, BitVec.getLsbD_append, BitVec.getLsbD_extractLsb'] <;> simp

theorem packR_fields (w : Word) : packR (opcodeOf w) (funct3Of w) (funct7Of w) (rdOf w) (rs1Of w) (rs2Of w) = w := by
  apply BitVec.eq_of_getLsbD_eq; intro i hi
  interval_cases i <;> simp only [packR, opcodeOf, funct3Of, funct7Of, rdOf, rs1Of, rs2Of, BitVec.getLsbD_append, BitVec.getLsbD_extractLsb'] <;> simp

theorem packU_fields (w : Word) : packU (opcodeOf w) (rdOf w) (immUOf w) = w := by
  apply BitVec.eq_of_getLsbD_eq; intro i hi
  interval_cases i <;> simp only [packU, opcodeOf, rdOf, immUOf, BitVec.getLsbD_append, BitVec.getLsbD_extractLsb'] <;> simp

theorem packS_fields (w : Word) : packS (opcodeOf w) (funct3Of w) (rs1Of w) (rs2Of w) (immSOf w) = w := by
  apply BitVec.eq_of_getLsbD_eq; intro i hi
  interval_cases i <;> simp only [packS, opcodeOf, funct3Of, rs1Of, rs2Of, immSOf, BitVec.getLsbD_append, BitVec.getLsbD_extractLsb'] <;> simp

theorem packB_fields (w : Word) : packB (opcodeOf w) (funct3Of w) (rs1Of w) (rs2Of w) (immBOf w) = w := by
  apply BitVec.eq_of_getLsbD_eq; intro i hi
  interval_cases i <;> simp only [packB, opcodeOf, funct3Of, rs1Of, rs2Of, immBOf, BitVec.getLsbD_append, BitVec.getLsbD_extractLsb'] <;> simp

theorem packJ_fields (w : Word) : packJ (opcodeOf w) (rdOf w) (immJOf w) = w := by
  apply BitVec.eq_of_getLsbD_eq; intro i hi
  interval_cases i <;> simp only [packJ, opcodeOf, rdOf, immJOf, BitVec.getLsbD_append, BitVec.getLsbD_extractLsb'] <;> simp

theorem evenOffset_immBOf (w : Word) : evenOffset (immBOf w) = true := by
  simp only [evenOffset, beq_iff_eq, immBOf, BitVec.getLsbD_append]; simp

theorem evenOffset_immJOf (w : Word) : evenOffset (immJOf w) = true := by
  simp only [evenOffset, beq_iff_eq, immJOf, BitVec.getLsbD_append]; simp

/-! ### SYSTEM words -/

@[simp] theorem opcodeOf_systemWord (rest : BitVec 25) : opcodeOf (rest ++ 0b1110011#7) = 0b1110011#7 := by
  apply BitVec.eq_of_getLsbD_eq; intro i hi
  interval_cases i <;> simp only [opcodeOf, BitVec.getLsbD_append, BitVec.getLsbD_extractLsb'] <;> simp

@[simp] theorem extract_systemWord (rest : BitVec 25) : (rest ++ 0b1110011#7).extractLsb' 7 25 = rest := by
  apply BitVec.eq_of_getLsbD_eq; intro i hi
  interval_cases i <;> simp only [BitVec.getLsbD_append, BitVec.getLsbD_extractLsb'] <;> simp

theorem systemWord_fields (w : Word) : (w.extractLsb' 7 25 ++ opcodeOf w : Word) = w := by
  apply BitVec.eq_of_getLsbD_eq; intro i hi
  interval_cases i <;> simp only [opcodeOf, BitVec.getLsbD_append, BitVec.getLsbD_extractLsb'] <;> simp

/-! ### Selectors -/

/-- The eight values of a `funct3` field. -/
theorem funct3_cases : ∀ f : BitVec 3,
    f = 0#3 ∨ f = 1#3 ∨ f = 2#3 ∨ f = 3#3 ∨ f = 4#3 ∨ f = 5#3 ∨ f = 6#3 ∨ f = 7#3 := by decide

/-- The opcode of a class (30_encoding.md R140; log 12). -/
def codeOf : OpClass → BitVec 7
  | .load => 0b0000011
  | .miscMem => 0b0001111
  | .opImm => 0b0010011
  | .auipc => 0b0010111
  | .store => 0b0100011
  | .op => 0b0110011
  | .lui => 0b0110111
  | .branch => 0b1100011
  | .jalr => 0b1100111
  | .jal => 0b1101111
  | .system => 0b1110011

/-- Each class has one opcode. -/
theorem classOf_eq_some (o : BitVec 7) (c : OpClass) : classOf o = some c ↔ o = codeOf c := by
  constructor
  · intro h
    unfold classOf at h
    split at h <;> simp at h <;> subst h <;> rfl
  · rintro rfl; cases c <;> rfl

/-- R150's list and the decoder reject the same words for the same reasons. -/
theorem nonCanonicalOf_eq (w : Word) :
    nonCanonicalOf w = match decodeWord w with | .nonCanonical why => some why | _ => none := by
  simp only [decodeWord, nonCanonicalOf]
  cases classOf (opcodeOf w) with
  | none => rfl
  | some c =>
    cases c <;> simp only [decodeLoad, decodeStore, decodeBranch, decodeJalr, decodeOp, decodeOpImm]
    case load => rcases funct3_cases (funct3Of w) with h | h | h | h | h | h | h | h <;> rw [h] <;> rfl
    case store => rcases funct3_cases (funct3Of w) with h | h | h | h | h | h | h | h <;> rw [h] <;> rfl
    case branch => rcases funct3_cases (funct3Of w) with h | h | h | h | h | h | h | h <;> rw [h] <;> rfl
    case jalr => rcases funct3_cases (funct3Of w) with h | h | h | h | h | h | h | h <;> rw [h] <;> rfl
    all_goals
      by_cases g0 : funct7Of w = 0#7
      · rw [g0]; rcases funct3_cases (funct3Of w) with h | h | h | h | h | h | h | h <;> rw [h] <;> rfl
      by_cases g1 : funct7Of w = 32#7
      · rw [g1]; rcases funct3_cases (funct3Of w) with h | h | h | h | h | h | h | h <;> rw [h] <;> rfl
      rcases funct3_cases (funct3Of w) with h | h | h | h | h | h | h | h <;> rw [h] <;> simp [g0, g1]

/-! ### Bytes -/

/-- Four bytes laid out lowest address first and read back make the word (20_memory.md R88). -/
theorem decodeBytes_word (w : Word) :
    decodeBytes [byteOfWord w 0, byteOfWord w 1, byteOfWord w 2, byteOfWord w 3] =
      some (decodeWord (wordOfBytes (byteOfWord w 0) (byteOfWord w 1) (byteOfWord w 2) (byteOfWord w 3)), []) := rfl

end Sys2Proof
end

