-- ==== Sys2Proof/Laws/Memory.lean ====
section
/-! SUPPORT. The reference target's memory: reads after writes, and that every memory operation keeps the canonical form
(20_memory.md R88). -/

namespace Sys2Proof.Machine

/-! ### One byte -/

/-- A byte read after a byte placed. -/
theorem memGet_memSet (m : Memory) (a b : Nat) (v : Byte) :
    memGet (memSet m a v) b = if b = a then some v else memGet m b := by
  induction m with
  | nil => simp [memSet, memGet, eq_comm]
  | cons c m ih =>
    obtain ⟨k, x⟩ := c
    by_cases h1 : a < k
    · simp only [memSet, h1, if_true, memGet]
      by_cases hb : b = a
      · subst hb; simp
      · simp [hb, Ne.symm hb]
    · by_cases h2 : a = k
      · subst h2
        simp only [memSet, lt_irrefl, if_false, if_true, memGet]
        by_cases hb : b = a
        · subst hb; simp
        · simp [hb, Ne.symm hb]
      · simp only [memSet, h1, h2, if_false, memGet, ih]
        by_cases hk : k = b
        · subst hk; simp [Ne.symm h2]
        · simp [hk]

/-- The same for what a byte address holds. -/
theorem byteAt_memSet (m : Memory) (a b : Nat) (v : Byte) :
    byteAt (memSet m a v) b = if b = a then v else byteAt m b := by
  by_cases h : b = a <;> simp [byteAt, memGet_memSet, h]

/-! ### Words -/

/-- A word's base is its aligned byte address (R88: `adr[1:0]` is ignored). -/
theorem wordBase_eq (adr : Word) : wordBase adr = 4 * (adr.toNat / 4) := by
  have := adr.isLt
  simp only [wordBase, BitVec.extractLsb'_toNat, Nat.shiftRight_eq_div_pow]
  omega

theorem wordBase_lt (adr : Word) : wordBase adr + 3 < 2 ^ 32 := by
  have := adr.isLt
  rw [wordBase_eq]; omega

/-- The bytes of a word make up the word. -/
@[simp] theorem wordOfBytes_byteOfWord (w : Word) :
    wordOfBytes (byteOfWord w 0) (byteOfWord w 1) (byteOfWord w 2) (byteOfWord w 3) = w := by
  apply BitVec.eq_of_getLsbD_eq
  intro i hi
  simp only [wordOfBytes, byteOfWord, BitVec.getLsbD_append, BitVec.getLsbD_extractLsb']
  by_cases h0 : i < 8
  · simp [h0]
  · by_cases h1 : i < 16
    · have : i - 8 < 8 := by omega
      simp [h0, this]; congr 1; omega
    · by_cases h2 : i < 24
      · have a : ¬ i - 8 < 8 := by omega
        have b : i - 8 - 8 < 8 := by omega
        simp [h0, a, b]; congr 1; omega
      · have a : ¬ i - 8 < 8 := by omega
        have b : ¬ i - 8 - 8 < 8 := by omega
        have c : i - 8 - 8 - 8 < 8 := by omega
        simp [h0, a, b, c]; congr 1; omega

/-- A byte after a word write: one of the four bytes of that word, or unchanged. -/
theorem byteAt_targetWrite (m : Memory) (adr d : Word) (b : Nat) :
    byteAt (targetWrite m adr d) b =
      if wordBase adr ≤ b ∧ b < wordBase adr + 4 then byteOfWord d (b - wordBase adr) else byteAt m b := by
  simp only [targetWrite, byteAt_memSet]
  by_cases h3 : b = wordBase adr + 3
  · subst h3; simp
  by_cases h2 : b = wordBase adr + 2
  · subst h2; simp
  by_cases h1 : b = wordBase adr + 1
  · subst h1; simp
  by_cases h0 : b = wordBase adr
  · subst h0; simp
  · have : ¬ (wordBase adr ≤ b ∧ b < wordBase adr + 4) := by omega
    simp [h0, h1, h2, h3, this]

/-- A word read after a word write (R88). -/
theorem targetRead_targetWrite (m : Memory) (adr d b : Word) :
    targetRead (targetWrite m adr d) b = if wordBase b = wordBase adr then d else targetRead m b := by
  have e := wordBase_eq adr
  have e' := wordBase_eq b
  by_cases h : wordBase b = wordBase adr
  · simp [targetRead, byteAt_targetWrite, h]
  · have k : ∀ j, j < 4 → ¬ (wordBase adr ≤ wordBase b + j ∧ wordBase b + j < wordBase adr + 4) := by
      intro j hj; omega
    have k0 := k 0 (by omega)
    rw [Nat.add_zero] at k0
    rw [if_neg h]
    simp only [targetRead, byteAt_targetWrite, if_neg k0, if_neg (k 1 (by omega)), if_neg (k 2 (by omega)),
      if_neg (k 3 (by omega))]

/-! ### The canonical form -/

/-- The first address of a sorted list is below every later one, so a smaller one may be put before it. -/
theorem memSorted_cons (a : Nat) (x : Byte) (m : Memory) :
    memSorted ((a, x) :: m) = true ↔ (∀ c ∈ m, a < c.1) ∧ memSorted m = true := by
  induction m generalizing a x with
  | nil => simp [memSorted]
  | cons c m ih =>
    obtain ⟨b, y⟩ := c
    simp only [memSorted, Bool.and_eq_true, decide_eq_true_eq, List.mem_cons, forall_eq_or_imp]
    constructor
    · rintro ⟨h, hs⟩
      refine ⟨⟨h, fun c hc => ?_⟩, hs⟩
      exact lt_trans h (((ih b y).1 hs).1 c hc)
    · rintro ⟨⟨h, -⟩, hs⟩
      exact ⟨h, hs⟩

theorem mem_memSet {m : Memory} {a : Nat} {v : Byte} {c : Host.Cell} (h : c ∈ memSet m a v) : c = (a, v) ∨ c ∈ m := by
  induction m with
  | nil => simpa [memSet] using h
  | cons d m ih =>
    obtain ⟨k, x⟩ := d
    simp only [memSet] at h
    split at h
    · simpa using h
    · split at h
      · rcases List.mem_cons.1 h with h | h
        · exact .inl h
        · exact .inr (List.mem_cons_of_mem _ h)
      · rcases List.mem_cons.1 h with h | h
        · exact .inr (h ▸ List.mem_cons_self)
        · exact (ih h).imp_right (List.mem_cons_of_mem _)

theorem memSorted_memSet {m : Memory} (a : Nat) (v : Byte) (h : memSorted m = true) : memSorted (memSet m a v) = true := by
  induction m with
  | nil => simp [memSet, memSorted]
  | cons d m ih =>
    obtain ⟨k, x⟩ := d
    obtain ⟨hk, hm⟩ := (memSorted_cons k x m).1 h
    simp only [memSet]
    split
    · rename_i hlt
      refine (memSorted_cons a v _).2 ⟨fun c hc => ?_, h⟩
      rcases List.mem_cons.1 hc with rfl | hc
      · exact hlt
      · exact lt_trans hlt (hk c hc)
    · split
      · rename_i heq
        exact (memSorted_cons a v m).2 ⟨heq ▸ hk, hm⟩
      · refine (memSorted_cons k x _).2 ⟨fun c hc => ?_, ih hm⟩
        rcases mem_memSet hc with rfl | hc
        · simp only; omega
        · exact hk c hc

/-- Placing a byte of the address space keeps the canonical form. -/
theorem memWf_memSet {m : Memory} {a : Nat} (v : Byte) (ha : a < 2 ^ 32) (h : memWf m = true) :
    memWf (memSet m a v) = true := by
  simp only [memWf, memInSpace, Bool.and_eq_true, List.all_eq_true, decide_eq_true_eq] at h ⊢
  refine ⟨memSorted_memSet a v h.1, fun c hc => ?_⟩
  rcases mem_memSet hc with rfl | hc
  · exact ha
  · exact h.2 c hc

/-- A word write keeps the canonical form. -/
theorem memWf_targetWrite {m : Memory} (adr d : Word) (h : memWf m = true) : memWf (targetWrite m adr d) = true := by
  have := wordBase_lt adr
  exact memWf_memSet _ (by omega) (memWf_memSet _ (by omega) (memWf_memSet _ (by omega) (memWf_memSet _ (by omega) h)))

theorem imageFrom_ge {a : Nat} {bs : List Byte} {c : Host.Cell} (h : c ∈ imageFrom a bs) : a ≤ c.1 ∧ c.1 < 2 ^ 32 := by
  induction bs generalizing a with
  | nil => simp [imageFrom] at h
  | cons b bs ih =>
    simp only [imageFrom] at h
    split at h
    · rename_i hlt
      rcases List.mem_cons.1 h with rfl | h
      · exact ⟨le_rfl, hlt⟩
      · exact ⟨by have := (ih h).1; omega, (ih h).2⟩
    · simp at h

/-- A program image placed at boot has the canonical form. -/
theorem memWf_imageFrom (a : Nat) (bs : List Byte) : memWf (imageFrom a bs) = true := by
  simp only [memWf, memInSpace, Bool.and_eq_true, List.all_eq_true, decide_eq_true_eq]
  refine ⟨?_, fun c hc => (imageFrom_ge hc).2⟩
  induction bs generalizing a with
  | nil => rfl
  | cons b bs ih =>
    simp only [imageFrom]
    split
    · exact (memSorted_cons a b _).2 ⟨fun c hc => by have := (imageFrom_ge hc).1; omega, ih (a + 1)⟩
    · rfl

/-- Memory at reset lists nothing, in the canonical form. -/
theorem memWf_reset : memWf State.reset.mem = true := by decide

end Sys2Proof.Machine
end

