-- ==== Sys2Proof/Laws/State.lean ====
section
/-! SUPPORT. What each named operation does to each field of State: one lemma per field per operation, so that no later
proof unfolds a record update. A field with no lemma here (`xs` and `written` under a register write) is spoken of through
`readReg` and `isWritten`: Laws/Registers.lean. -/

namespace Sys2Proof.Machine

/-! ### writeReg -/
@[simp] theorem writeReg_params (i : RegIdx) (v : Word) (s : State) : (writeReg i v s).params = s.params := rfl
@[simp] theorem writeReg_fsm (i : RegIdx) (v : Word) (s : State) : (writeReg i v s).fsm = s.fsm := rfl
@[simp] theorem writeReg_pc (i : RegIdx) (v : Word) (s : State) : (writeReg i v s).pc = s.pc := rfl
@[simp] theorem writeReg_ir (i : RegIdx) (v : Word) (s : State) : (writeReg i v s).ir = s.ir := rfl
@[simp] theorem writeReg_ldRd (i : RegIdx) (v : Word) (s : State) : (writeReg i v s).ldRd = s.ldRd := rfl
@[simp] theorem writeReg_ldSigned (i : RegIdx) (v : Word) (s : State) : (writeReg i v s).ldSigned = s.ldSigned := rfl
@[simp] theorem writeReg_ldWidth (i : RegIdx) (v : Word) (s : State) : (writeReg i v s).ldWidth = s.ldWidth := rfl
@[simp] theorem writeReg_cycO (i : RegIdx) (v : Word) (s : State) : (writeReg i v s).cycO = s.cycO := rfl
@[simp] theorem writeReg_stbO (i : RegIdx) (v : Word) (s : State) : (writeReg i v s).stbO = s.stbO := rfl
@[simp] theorem writeReg_weO (i : RegIdx) (v : Word) (s : State) : (writeReg i v s).weO = s.weO := rfl
@[simp] theorem writeReg_adrO (i : RegIdx) (v : Word) (s : State) : (writeReg i v s).adrO = s.adrO := rfl
@[simp] theorem writeReg_datO (i : RegIdx) (v : Word) (s : State) : (writeReg i v s).datO = s.datO := rfl
@[simp] theorem writeReg_lastWrIdx (i : RegIdx) (v : Word) (s : State) : (writeReg i v s).lastWrIdx = i := rfl
@[simp] theorem writeReg_lastWrVal (i : RegIdx) (v : Word) (s : State) : (writeReg i v s).lastWrVal = v := rfl
@[simp] theorem writeReg_gaps (i : RegIdx) (v : Word) (s : State) : (writeReg i v s).gaps = s.gaps := rfl
@[simp] theorem writeReg_refusalMark (i : RegIdx) (v : Word) (s : State) : (writeReg i v s).refusalMark = s.refusalMark := rfl
@[simp] theorem writeReg_trace (i : RegIdx) (v : Word) (s : State) : (writeReg i v s).trace = s.trace := rfl
@[simp] theorem writeReg_mem (i : RegIdx) (v : Word) (s : State) : (writeReg i v s).mem = s.mem := rfl
@[simp] theorem writeReg_freeIdx (i : RegIdx) (v : Word) (s : State) : (writeReg i v s).freeIdx = s.freeIdx := rfl

/-! ### recordGap -/
@[simp] theorem recordGap_params (k : Gap) (s : State) : (recordGap k s).params = s.params := rfl
@[simp] theorem recordGap_fsm (k : Gap) (s : State) : (recordGap k s).fsm = s.fsm := rfl
@[simp] theorem recordGap_pc (k : Gap) (s : State) : (recordGap k s).pc = s.pc := rfl
@[simp] theorem recordGap_xs (k : Gap) (s : State) : (recordGap k s).xs = s.xs := rfl
@[simp] theorem recordGap_written (k : Gap) (s : State) : (recordGap k s).written = s.written := rfl
@[simp] theorem recordGap_ir (k : Gap) (s : State) : (recordGap k s).ir = s.ir := rfl
@[simp] theorem recordGap_ldRd (k : Gap) (s : State) : (recordGap k s).ldRd = s.ldRd := rfl
@[simp] theorem recordGap_ldSigned (k : Gap) (s : State) : (recordGap k s).ldSigned = s.ldSigned := rfl
@[simp] theorem recordGap_ldWidth (k : Gap) (s : State) : (recordGap k s).ldWidth = s.ldWidth := rfl
@[simp] theorem recordGap_cycO (k : Gap) (s : State) : (recordGap k s).cycO = s.cycO := rfl
@[simp] theorem recordGap_stbO (k : Gap) (s : State) : (recordGap k s).stbO = s.stbO := rfl
@[simp] theorem recordGap_weO (k : Gap) (s : State) : (recordGap k s).weO = s.weO := rfl
@[simp] theorem recordGap_adrO (k : Gap) (s : State) : (recordGap k s).adrO = s.adrO := rfl
@[simp] theorem recordGap_datO (k : Gap) (s : State) : (recordGap k s).datO = s.datO := rfl
@[simp] theorem recordGap_lastWrIdx (k : Gap) (s : State) : (recordGap k s).lastWrIdx = s.lastWrIdx := rfl
@[simp] theorem recordGap_lastWrVal (k : Gap) (s : State) : (recordGap k s).lastWrVal = s.lastWrVal := rfl
@[simp] theorem recordGap_gaps (k : Gap) (s : State) : (recordGap k s).gaps = addGap k s.gaps := rfl
@[simp] theorem recordGap_refusalMark (k : Gap) (s : State) : (recordGap k s).refusalMark = s.refusalMark := rfl
@[simp] theorem recordGap_trace (k : Gap) (s : State) : (recordGap k s).trace = s.trace := rfl
@[simp] theorem recordGap_mem (k : Gap) (s : State) : (recordGap k s).mem = s.mem := rfl
@[simp] theorem recordGap_freeIdx (k : Gap) (s : State) : (recordGap k s).freeIdx = s.freeIdx := rfl

/-! ### recordGapIf -/
@[simp] theorem recordGapIf_params (c : Bool) (k : Gap) (s : State) : (recordGapIf c k s).params = s.params := by cases c <;> rfl
@[simp] theorem recordGapIf_fsm (c : Bool) (k : Gap) (s : State) : (recordGapIf c k s).fsm = s.fsm := by cases c <;> rfl
@[simp] theorem recordGapIf_pc (c : Bool) (k : Gap) (s : State) : (recordGapIf c k s).pc = s.pc := by cases c <;> rfl
@[simp] theorem recordGapIf_xs (c : Bool) (k : Gap) (s : State) : (recordGapIf c k s).xs = s.xs := by cases c <;> rfl
@[simp] theorem recordGapIf_written (c : Bool) (k : Gap) (s : State) : (recordGapIf c k s).written = s.written := by cases c <;> rfl
@[simp] theorem recordGapIf_ir (c : Bool) (k : Gap) (s : State) : (recordGapIf c k s).ir = s.ir := by cases c <;> rfl
@[simp] theorem recordGapIf_ldRd (c : Bool) (k : Gap) (s : State) : (recordGapIf c k s).ldRd = s.ldRd := by cases c <;> rfl
@[simp] theorem recordGapIf_ldSigned (c : Bool) (k : Gap) (s : State) : (recordGapIf c k s).ldSigned = s.ldSigned := by cases c <;> rfl
@[simp] theorem recordGapIf_ldWidth (c : Bool) (k : Gap) (s : State) : (recordGapIf c k s).ldWidth = s.ldWidth := by cases c <;> rfl
@[simp] theorem recordGapIf_cycO (c : Bool) (k : Gap) (s : State) : (recordGapIf c k s).cycO = s.cycO := by cases c <;> rfl
@[simp] theorem recordGapIf_stbO (c : Bool) (k : Gap) (s : State) : (recordGapIf c k s).stbO = s.stbO := by cases c <;> rfl
@[simp] theorem recordGapIf_weO (c : Bool) (k : Gap) (s : State) : (recordGapIf c k s).weO = s.weO := by cases c <;> rfl
@[simp] theorem recordGapIf_adrO (c : Bool) (k : Gap) (s : State) : (recordGapIf c k s).adrO = s.adrO := by cases c <;> rfl
@[simp] theorem recordGapIf_datO (c : Bool) (k : Gap) (s : State) : (recordGapIf c k s).datO = s.datO := by cases c <;> rfl
@[simp] theorem recordGapIf_lastWrIdx (c : Bool) (k : Gap) (s : State) : (recordGapIf c k s).lastWrIdx = s.lastWrIdx := by cases c <;> rfl
@[simp] theorem recordGapIf_lastWrVal (c : Bool) (k : Gap) (s : State) : (recordGapIf c k s).lastWrVal = s.lastWrVal := by cases c <;> rfl
@[simp] theorem recordGapIf_gaps (c : Bool) (k : Gap) (s : State) : (recordGapIf c k s).gaps = if c then addGap k s.gaps else s.gaps := by cases c <;> rfl
@[simp] theorem recordGapIf_refusalMark (c : Bool) (k : Gap) (s : State) : (recordGapIf c k s).refusalMark = s.refusalMark := by cases c <;> rfl
@[simp] theorem recordGapIf_trace (c : Bool) (k : Gap) (s : State) : (recordGapIf c k s).trace = s.trace := by cases c <;> rfl
@[simp] theorem recordGapIf_mem (c : Bool) (k : Gap) (s : State) : (recordGapIf c k s).mem = s.mem := by cases c <;> rfl
@[simp] theorem recordGapIf_freeIdx (c : Bool) (k : Gap) (s : State) : (recordGapIf c k s).freeIdx = s.freeIdx := by cases c <;> rfl

/-! ### advance -/
@[simp] theorem advance_params (s : State) : (advance s).params = s.params := rfl
@[simp] theorem advance_fsm (s : State) : (advance s).fsm = .readPc := rfl
@[simp] theorem advance_pc (s : State) : (advance s).pc = s.pc + 4 := rfl
@[simp] theorem advance_xs (s : State) : (advance s).xs = s.xs := rfl
@[simp] theorem advance_written (s : State) : (advance s).written = s.written := rfl
@[simp] theorem advance_ir (s : State) : (advance s).ir = s.ir := rfl
@[simp] theorem advance_ldRd (s : State) : (advance s).ldRd = s.ldRd := rfl
@[simp] theorem advance_ldSigned (s : State) : (advance s).ldSigned = s.ldSigned := rfl
@[simp] theorem advance_ldWidth (s : State) : (advance s).ldWidth = s.ldWidth := rfl
@[simp] theorem advance_cycO (s : State) : (advance s).cycO = s.cycO := rfl
@[simp] theorem advance_stbO (s : State) : (advance s).stbO = s.stbO := rfl
@[simp] theorem advance_weO (s : State) : (advance s).weO = s.weO := rfl
@[simp] theorem advance_adrO (s : State) : (advance s).adrO = s.adrO := rfl
@[simp] theorem advance_datO (s : State) : (advance s).datO = s.datO := rfl
@[simp] theorem advance_lastWrIdx (s : State) : (advance s).lastWrIdx = s.lastWrIdx := rfl
@[simp] theorem advance_lastWrVal (s : State) : (advance s).lastWrVal = s.lastWrVal := rfl
@[simp] theorem advance_gaps (s : State) : (advance s).gaps = s.gaps := rfl
@[simp] theorem advance_refusalMark (s : State) : (advance s).refusalMark = s.refusalMark := rfl
@[simp] theorem advance_trace (s : State) : (advance s).trace = s.trace := rfl
@[simp] theorem advance_mem (s : State) : (advance s).mem = s.mem := rfl
@[simp] theorem advance_freeIdx (s : State) : (advance s).freeIdx = s.freeIdx := rfl

/-! ### jumpTo -/
@[simp] theorem jumpTo_params (t : Word) (s : State) : (jumpTo t s).params = s.params := by simp [jumpTo]
@[simp] theorem jumpTo_fsm (t : Word) (s : State) : (jumpTo t s).fsm = .readPc := by simp [jumpTo]
@[simp] theorem jumpTo_pc (t : Word) (s : State) : (jumpTo t s).pc = t := by simp [jumpTo]
@[simp] theorem jumpTo_xs (t : Word) (s : State) : (jumpTo t s).xs = s.xs := by simp [jumpTo]
@[simp] theorem jumpTo_written (t : Word) (s : State) : (jumpTo t s).written = s.written := by simp [jumpTo]
@[simp] theorem jumpTo_ir (t : Word) (s : State) : (jumpTo t s).ir = s.ir := by simp [jumpTo]
@[simp] theorem jumpTo_ldRd (t : Word) (s : State) : (jumpTo t s).ldRd = s.ldRd := by simp [jumpTo]
@[simp] theorem jumpTo_ldSigned (t : Word) (s : State) : (jumpTo t s).ldSigned = s.ldSigned := by simp [jumpTo]
@[simp] theorem jumpTo_ldWidth (t : Word) (s : State) : (jumpTo t s).ldWidth = s.ldWidth := by simp [jumpTo]
@[simp] theorem jumpTo_cycO (t : Word) (s : State) : (jumpTo t s).cycO = s.cycO := by simp [jumpTo]
@[simp] theorem jumpTo_stbO (t : Word) (s : State) : (jumpTo t s).stbO = s.stbO := by simp [jumpTo]
@[simp] theorem jumpTo_weO (t : Word) (s : State) : (jumpTo t s).weO = s.weO := by simp [jumpTo]
@[simp] theorem jumpTo_adrO (t : Word) (s : State) : (jumpTo t s).adrO = s.adrO := by simp [jumpTo]
@[simp] theorem jumpTo_datO (t : Word) (s : State) : (jumpTo t s).datO = s.datO := by simp [jumpTo]
@[simp] theorem jumpTo_lastWrIdx (t : Word) (s : State) : (jumpTo t s).lastWrIdx = s.lastWrIdx := by simp [jumpTo]
@[simp] theorem jumpTo_lastWrVal (t : Word) (s : State) : (jumpTo t s).lastWrVal = s.lastWrVal := by simp [jumpTo]
@[simp] theorem jumpTo_gaps (t : Word) (s : State) :
    (jumpTo t s).gaps = if offWord t then addGap .misalignedTarget s.gaps else s.gaps := by simp [jumpTo]
@[simp] theorem jumpTo_refusalMark (t : Word) (s : State) : (jumpTo t s).refusalMark = s.refusalMark := by simp [jumpTo]
@[simp] theorem jumpTo_trace (t : Word) (s : State) : (jumpTo t s).trace = s.trace := by simp [jumpTo]
@[simp] theorem jumpTo_mem (t : Word) (s : State) : (jumpTo t s).mem = s.mem := by simp [jumpTo]
@[simp] theorem jumpTo_freeIdx (t : Word) (s : State) : (jumpTo t s).freeIdx = s.freeIdx := by simp [jumpTo]

/-! ### issueRead -/
@[simp] theorem issueRead_params (a : Word) (s : State) : (issueRead a s).params = s.params := rfl
@[simp] theorem issueRead_fsm (a : Word) (s : State) : (issueRead a s).fsm = s.fsm := rfl
@[simp] theorem issueRead_pc (a : Word) (s : State) : (issueRead a s).pc = s.pc := rfl
@[simp] theorem issueRead_xs (a : Word) (s : State) : (issueRead a s).xs = s.xs := rfl
@[simp] theorem issueRead_written (a : Word) (s : State) : (issueRead a s).written = s.written := rfl
@[simp] theorem issueRead_ir (a : Word) (s : State) : (issueRead a s).ir = s.ir := rfl
@[simp] theorem issueRead_ldRd (a : Word) (s : State) : (issueRead a s).ldRd = s.ldRd := rfl
@[simp] theorem issueRead_ldSigned (a : Word) (s : State) : (issueRead a s).ldSigned = s.ldSigned := rfl
@[simp] theorem issueRead_ldWidth (a : Word) (s : State) : (issueRead a s).ldWidth = s.ldWidth := rfl
@[simp] theorem issueRead_cycO (a : Word) (s : State) : (issueRead a s).cycO = true := rfl
@[simp] theorem issueRead_stbO (a : Word) (s : State) : (issueRead a s).stbO = true := rfl
@[simp] theorem issueRead_weO (a : Word) (s : State) : (issueRead a s).weO = false := rfl
@[simp] theorem issueRead_adrO (a : Word) (s : State) : (issueRead a s).adrO = a := rfl
@[simp] theorem issueRead_datO (a : Word) (s : State) : (issueRead a s).datO = Config.readDatO s.freeIdx := rfl
@[simp] theorem issueRead_lastWrIdx (a : Word) (s : State) : (issueRead a s).lastWrIdx = s.lastWrIdx := rfl
@[simp] theorem issueRead_lastWrVal (a : Word) (s : State) : (issueRead a s).lastWrVal = s.lastWrVal := rfl
@[simp] theorem issueRead_gaps (a : Word) (s : State) : (issueRead a s).gaps = s.gaps := rfl
@[simp] theorem issueRead_refusalMark (a : Word) (s : State) : (issueRead a s).refusalMark = s.refusalMark := rfl
@[simp] theorem issueRead_trace (a : Word) (s : State) : (issueRead a s).trace = s.trace := rfl
@[simp] theorem issueRead_mem (a : Word) (s : State) : (issueRead a s).mem = s.mem := rfl
@[simp] theorem issueRead_freeIdx (a : Word) (s : State) : (issueRead a s).freeIdx = s.freeIdx + 1 := rfl

/-! ### issueWrite -/
@[simp] theorem issueWrite_params (a d : Word) (s : State) : (issueWrite a d s).params = s.params := rfl
@[simp] theorem issueWrite_fsm (a d : Word) (s : State) : (issueWrite a d s).fsm = s.fsm := rfl
@[simp] theorem issueWrite_pc (a d : Word) (s : State) : (issueWrite a d s).pc = s.pc := rfl
@[simp] theorem issueWrite_xs (a d : Word) (s : State) : (issueWrite a d s).xs = s.xs := rfl
@[simp] theorem issueWrite_written (a d : Word) (s : State) : (issueWrite a d s).written = s.written := rfl
@[simp] theorem issueWrite_ir (a d : Word) (s : State) : (issueWrite a d s).ir = s.ir := rfl
@[simp] theorem issueWrite_ldRd (a d : Word) (s : State) : (issueWrite a d s).ldRd = s.ldRd := rfl
@[simp] theorem issueWrite_ldSigned (a d : Word) (s : State) : (issueWrite a d s).ldSigned = s.ldSigned := rfl
@[simp] theorem issueWrite_ldWidth (a d : Word) (s : State) : (issueWrite a d s).ldWidth = s.ldWidth := rfl
@[simp] theorem issueWrite_cycO (a d : Word) (s : State) : (issueWrite a d s).cycO = true := rfl
@[simp] theorem issueWrite_stbO (a d : Word) (s : State) : (issueWrite a d s).stbO = true := rfl
@[simp] theorem issueWrite_weO (a d : Word) (s : State) : (issueWrite a d s).weO = true := rfl
@[simp] theorem issueWrite_adrO (a d : Word) (s : State) : (issueWrite a d s).adrO = a := rfl
@[simp] theorem issueWrite_datO (a d : Word) (s : State) : (issueWrite a d s).datO = d := rfl
@[simp] theorem issueWrite_lastWrIdx (a d : Word) (s : State) : (issueWrite a d s).lastWrIdx = s.lastWrIdx := rfl
@[simp] theorem issueWrite_lastWrVal (a d : Word) (s : State) : (issueWrite a d s).lastWrVal = s.lastWrVal := rfl
@[simp] theorem issueWrite_gaps (a d : Word) (s : State) : (issueWrite a d s).gaps = s.gaps := rfl
@[simp] theorem issueWrite_refusalMark (a d : Word) (s : State) : (issueWrite a d s).refusalMark = s.refusalMark := rfl
@[simp] theorem issueWrite_trace (a d : Word) (s : State) : (issueWrite a d s).trace = s.trace := rfl
@[simp] theorem issueWrite_mem (a d : Word) (s : State) : (issueWrite a d s).mem = s.mem := rfl
@[simp] theorem issueWrite_freeIdx (a d : Word) (s : State) : (issueWrite a d s).freeIdx = s.freeIdx := rfl

/-! ### completeBus -/
@[simp] theorem completeBus_params (t : Transaction) (s : State) : (completeBus t s).params = s.params := rfl
@[simp] theorem completeBus_fsm (t : Transaction) (s : State) : (completeBus t s).fsm = s.fsm := rfl
@[simp] theorem completeBus_pc (t : Transaction) (s : State) : (completeBus t s).pc = s.pc := rfl
@[simp] theorem completeBus_xs (t : Transaction) (s : State) : (completeBus t s).xs = s.xs := rfl
@[simp] theorem completeBus_written (t : Transaction) (s : State) : (completeBus t s).written = s.written := rfl
@[simp] theorem completeBus_ir (t : Transaction) (s : State) : (completeBus t s).ir = s.ir := rfl
@[simp] theorem completeBus_ldRd (t : Transaction) (s : State) : (completeBus t s).ldRd = s.ldRd := rfl
@[simp] theorem completeBus_ldSigned (t : Transaction) (s : State) : (completeBus t s).ldSigned = s.ldSigned := rfl
@[simp] theorem completeBus_ldWidth (t : Transaction) (s : State) : (completeBus t s).ldWidth = s.ldWidth := rfl
@[simp] theorem completeBus_cycO (t : Transaction) (s : State) : (completeBus t s).cycO = false := rfl
@[simp] theorem completeBus_stbO (t : Transaction) (s : State) : (completeBus t s).stbO = false := rfl
@[simp] theorem completeBus_weO (t : Transaction) (s : State) : (completeBus t s).weO = s.weO := rfl
@[simp] theorem completeBus_adrO (t : Transaction) (s : State) : (completeBus t s).adrO = s.adrO := rfl
@[simp] theorem completeBus_datO (t : Transaction) (s : State) : (completeBus t s).datO = s.datO := rfl
@[simp] theorem completeBus_lastWrIdx (t : Transaction) (s : State) : (completeBus t s).lastWrIdx = s.lastWrIdx := rfl
@[simp] theorem completeBus_lastWrVal (t : Transaction) (s : State) : (completeBus t s).lastWrVal = s.lastWrVal := rfl
@[simp] theorem completeBus_gaps (t : Transaction) (s : State) : (completeBus t s).gaps = s.gaps := rfl
@[simp] theorem completeBus_refusalMark (t : Transaction) (s : State) : (completeBus t s).refusalMark = s.refusalMark := rfl
@[simp] theorem completeBus_trace (t : Transaction) (s : State) : (completeBus t s).trace = s.trace ++ [t] := rfl
@[simp] theorem completeBus_mem (t : Transaction) (s : State) : (completeBus t s).mem = s.mem := rfl
@[simp] theorem completeBus_freeIdx (t : Transaction) (s : State) : (completeBus t s).freeIdx = s.freeIdx := rfl

/-! ### beginFetch -/
@[simp] theorem beginFetch_params (s : State) : (beginFetch s).params = s.params := rfl
@[simp] theorem beginFetch_fsm (s : State) : (beginFetch s).fsm = .loadPc := rfl
@[simp] theorem beginFetch_pc (s : State) : (beginFetch s).pc = s.pc := rfl
@[simp] theorem beginFetch_xs (s : State) : (beginFetch s).xs = s.xs := rfl
@[simp] theorem beginFetch_written (s : State) : (beginFetch s).written = s.written := rfl
@[simp] theorem beginFetch_ir (s : State) : (beginFetch s).ir = s.ir := rfl
@[simp] theorem beginFetch_ldRd (s : State) : (beginFetch s).ldRd = s.ldRd := rfl
@[simp] theorem beginFetch_ldSigned (s : State) : (beginFetch s).ldSigned = s.ldSigned := rfl
@[simp] theorem beginFetch_ldWidth (s : State) : (beginFetch s).ldWidth = s.ldWidth := rfl
@[simp] theorem beginFetch_cycO (s : State) : (beginFetch s).cycO = true := rfl
@[simp] theorem beginFetch_stbO (s : State) : (beginFetch s).stbO = true := rfl
@[simp] theorem beginFetch_weO (s : State) : (beginFetch s).weO = false := rfl
@[simp] theorem beginFetch_adrO (s : State) : (beginFetch s).adrO = s.pc := rfl
@[simp] theorem beginFetch_datO (s : State) : (beginFetch s).datO = Config.readDatO s.freeIdx := rfl
@[simp] theorem beginFetch_lastWrIdx (s : State) : (beginFetch s).lastWrIdx = s.lastWrIdx := rfl
@[simp] theorem beginFetch_lastWrVal (s : State) : (beginFetch s).lastWrVal = s.lastWrVal := rfl
@[simp] theorem beginFetch_gaps (s : State) : (beginFetch s).gaps = s.gaps := rfl
@[simp] theorem beginFetch_refusalMark (s : State) : (beginFetch s).refusalMark = s.refusalMark := rfl
@[simp] theorem beginFetch_trace (s : State) : (beginFetch s).trace = s.trace := rfl
@[simp] theorem beginFetch_mem (s : State) : (beginFetch s).mem = s.mem := rfl
@[simp] theorem beginFetch_freeIdx (s : State) : (beginFetch s).freeIdx = s.freeIdx + 1 := rfl

/-! ### endFetch -/
@[simp] theorem endFetch_params (w : Word) (s : State) : (endFetch w s).params = s.params := rfl
@[simp] theorem endFetch_fsm (w : Word) (s : State) : (endFetch w s).fsm = .decode := rfl
@[simp] theorem endFetch_pc (w : Word) (s : State) : (endFetch w s).pc = s.pc := rfl
@[simp] theorem endFetch_xs (w : Word) (s : State) : (endFetch w s).xs = s.xs := rfl
@[simp] theorem endFetch_written (w : Word) (s : State) : (endFetch w s).written = s.written := rfl
@[simp] theorem endFetch_ir (w : Word) (s : State) : (endFetch w s).ir = w := rfl
@[simp] theorem endFetch_ldRd (w : Word) (s : State) : (endFetch w s).ldRd = s.ldRd := rfl
@[simp] theorem endFetch_ldSigned (w : Word) (s : State) : (endFetch w s).ldSigned = s.ldSigned := rfl
@[simp] theorem endFetch_ldWidth (w : Word) (s : State) : (endFetch w s).ldWidth = s.ldWidth := rfl
@[simp] theorem endFetch_cycO (w : Word) (s : State) : (endFetch w s).cycO = false := rfl
@[simp] theorem endFetch_stbO (w : Word) (s : State) : (endFetch w s).stbO = false := rfl
@[simp] theorem endFetch_weO (w : Word) (s : State) : (endFetch w s).weO = s.weO := rfl
@[simp] theorem endFetch_adrO (w : Word) (s : State) : (endFetch w s).adrO = s.adrO := rfl
@[simp] theorem endFetch_datO (w : Word) (s : State) : (endFetch w s).datO = s.datO := rfl
@[simp] theorem endFetch_lastWrIdx (w : Word) (s : State) : (endFetch w s).lastWrIdx = s.lastWrIdx := rfl
@[simp] theorem endFetch_lastWrVal (w : Word) (s : State) : (endFetch w s).lastWrVal = s.lastWrVal := rfl
@[simp] theorem endFetch_gaps (w : Word) (s : State) : (endFetch w s).gaps = s.gaps := rfl
@[simp] theorem endFetch_refusalMark (w : Word) (s : State) : (endFetch w s).refusalMark = s.refusalMark := rfl
@[simp] theorem endFetch_trace (w : Word) (s : State) :
    (endFetch w s).trace = s.trace ++ [{ kind := .fetch, adr := s.adrO, we := false, wdata := none, rdata := some w }] := rfl
@[simp] theorem endFetch_mem (w : Word) (s : State) : (endFetch w s).mem = s.mem := rfl
@[simp] theorem endFetch_freeIdx (w : Word) (s : State) : (endFetch w s).freeIdx = s.freeIdx := rfl

/-! ### beginLoad -/
@[simp] theorem beginLoad_params (rd : RegIdx) (w : Width) (g : Bool) (ea : Word) (s : State) : (beginLoad rd w g ea s).params = s.params := by simp [beginLoad]
@[simp] theorem beginLoad_fsm (rd : RegIdx) (w : Width) (g : Bool) (ea : Word) (s : State) : (beginLoad rd w g ea s).fsm = .load := by simp [beginLoad]
@[simp] theorem beginLoad_pc (rd : RegIdx) (w : Width) (g : Bool) (ea : Word) (s : State) : (beginLoad rd w g ea s).pc = s.pc + 4 := by simp [beginLoad]
@[simp] theorem beginLoad_xs (rd : RegIdx) (w : Width) (g : Bool) (ea : Word) (s : State) : (beginLoad rd w g ea s).xs = s.xs := by simp [beginLoad]
@[simp] theorem beginLoad_written (rd : RegIdx) (w : Width) (g : Bool) (ea : Word) (s : State) : (beginLoad rd w g ea s).written = s.written := by simp [beginLoad]
@[simp] theorem beginLoad_ir (rd : RegIdx) (w : Width) (g : Bool) (ea : Word) (s : State) : (beginLoad rd w g ea s).ir = s.ir := by simp [beginLoad]
@[simp] theorem beginLoad_ldRd (rd : RegIdx) (w : Width) (g : Bool) (ea : Word) (s : State) : (beginLoad rd w g ea s).ldRd = rd := by simp [beginLoad]
@[simp] theorem beginLoad_ldSigned (rd : RegIdx) (w : Width) (g : Bool) (ea : Word) (s : State) : (beginLoad rd w g ea s).ldSigned = g := by simp [beginLoad]
@[simp] theorem beginLoad_ldWidth (rd : RegIdx) (w : Width) (g : Bool) (ea : Word) (s : State) : (beginLoad rd w g ea s).ldWidth = w := by simp [beginLoad]
@[simp] theorem beginLoad_cycO (rd : RegIdx) (w : Width) (g : Bool) (ea : Word) (s : State) : (beginLoad rd w g ea s).cycO = true := by simp [beginLoad]
@[simp] theorem beginLoad_stbO (rd : RegIdx) (w : Width) (g : Bool) (ea : Word) (s : State) : (beginLoad rd w g ea s).stbO = true := by simp [beginLoad]
@[simp] theorem beginLoad_weO (rd : RegIdx) (w : Width) (g : Bool) (ea : Word) (s : State) : (beginLoad rd w g ea s).weO = false := by simp [beginLoad]
@[simp] theorem beginLoad_adrO (rd : RegIdx) (w : Width) (g : Bool) (ea : Word) (s : State) : (beginLoad rd w g ea s).adrO = ea := by simp [beginLoad]
@[simp] theorem beginLoad_datO (rd : RegIdx) (w : Width) (g : Bool) (ea : Word) (s : State) : (beginLoad rd w g ea s).datO = Config.readDatO s.freeIdx := by simp [beginLoad]
@[simp] theorem beginLoad_lastWrIdx (rd : RegIdx) (w : Width) (g : Bool) (ea : Word) (s : State) : (beginLoad rd w g ea s).lastWrIdx = s.lastWrIdx := by simp [beginLoad]
@[simp] theorem beginLoad_lastWrVal (rd : RegIdx) (w : Width) (g : Bool) (ea : Word) (s : State) : (beginLoad rd w g ea s).lastWrVal = s.lastWrVal := by simp [beginLoad]
@[simp] theorem beginLoad_gaps (rd : RegIdx) (w : Width) (g : Bool) (ea : Word) (s : State) : (beginLoad rd w g ea s).gaps = if offWord ea then addGap .dataOffset s.gaps else s.gaps := by simp [beginLoad]
@[simp] theorem beginLoad_refusalMark (rd : RegIdx) (w : Width) (g : Bool) (ea : Word) (s : State) : (beginLoad rd w g ea s).refusalMark = s.refusalMark := by simp [beginLoad]
@[simp] theorem beginLoad_trace (rd : RegIdx) (w : Width) (g : Bool) (ea : Word) (s : State) : (beginLoad rd w g ea s).trace = s.trace := by simp [beginLoad]
@[simp] theorem beginLoad_mem (rd : RegIdx) (w : Width) (g : Bool) (ea : Word) (s : State) : (beginLoad rd w g ea s).mem = s.mem := by simp [beginLoad]
@[simp] theorem beginLoad_freeIdx (rd : RegIdx) (w : Width) (g : Bool) (ea : Word) (s : State) : (beginLoad rd w g ea s).freeIdx = s.freeIdx + 1 := by simp [beginLoad]

/-! ### endLoad -/
@[simp] theorem endLoad_params (r : Word) (s : State) : (endLoad r s).params = s.params := rfl
@[simp] theorem endLoad_fsm (r : Word) (s : State) : (endLoad r s).fsm = .readPc := rfl
@[simp] theorem endLoad_pc (r : Word) (s : State) : (endLoad r s).pc = s.pc := rfl
@[simp] theorem endLoad_ir (r : Word) (s : State) : (endLoad r s).ir = s.ir := rfl
@[simp] theorem endLoad_ldRd (r : Word) (s : State) : (endLoad r s).ldRd = s.ldRd := rfl
@[simp] theorem endLoad_ldSigned (r : Word) (s : State) : (endLoad r s).ldSigned = s.ldSigned := rfl
@[simp] theorem endLoad_ldWidth (r : Word) (s : State) : (endLoad r s).ldWidth = s.ldWidth := rfl
@[simp] theorem endLoad_cycO (r : Word) (s : State) : (endLoad r s).cycO = false := rfl
@[simp] theorem endLoad_stbO (r : Word) (s : State) : (endLoad r s).stbO = false := rfl
@[simp] theorem endLoad_weO (r : Word) (s : State) : (endLoad r s).weO = s.weO := rfl
@[simp] theorem endLoad_adrO (r : Word) (s : State) : (endLoad r s).adrO = s.adrO := rfl
@[simp] theorem endLoad_datO (r : Word) (s : State) : (endLoad r s).datO = s.datO := rfl
@[simp] theorem endLoad_lastWrIdx (r : Word) (s : State) : (endLoad r s).lastWrIdx = s.ldRd := rfl
@[simp] theorem endLoad_lastWrVal (r : Word) (s : State) : (endLoad r s).lastWrVal = adjust r s.ldWidth s.ldSigned := rfl
@[simp] theorem endLoad_gaps (r : Word) (s : State) : (endLoad r s).gaps = s.gaps := rfl
@[simp] theorem endLoad_refusalMark (r : Word) (s : State) : (endLoad r s).refusalMark = s.refusalMark := rfl
@[simp] theorem endLoad_trace (r : Word) (s : State) :
    (endLoad r s).trace = s.trace ++ [{ kind := .load, adr := s.adrO, we := false, wdata := none, rdata := some r }] := rfl
@[simp] theorem endLoad_mem (r : Word) (s : State) : (endLoad r s).mem = s.mem := rfl
@[simp] theorem endLoad_freeIdx (r : Word) (s : State) : (endLoad r s).freeIdx = s.freeIdx := rfl

/-! ### beginStore -/
@[simp] theorem beginStore_params (n : Bool) (ea d : Word) (s : State) : (beginStore n ea d s).params = s.params := by simp [beginStore]
@[simp] theorem beginStore_fsm (n : Bool) (ea d : Word) (s : State) : (beginStore n ea d s).fsm = .store := by simp [beginStore]
@[simp] theorem beginStore_pc (n : Bool) (ea d : Word) (s : State) : (beginStore n ea d s).pc = s.pc + 4 := by simp [beginStore]
@[simp] theorem beginStore_xs (n : Bool) (ea d : Word) (s : State) : (beginStore n ea d s).xs = s.xs := by simp [beginStore]
@[simp] theorem beginStore_written (n : Bool) (ea d : Word) (s : State) : (beginStore n ea d s).written = s.written := by simp [beginStore]
@[simp] theorem beginStore_ir (n : Bool) (ea d : Word) (s : State) : (beginStore n ea d s).ir = s.ir := by simp [beginStore]
@[simp] theorem beginStore_ldRd (n : Bool) (ea d : Word) (s : State) : (beginStore n ea d s).ldRd = s.ldRd := by simp [beginStore]
@[simp] theorem beginStore_ldSigned (n : Bool) (ea d : Word) (s : State) : (beginStore n ea d s).ldSigned = s.ldSigned := by simp [beginStore]
@[simp] theorem beginStore_ldWidth (n : Bool) (ea d : Word) (s : State) : (beginStore n ea d s).ldWidth = s.ldWidth := by simp [beginStore]
@[simp] theorem beginStore_cycO (n : Bool) (ea d : Word) (s : State) : (beginStore n ea d s).cycO = true := by simp [beginStore]
@[simp] theorem beginStore_stbO (n : Bool) (ea d : Word) (s : State) : (beginStore n ea d s).stbO = true := by simp [beginStore]
@[simp] theorem beginStore_weO (n : Bool) (ea d : Word) (s : State) : (beginStore n ea d s).weO = true := by simp [beginStore]
@[simp] theorem beginStore_adrO (n : Bool) (ea d : Word) (s : State) : (beginStore n ea d s).adrO = ea := by simp [beginStore]
@[simp] theorem beginStore_datO (n : Bool) (ea d : Word) (s : State) : (beginStore n ea d s).datO = d := by simp [beginStore]
@[simp] theorem beginStore_lastWrIdx (n : Bool) (ea d : Word) (s : State) : (beginStore n ea d s).lastWrIdx = s.lastWrIdx := by simp [beginStore]
@[simp] theorem beginStore_lastWrVal (n : Bool) (ea d : Word) (s : State) : (beginStore n ea d s).lastWrVal = s.lastWrVal := by simp [beginStore]
@[simp] theorem beginStore_refusalMark (n : Bool) (ea d : Word) (s : State) : (beginStore n ea d s).refusalMark = s.refusalMark := by simp [beginStore]
@[simp] theorem beginStore_trace (n : Bool) (ea d : Word) (s : State) : (beginStore n ea d s).trace = s.trace := by simp [beginStore]
@[simp] theorem beginStore_mem (n : Bool) (ea d : Word) (s : State) : (beginStore n ea d s).mem = s.mem := by simp [beginStore]
@[simp] theorem beginStore_freeIdx (n : Bool) (ea d : Word) (s : State) : (beginStore n ea d s).freeIdx = s.freeIdx := by simp [beginStore]
@[simp] theorem beginStore_gaps (n : Bool) (ea d : Word) (s : State) :
    (beginStore n ea d s).gaps =
      (recordGapIf n .narrowStore (recordGapIf (offWord ea) .dataOffset s)).gaps := by simp [beginStore]

/-! ### endStore -/
@[simp] theorem endStore_params (s : State) : (endStore s).params = s.params := rfl
@[simp] theorem endStore_fsm (s : State) : (endStore s).fsm = .readPc := rfl
@[simp] theorem endStore_pc (s : State) : (endStore s).pc = s.pc := rfl
@[simp] theorem endStore_xs (s : State) : (endStore s).xs = s.xs := rfl
@[simp] theorem endStore_written (s : State) : (endStore s).written = s.written := rfl
@[simp] theorem endStore_ir (s : State) : (endStore s).ir = s.ir := rfl
@[simp] theorem endStore_ldRd (s : State) : (endStore s).ldRd = s.ldRd := rfl
@[simp] theorem endStore_ldSigned (s : State) : (endStore s).ldSigned = s.ldSigned := rfl
@[simp] theorem endStore_ldWidth (s : State) : (endStore s).ldWidth = s.ldWidth := rfl
@[simp] theorem endStore_cycO (s : State) : (endStore s).cycO = false := rfl
@[simp] theorem endStore_stbO (s : State) : (endStore s).stbO = false := rfl
@[simp] theorem endStore_weO (s : State) : (endStore s).weO = s.weO := rfl
@[simp] theorem endStore_adrO (s : State) : (endStore s).adrO = s.adrO := rfl
@[simp] theorem endStore_datO (s : State) : (endStore s).datO = s.datO := rfl
@[simp] theorem endStore_lastWrIdx (s : State) : (endStore s).lastWrIdx = s.lastWrIdx := rfl
@[simp] theorem endStore_lastWrVal (s : State) : (endStore s).lastWrVal = s.lastWrVal := rfl
@[simp] theorem endStore_gaps (s : State) : (endStore s).gaps = s.gaps := rfl
@[simp] theorem endStore_refusalMark (s : State) : (endStore s).refusalMark = s.refusalMark := rfl
@[simp] theorem endStore_trace (s : State) :
    (endStore s).trace = s.trace ++ [{ kind := .store, adr := s.adrO, we := true, wdata := some s.datO, rdata := none }] := rfl
@[simp] theorem endStore_mem (s : State) : (endStore s).mem = s.mem := rfl
@[simp] theorem endStore_freeIdx (s : State) : (endStore s).freeIdx = s.freeIdx := rfl

/-! ### landStore -/
@[simp] theorem landStore_params (s : State) : (landStore s).params = s.params := rfl
@[simp] theorem landStore_fsm (s : State) : (landStore s).fsm = s.fsm := rfl
@[simp] theorem landStore_pc (s : State) : (landStore s).pc = s.pc := rfl
@[simp] theorem landStore_xs (s : State) : (landStore s).xs = s.xs := rfl
@[simp] theorem landStore_written (s : State) : (landStore s).written = s.written := rfl
@[simp] theorem landStore_ir (s : State) : (landStore s).ir = s.ir := rfl
@[simp] theorem landStore_ldRd (s : State) : (landStore s).ldRd = s.ldRd := rfl
@[simp] theorem landStore_ldSigned (s : State) : (landStore s).ldSigned = s.ldSigned := rfl
@[simp] theorem landStore_ldWidth (s : State) : (landStore s).ldWidth = s.ldWidth := rfl
@[simp] theorem landStore_cycO (s : State) : (landStore s).cycO = s.cycO := rfl
@[simp] theorem landStore_stbO (s : State) : (landStore s).stbO = s.stbO := rfl
@[simp] theorem landStore_weO (s : State) : (landStore s).weO = s.weO := rfl
@[simp] theorem landStore_adrO (s : State) : (landStore s).adrO = s.adrO := rfl
@[simp] theorem landStore_datO (s : State) : (landStore s).datO = s.datO := rfl
@[simp] theorem landStore_lastWrIdx (s : State) : (landStore s).lastWrIdx = s.lastWrIdx := rfl
@[simp] theorem landStore_lastWrVal (s : State) : (landStore s).lastWrVal = s.lastWrVal := rfl
@[simp] theorem landStore_gaps (s : State) : (landStore s).gaps = s.gaps := rfl
@[simp] theorem landStore_refusalMark (s : State) : (landStore s).refusalMark = s.refusalMark := rfl
@[simp] theorem landStore_trace (s : State) : (landStore s).trace = s.trace := rfl
@[simp] theorem landStore_mem (s : State) : (landStore s).mem = targetWrite s.mem s.adrO s.datO := rfl
@[simp] theorem landStore_freeIdx (s : State) : (landStore s).freeIdx = s.freeIdx := rfl

/-! ### Compound operations, in the words of their parts -/

/-- OP-IMM, OP, LUI and AUIPC end with a register write and the sequential pc. -/
@[simp] theorem writeResult_eq (rd : RegIdx) (v : Word) (s : State) : writeResult rd v s = advance (writeReg rd v s) := rfl

/-- The reference target answers from its memory at the requested address. -/
@[simp] theorem targetAnswer_eq (s : State) : targetAnswer s = targetRead s.mem s.adrO := rfl

end Sys2Proof.Machine
end

