-- ==== Sys2Proof/Laws/Registers.lean ====
section
/-! SUPPORT. The register file (10_state.md R31, R32): what a read sees after each named operation. -/

namespace Sys2Proof.Machine

/-- A read depends on the register slots alone. -/
theorem readReg_congr {s t : State} (h : t.xs = s.xs) (r : RegIdx) : readReg t r = readReg s r := by
  simp [readReg, h]

/-- Whether a register is written depends on the written bits alone. -/
theorem isWritten_congr {s t : State} (h : t.written = s.written) (r : RegIdx) : isWritten t r = isWritten s r := by
  simp [isWritten, h]

/-- `x0` reads as zero (R31). -/
@[simp] theorem readReg_zero (s : State) : readReg s 0#5 = 0#32 := by simp [readReg]

/-- `x0` always has a value (R31). -/
@[simp] theorem isWritten_zero (s : State) : isWritten s 0#5 = true := by simp [isWritten]

/-- The slot of a register other than `x0`. -/
theorem slot_lt {r : RegIdx} (_h : r ≠ 0#5) : r.toNat - 1 < 31 := by
  have := r.isLt; omega

/-- Two registers other than `x0` with one slot are one register. -/
theorem slot_inj {r q : RegIdx} (hr : r ≠ 0#5) (hq : q ≠ 0#5) (h : r.toNat - 1 = q.toNat - 1) : r = q := by
  have h1 : r.toNat ≠ 0 := fun e => hr (BitVec.eq_of_toNat_eq (by simpa using e))
  have h2 : q.toNat ≠ 0 := fun e => hq (BitVec.eq_of_toNat_eq (by simpa using e))
  exact BitVec.eq_of_toNat_eq (by omega)

/-- A read after a write: the written value in the written register, unless that is `x0`; elsewhere as before (R31, R32). -/
@[simp] theorem readReg_writeReg (i r : RegIdx) (v : Word) (s : State) :
    readReg (writeReg i v s) r = if r = i ∧ r ≠ 0#5 then v else readReg s r := by
  by_cases hr : r = 0#5
  · subst hr; simp
  by_cases hi : i = 0#5
  · subst hi; simp [readReg, writeReg, hr]
  by_cases h : r = i
  · subst h; simp [readReg, writeReg, hr, slot_lt hr]
  · have hs : i.toNat - 1 ≠ r.toNat - 1 := fun e => h (slot_inj hi hr e).symm
    simp [readReg, writeReg, hr, hi, h, hs]

/-- A write marks its register written, and no other. -/
@[simp] theorem isWritten_writeReg (i r : RegIdx) (v : Word) (s : State) :
    isWritten (writeReg i v s) r = (isWritten s r || decide (r = i)) := by
  by_cases hr : r = 0#5
  · subst hr; simp
  by_cases hi : i = 0#5
  · subst hi; simp [isWritten, writeReg, hr]
  by_cases h : r = i
  · subst h; simp [isWritten, writeReg, hr, slot_lt hr]
  · have hs : i.toNat - 1 ≠ r.toNat - 1 := fun e => h (slot_inj hi hr e).symm
    simp [isWritten, writeReg, hr, hi, h, hs]

@[simp] theorem readReg_recordGap (k : Gap) (s : State) (r : RegIdx) :
    readReg (recordGap k s) r = readReg s r := readReg_congr (by simp) r
@[simp] theorem isWritten_recordGap (k : Gap) (s : State) (r : RegIdx) :
    isWritten (recordGap k s) r = isWritten s r := isWritten_congr (by simp) r

@[simp] theorem readReg_recordGapIf (c : Bool) (k : Gap) (s : State) (r : RegIdx) :
    readReg (recordGapIf c k s) r = readReg s r := readReg_congr (by simp) r
@[simp] theorem isWritten_recordGapIf (c : Bool) (k : Gap) (s : State) (r : RegIdx) :
    isWritten (recordGapIf c k s) r = isWritten s r := isWritten_congr (by simp) r

@[simp] theorem readReg_advance (s : State) (r : RegIdx) :
    readReg (advance s) r = readReg s r := readReg_congr (by simp) r
@[simp] theorem isWritten_advance (s : State) (r : RegIdx) :
    isWritten (advance s) r = isWritten s r := isWritten_congr (by simp) r

@[simp] theorem readReg_jumpTo (t : Word) (s : State) (r : RegIdx) :
    readReg (jumpTo t s) r = readReg s r := readReg_congr (by simp) r
@[simp] theorem isWritten_jumpTo (t : Word) (s : State) (r : RegIdx) :
    isWritten (jumpTo t s) r = isWritten s r := isWritten_congr (by simp) r

@[simp] theorem readReg_issueRead (a : Word) (s : State) (r : RegIdx) :
    readReg (issueRead a s) r = readReg s r := readReg_congr (by simp) r
@[simp] theorem isWritten_issueRead (a : Word) (s : State) (r : RegIdx) :
    isWritten (issueRead a s) r = isWritten s r := isWritten_congr (by simp) r

@[simp] theorem readReg_issueWrite (a d : Word) (s : State) (r : RegIdx) :
    readReg (issueWrite a d s) r = readReg s r := readReg_congr (by simp) r
@[simp] theorem isWritten_issueWrite (a d : Word) (s : State) (r : RegIdx) :
    isWritten (issueWrite a d s) r = isWritten s r := isWritten_congr (by simp) r

@[simp] theorem readReg_completeBus (t : Transaction) (s : State) (r : RegIdx) :
    readReg (completeBus t s) r = readReg s r := readReg_congr (by simp) r
@[simp] theorem isWritten_completeBus (t : Transaction) (s : State) (r : RegIdx) :
    isWritten (completeBus t s) r = isWritten s r := isWritten_congr (by simp) r

@[simp] theorem readReg_beginFetch (s : State) (r : RegIdx) :
    readReg (beginFetch s) r = readReg s r := readReg_congr (by simp) r
@[simp] theorem isWritten_beginFetch (s : State) (r : RegIdx) :
    isWritten (beginFetch s) r = isWritten s r := isWritten_congr (by simp) r

@[simp] theorem readReg_endFetch (w : Word) (s : State) (r : RegIdx) :
    readReg (endFetch w s) r = readReg s r := readReg_congr (by simp) r
@[simp] theorem isWritten_endFetch (w : Word) (s : State) (r : RegIdx) :
    isWritten (endFetch w s) r = isWritten s r := isWritten_congr (by simp) r

@[simp] theorem readReg_beginLoad (rd : RegIdx) (w : Width) (g : Bool) (ea : Word) (s : State) (r : RegIdx) :
    readReg (beginLoad rd w g ea s) r = readReg s r := readReg_congr (by simp) r
@[simp] theorem isWritten_beginLoad (rd : RegIdx) (w : Width) (g : Bool) (ea : Word) (s : State) (r : RegIdx) :
    isWritten (beginLoad rd w g ea s) r = isWritten s r := isWritten_congr (by simp) r

@[simp] theorem readReg_beginStore (n : Bool) (ea d : Word) (s : State) (r : RegIdx) :
    readReg (beginStore n ea d s) r = readReg s r := readReg_congr (by simp) r
@[simp] theorem isWritten_beginStore (n : Bool) (ea d : Word) (s : State) (r : RegIdx) :
    isWritten (beginStore n ea d s) r = isWritten s r := isWritten_congr (by simp) r

@[simp] theorem readReg_endStore (s : State) (r : RegIdx) :
    readReg (endStore s) r = readReg s r := readReg_congr (by simp) r
@[simp] theorem isWritten_endStore (s : State) (r : RegIdx) :
    isWritten (endStore s) r = isWritten s r := isWritten_congr (by simp) r

@[simp] theorem readReg_landStore (s : State) (r : RegIdx) :
    readReg (landStore s) r = readReg s r := readReg_congr (by simp) r
@[simp] theorem isWritten_landStore (s : State) (r : RegIdx) :
    isWritten (landStore s) r = isWritten s r := isWritten_congr (by simp) r

@[simp] theorem readReg_fetch (s : State) (r : RegIdx) :
    readReg (fetch s) r = readReg s r := readReg_congr (by simp [fetch]) r
@[simp] theorem isWritten_fetch (s : State) (r : RegIdx) :
    isWritten (fetch s) r = isWritten s r := isWritten_congr (by simp [fetch]) r

@[simp] theorem readReg_storeTo (n : Bool) (ea d : Word) (s : State) (r : RegIdx) :
    readReg (storeTo n ea d s) r = readReg s r := readReg_congr (by simp [storeTo]) r
@[simp] theorem isWritten_storeTo (n : Bool) (ea d : Word) (s : State) (r : RegIdx) :
    isWritten (storeTo n ea d s) r = isWritten s r := isWritten_congr (by simp [storeTo]) r

/-- LOAD's acknowledge edge writes the adjusted word to the staged register (45_load_store.md R300). -/
@[simp] theorem readReg_endLoad (w : Word) (s : State) (r : RegIdx) :
    readReg (endLoad w s) r = if r = s.ldRd ∧ r ≠ 0#5 then adjust w s.ldWidth s.ldSigned else readReg s r := by
  rw [← readReg_writeReg s.ldRd r (adjust w s.ldWidth s.ldSigned) s]; exact readReg_congr rfl r
@[simp] theorem isWritten_endLoad (w : Word) (s : State) (r : RegIdx) :
    isWritten (endLoad w s) r = (isWritten s r || decide (r = s.ldRd)) := by
  rw [← isWritten_writeReg s.ldRd r (adjust w s.ldWidth s.ldSigned) s]; exact isWritten_congr rfl r

end Sys2Proof.Machine
end

