-- ==== Sys2Proof/Laws/Values.lean ====
section
/-! SUPPORT. The gap record, the conditions, the ALU and the comparator in the words of the rules: membership, integers and
naturals (00_scope.md R10; 40_controller.md R181, R182; 60_exceptions.md R352, R353). -/

namespace Sys2Proof.Machine

/-! ### The gap record -/

/-- Adding a kind adds that kind and no other (R352). -/
@[simp] theorem hasGap_addGap (k j : Gap) (g : GapRecord) : hasGap (addGap k g) j = (hasGap g j || decide (j = k)) := by
  cases k <;> cases j <;> simp [hasGap, addGap]

/-- The empty record holds no kind. -/
@[simp] theorem hasGap_empty (k : Gap) : hasGap GapRecord.empty k = false := by cases k <;> rfl

/-- Two records with the same members are the same record: the record is a set. -/
theorem gapRecord_ext {g h : GapRecord} (e : ∀ k, hasGap g k = hasGap h k) : g = h := by
  obtain ⟨a, b, c, d, f, i, j⟩ := g
  obtain ⟨a', b', c', d', f', i', j'⟩ := h
  have h1 := e .unrecognizedOpcode; have h2 := e .miscMem; have h3 := e .system; have h4 := e .misalignedTarget
  have h5 := e .dataOffset; have h6 := e .narrowStore; have h7 := e .immSign
  simp only [hasGap] at h1 h2 h3 h4 h5 h6 h7
  subst h1 h2 h3 h4 h5 h6 h7
  rfl

/-- What a conditional record holds. -/
theorem hasGap_recordGapIf (c : Bool) (k j : Gap) (s : State) :
    hasGap (recordGapIf c k s).gaps j = (hasGap s.gaps j || (c && decide (j = k))) := by
  cases c <;> simp [recordGapIf, recordGap]

/-! ### Conditions -/

/-- The low two bits are not zero exactly when the number is not a multiple of 4. -/
theorem offWord_eq (a : Word) : offWord a = (a.toNat % 4 != 0) := by
  have h : (a.extractLsb' 0 2).toNat = a.toNat % 4 := by simp
  by_cases e : a.toNat % 4 = 0
  · have : a.extractLsb' 0 2 = 0 := BitVec.eq_of_toNat_eq (by simpa using e)
    rw [offWord, this]; simp [e]
  · have : a.extractLsb' 0 2 ≠ 0 := fun z => e (by rw [← h, z]; rfl)
    rw [offWord, bne_iff_ne.2 this, bne_iff_ne.2 e]

/-- The sequential pc keeps its low two bits (10_state.md R42). -/
theorem toNat_add_four (p : Word) : (p + 4).toNat % 4 = p.toNat % 4 := by
  rw [BitVec.toNat_add]
  simp

/-- `instr[31]` is the immediate's sign. -/
theorem immSignSet_eq (imm : BitVec 12) : immSignSet imm = imm.msb := by
  simp [immSignSet, BitVec.msb_eq_getLsbD_last]

/-- The comparator in integers and naturals (R182). -/
theorem cmp_eq (rel : Relation) (p q : Word) :
    cmp rel p q =
      match rel with
      | .eq => decide (p = q)
      | .ne => decide (p ≠ q)
      | .lt => decide (p.toInt < q.toInt)
      | .ge => decide (q.toInt ≤ p.toInt)
      | .ltu => decide (p.toNat < q.toNat)
      | .geu => decide (q.toNat ≤ p.toNat) := by
  cases rel
  · by_cases h : p = q <;> simp [cmp, h]
  · by_cases h : p = q <;> simp [cmp, h]
  · simp [cmp, BitVec.slt_eq_decide]
  · by_cases h : p.toInt < q.toInt
    · simp [cmp, BitVec.slt_eq_decide, h]
    · simp [cmp, BitVec.slt_eq_decide, h, not_lt.1 h]
  · simp [cmp, BitVec.ult_eq_decide]
  · by_cases h : p.toNat < q.toNat
    · simp [cmp, BitVec.ult_eq_decide, h]
    · simp [cmp, BitVec.ult_eq_decide, h, not_lt.1 h]

/-! ### The ALU -/

/-- The shift amount is the operand modulo 32 (30_encoding.md R138). -/
theorem shiftAmount_eq (q : Word) : shiftAmount q = q.toNat % 32 := by simp [shiftAmount]

/-- An immediate shift amount is itself. -/
theorem shiftAmount_shamtWord (a : BitVec 5) : shiftAmount (shamtWord a) = a.toNat := by
  have := a.isLt
  simp [shiftAmount, shamtWord]
  omega

/-- A left shift multiplies by a power of two, modulo 2^32. -/
theorem shiftLeft_eq_ofNat (p : Word) (n : Nat) : p <<< n = BitVec.ofNat 32 (p.toNat * 2 ^ n) := by
  apply BitVec.eq_of_toNat_eq
  simp [Nat.shiftLeft_eq]

/-- A logical right shift is the floor division of the natural number by a power of two. -/
theorem ushiftRight_eq_ofNat (p : Word) (n : Nat) : p >>> n = BitVec.ofNat 32 (p.toNat / 2 ^ n) := by
  apply BitVec.eq_of_toNat_eq
  have : p.toNat / 2 ^ n < 2 ^ 32 := lt_of_le_of_lt (Nat.div_le_self _ _) p.isLt
  rw [BitVec.toNat_ushiftRight, Nat.shiftRight_eq_div_pow, BitVec.toNat_ofNat, Nat.mod_eq_of_lt this]

/-- An arithmetic right shift is the floor division of the integer by a power of two. -/
theorem sshiftRight_eq_ofInt (p : Word) (n : Nat) : p.sshiftRight n = BitVec.ofInt 32 (p.toInt / 2 ^ n) := by
  apply BitVec.eq_of_toInt_eq
  rw [BitVec.toInt_sshiftRight, Int.shiftRight_eq_div_pow, BitVec.toInt_ofInt]
  have h1 : p.toInt < 2 ^ 31 := BitVec.toInt_lt
  have h2 : -2 ^ 31 ≤ p.toInt := BitVec.le_toInt p
  have hp : (0 : Int) < 2 ^ n := by positivity
  have hp' : (1 : Int) ≤ 2 ^ n := hp
  symm
  have lo : -(2 : Int) ^ 31 ≤ p.toInt / 2 ^ n := by
    rw [Int.le_ediv_iff_mul_le hp]; nlinarith
  have hi : p.toInt / 2 ^ n < 2 ^ 31 := by
    rw [Int.ediv_lt_iff_lt_mul hp]; nlinarith
  push_cast
  apply Int.bmod_eq_of_le <;> norm_num <;> omega

/-- A bit of 12 sign bits, extended, is the same integer. -/
theorem toInt_simm12 (imm : BitVec 12) : (simm12 imm).toInt = imm.toInt := by
  simp [simm12, BitVec.toInt_signExtend_of_le]

/-- Sign extension to a word, as the word of the integer. -/
theorem signExtend_eq_ofInt {n : Nat} (x : BitVec n) : x.signExtend 32 = BitVec.ofInt 32 x.toInt := rfl

/-- `uimm_I` is the low eleven bits of the field (30_encoding.md R133). -/
theorem uimm11_eq (imm : BitVec 12) : uimm11 imm = BitVec.ofNat 32 (imm.toNat % 2048) := by
  apply BitVec.eq_of_toNat_eq
  simp [uimm11]

/-- `imm_U` is the field times 4096 (30_encoding.md R136). -/
theorem immU_eq (imm : BitVec 20) : immU imm = BitVec.ofNat 32 (imm.toNat * 4096) := by
  apply BitVec.eq_of_toNat_eq
  have := imm.isLt
  rw [immU, BitVec.toNat_append, BitVec.toNat_ofNat, Nat.shiftLeft_eq]
  simp only [BitVec.toNat_ofNat, Nat.zero_mod, Nat.or_zero]
  omega

end Sys2Proof.Machine
end

