-- ==== Sys2Proof/Laws/Operations.lean ====
section
/-! SUPPORT. One law per shared operation, in the words of Safety.lean: everything it does and everything it leaves. A proof
about an instruction cites these and unfolds no operation. -/

namespace Sys2Proof.Machine

/-! ### Combining -/

theorem KeepsRegisters.rfl' (s : State) : KeepsRegisters s s := ⟨fun _ => rfl, fun _ => rfl, rfl, rfl⟩

theorem KeepsRegisters.trans' {s t u : State} (h : KeepsRegisters s t) (k : KeepsRegisters t u) : KeepsRegisters s u :=
  ⟨fun r => (k.reads r).trans (h.reads r), fun r => (k.marks r).trans (h.marks r), k.lastIdx.trans h.lastIdx,
    k.lastVal.trans h.lastVal⟩

/-- Recording a gap conditionally, in the words of RecordsExactly. -/
theorem recordsExactly_if (c : Bool) (k : Gap) (s : State) : RecordsExactly s (recordGapIf c k s) (if c then [k] else []) := by
  intro j; rw [hasGap_recordGapIf]; cases c <;> simp

/-! ### Ends of DECODE -/

/-- `x[rd] <- v; pc <- pc + 4`, after a gap is recorded if `c` (OP-IMM, OP, LUI, AUIPC). -/
theorem writeResult_law (rd : RegIdx) (v : Word) (c : Bool) (k : Gap) (s : State) :
    WritesRegister s (writeResult rd v (recordGapIf c k s)) rd v ∧ (writeResult rd v (recordGapIf c k s)).pc = s.pc + 4 ∧
    (writeResult rd v (recordGapIf c k s)).fsm = .readPc ∧
    RecordsExactly s (writeResult rd v (recordGapIf c k s)) (if c then [k] else []) ∧
    KeepsMemory s (writeResult rd v (recordGapIf c k s)) ∧ KeepsBus s (writeResult rd v (recordGapIf c k s)) ∧
    KeepsFixed s (writeResult rd v (recordGapIf c k s)) :=
  ⟨⟨by simp, by simp, by simp, by simp⟩, by simp, by simp, fun j => by simpa using recordsExactly_if c k s j,
    by simp [KeepsMemory], ⟨by simp, by simp, by simp, by simp, by simp, by simp, by simp, by simp, by simp, by simp⟩,
    ⟨by simp, by simp, by simp⟩⟩

/-- `pc <- t`, and MISALIGNED_TARGET exactly when `t` is not a multiple of 4; registers, memory and bus are kept. -/
theorem jumpTo_law (t : Word) (s : State) :
    KeepsRegisters s (jumpTo t s) ∧ (jumpTo t s).pc = t ∧ (jumpTo t s).fsm = .readPc ∧
    RecordsExactly s (jumpTo t s) (if t.toNat % 4 = 0 then [] else [.misalignedTarget]) ∧
    (jumpTo t s).mem = s.mem ∧ KeepsBus s (jumpTo t s) ∧ KeepsFixed s (jumpTo t s) := by
  refine ⟨⟨by simp, by simp, by simp, by simp⟩, by simp, by simp, fun j => ?_, by simp,
    ⟨by simp, by simp, by simp, by simp, by simp, by simp, by simp, by simp, by simp, by simp⟩, ⟨by simp, by simp, by simp⟩⟩
  rw [jumpTo_gaps, offWord_eq]
  by_cases h : t.toNat % 4 = 0 <;> simp [h]

/-- `pc <- pc + 4` and nothing else. -/
theorem advance_law (s : State) :
    KeepsRegisters s (advance s) ∧ (advance s).pc = s.pc + 4 ∧ (advance s).fsm = .readPc ∧ (advance s).gaps = s.gaps ∧
    (advance s).mem = s.mem ∧ KeepsBus s (advance s) ∧ KeepsFixed s (advance s) :=
  ⟨⟨by simp, by simp, by simp, by simp⟩, by simp, by simp, by simp, by simp,
    ⟨by simp, by simp, by simp, by simp, by simp, by simp, by simp, by simp, by simp, by simp⟩, ⟨by simp, by simp, by simp⟩⟩

/-- A conditional branch (44_control_transfer.md R273). -/
theorem branchIf_law (rel : Relation) (rs1 rs2 : RegIdx) (off : BitVec 13) (s : State) :
    KeepsRegisters s (branchIf rel rs1 rs2 off s) ∧
    (branchIf rel rs1 rs2 off s).pc = (if cmp rel (readReg s rs1) (readReg s rs2) then s.pc + simmB off else s.pc + 4) ∧
    (branchIf rel rs1 rs2 off s).fsm = .readPc ∧
    RecordsExactly s (branchIf rel rs1 rs2 off s)
      (if cmp rel (readReg s rs1) (readReg s rs2) && (s.pc + simmB off).toNat % 4 != 0 then [.misalignedTarget] else []) ∧
    (branchIf rel rs1 rs2 off s).mem = s.mem ∧ KeepsBus s (branchIf rel rs1 rs2 off s) ∧
    KeepsFixed s (branchIf rel rs1 rs2 off s) := by
  unfold branchIf
  cases cmp rel (readReg s rs1) (readReg s rs2)
  · obtain ⟨h1, h2, h3, h4, h5, h6, h7⟩ := advance_law s
    exact ⟨h1, h2, h3, fun j => by simp, h5, h6, h7⟩
  · obtain ⟨h1, h2, h3, h4, h5, h6, h7⟩ := jumpTo_law (alu .add s.pc (simmB off)) s
    refine ⟨h1, h2, h3, fun j => ?_, h5, h6, h7⟩
    have := h4 j
    simp only [alu] at this
    rw [if_pos rfl]
    simp only [alu, this]
    simp

/-! ### Whole transactions under the reference target -/

/-- A fetch: the word at `pc` goes to `ir` and onto the trace, the request is gone; nothing else that an instruction reads
changes. -/
theorem fetch_law (s : State) :
    (fetch s).ir = targetRead s.mem s.pc ∧ (fetch s).fsm = .decode ∧ (fetch s).pc = s.pc ∧ KeepsRegisters s (fetch s) ∧
    (fetch s).mem = s.mem ∧ (fetch s).gaps = s.gaps ∧ (fetch s).params = s.params ∧
    (fetch s).refusalMark = s.refusalMark ∧ (fetch s).trace = s.trace ++ [fetchRecord s.pc (targetRead s.mem s.pc)] ∧
    (fetch s).cycO = false ∧ (fetch s).stbO = false ∧ (fetch s).weO = false ∧ (fetch s).adrO = s.pc ∧
    (fetch s).ldRd = s.ldRd ∧ (fetch s).ldSigned = s.ldSigned ∧ (fetch s).ldWidth = s.ldWidth := by
  refine ⟨?_, rfl, rfl, ⟨by simp, by simp, rfl, rfl⟩, rfl, rfl, rfl, rfl, ?_, rfl, rfl, rfl, rfl, rfl, rfl, rfl⟩ <;>
    simp [fetch, fetchRecord]

/-- A load (45_load_store.md R300). -/
theorem loadFrom_law (rd : RegIdx) (w : Width) (g : Bool) (ea : Word) (s : State) :
    WritesRegister s (loadFrom rd w g ea s) rd (adjust (targetRead s.mem ea) w g) ∧
    (loadFrom rd w g ea s).pc = s.pc + 4 ∧ (loadFrom rd w g ea s).fsm = .readPc ∧
    RecordsExactly s (loadFrom rd w g ea s) (if ea.toNat % 4 = 0 then [] else [.dataOffset]) ∧
    (loadFrom rd w g ea s).trace = s.trace ++ [⟨.load, ea, false, none, some (targetRead s.mem ea)⟩] ∧
    (loadFrom rd w g ea s).cycO = false ∧ (loadFrom rd w g ea s).stbO = false ∧ (loadFrom rd w g ea s).weO = false ∧
    (loadFrom rd w g ea s).adrO = ea ∧ (loadFrom rd w g ea s).ldRd = rd ∧ (loadFrom rd w g ea s).ldWidth = w ∧
    (loadFrom rd w g ea s).ldSigned = g ∧ (loadFrom rd w g ea s).mem = s.mem ∧ KeepsFixed s (loadFrom rd w g ea s) := by
  refine ⟨⟨fun r => by simp [loadFrom], fun r => by simp [loadFrom], by simp [loadFrom], by simp [loadFrom]⟩,
    by simp [loadFrom], by simp [loadFrom], fun j => ?_, by simp [loadFrom], by simp [loadFrom], by simp [loadFrom],
    by simp [loadFrom], by simp [loadFrom], by simp [loadFrom], by simp [loadFrom], by simp [loadFrom], by simp [loadFrom],
    ⟨by simp [loadFrom], by simp [loadFrom], by simp [loadFrom]⟩⟩
  simp only [loadFrom, endLoad_gaps, beginLoad_gaps, offWord_eq]
  by_cases h : ea.toNat % 4 = 0 <;> simp [h]

/-- A store (45_load_store.md R306). -/
theorem storeTo_law (n : Bool) (ea d : Word) (s : State) :
    KeepsRegisters s (storeTo n ea d s) ∧ (storeTo n ea d s).pc = s.pc + 4 ∧ (storeTo n ea d s).fsm = .readPc ∧
    RecordsExactly s (storeTo n ea d s)
      ((if n then [.narrowStore] else []) ++ (if ea.toNat % 4 = 0 then [] else [.dataOffset])) ∧
    (storeTo n ea d s).trace = s.trace ++ [⟨.store, ea, true, some d, none⟩] ∧
    (storeTo n ea d s).cycO = false ∧ (storeTo n ea d s).stbO = false ∧ (storeTo n ea d s).weO = true ∧
    (storeTo n ea d s).adrO = ea ∧ (storeTo n ea d s).datO = d ∧
    (storeTo n ea d s).ldRd = s.ldRd ∧ (storeTo n ea d s).ldWidth = s.ldWidth ∧
    (storeTo n ea d s).ldSigned = s.ldSigned ∧ (storeTo n ea d s).freeIdx = s.freeIdx ∧
    (storeTo n ea d s).mem = targetWrite s.mem ea d ∧ KeepsFixed s (storeTo n ea d s) := by
  refine ⟨⟨by simp, by simp, by simp [storeTo], by simp [storeTo]⟩, by simp [storeTo], by simp [storeTo], fun j => ?_,
    by simp [storeTo], by simp [storeTo], by simp [storeTo], by simp [storeTo], by simp [storeTo], by simp [storeTo],
    by simp [storeTo], by simp [storeTo], by simp [storeTo], by simp [storeTo], by simp [storeTo],
    ⟨by simp [storeTo], by simp [storeTo], by simp [storeTo]⟩⟩
  simp only [storeTo, endStore_gaps, landStore_gaps, beginStore_gaps, hasGap_recordGapIf, offWord_eq]
  by_cases h : ea.toNat % 4 = 0
  · cases n <;> simp [h]
  · have : (ea.toNat % 4 != 0) = true := bne_iff_ne.2 h
    cases n <;> cases j <;> simp [h, this]

/-! ### The checked meaning -/

/-- The first unwritten operand decides the checked answer (60_exceptions.md R355). -/
theorem checkedAnswer_eq (s t : State) (l : List RegIdx) :
    checkedAnswer s t l =
      match l.find? (fun r => !isWritten s r) with
      | some r => .modelFault (.uninitRead r)
      | none => .machine (.next t) := by
  induction l with
  | nil => rfl
  | cons r l ih => cases h : isWritten s r <;> simp [checkedAnswer, h, ih]

/-- The checked meaning of an instruction that completes, by its operands. -/
theorem execChecked_eq {i : Instr} {s t : State} (h : exec i s = .next t) :
    execChecked i s = checkedAnswer s t (operandRegs i) := by
  cases ho : (operandRegs i).find? (fun r => !isWritten s r) <;>
    simp [checkedAnswer_eq, execChecked, uninitOperand, h, ho]

end Sys2Proof.Machine
end

