-- ==== Sys2Proof/Laws/Exec.lean ====
section
/-! SUPPORT. Every shape of state an instruction can lead to, each an operation that Laws/Operations.lean has a law for: a
proof over all instructions has six cases, not thirty-nine. -/

namespace Sys2Proof.Machine

/-- What `exec i s` can be, with what kind of instruction `i` then is. -/
inductive ExecShape (i : Instr) (s : State) : State → Prop where
  /-- OP-IMM, OP, LUI, AUIPC. -/
  | result (rd : RegIdx) (v : Word) (c : Bool) : destination i = some rd → dataAddress s i = none → isStore i = false →
      isLoad i = false → transfers s i = false → ExecShape i s (writeResult rd v (recordGapIf c .immSign s))
  /-- JAL, JALR. -/
  | jump (t : Word) (rd : RegIdx) : destination i = some rd → dataAddress s i = none → isStore i = false →
      isLoad i = false → transfers s i = true → ExecShape i s (jumpTo t (writeReg rd (s.pc + 4) s))
  /-- The branches. -/
  | branch (rel : Relation) (rs1 rs2 : RegIdx) (off : BitVec 13) : destination i = none → dataAddress s i = none →
      isStore i = false → isLoad i = false → transfers s i = cmp rel (readReg s rs1) (readReg s rs2) →
      ExecShape i s (branchIf rel rs1 rs2 off s)
  /-- The loads. -/
  | load (rd : RegIdx) (w : Width) (g : Bool) (ea : Word) : destination i = some rd → dataAddress s i = some ea →
      storeData s i = none → isStore i = false → isLoad i = true → transfers s i = false → ExecShape i s (loadFrom rd w g ea s)
  /-- The stores. -/
  | store (n : Bool) (ea d : Word) : destination i = none → dataAddress s i = some ea →
      storeData s i = some d → isStore i = true →
      isLoad i = false → transfers s i = false → ExecShape i s (storeTo n ea d s)
  /-- MISC-MEM, SYSTEM. -/
  | noOp (k : Gap) : k ≠ .misalignedTarget → destination i = none → dataAddress s i = none → isStore i = false →
      isLoad i = false → transfers s i = false → ExecShape i s (advance (recordGap k s))

/-- An instruction that answers a next state leads to one of the six shapes. -/
theorem exec_shape {i : Instr} {s t : State} (h : exec i s = .next t) : ExecShape i s t := by
  cases i with
  | addi rd rs1 imm => cases h; exact .result rd _ false rfl rfl rfl rfl rfl
  | slti rd rs1 imm => cases h; exact .result rd _ false rfl rfl rfl rfl rfl
  | sltiu rd rs1 imm => cases h; exact .result rd _ _ rfl rfl rfl rfl rfl
  | xori rd rs1 imm => cases h; exact .result rd _ _ rfl rfl rfl rfl rfl
  | ori rd rs1 imm => cases h; exact .result rd _ _ rfl rfl rfl rfl rfl
  | andi rd rs1 imm => cases h; exact .result rd _ _ rfl rfl rfl rfl rfl
  | slli rd rs1 shamt => cases h; exact .result rd _ false rfl rfl rfl rfl rfl
  | srli rd rs1 shamt => cases h; exact .result rd _ false rfl rfl rfl rfl rfl
  | srai rd rs1 shamt => cases h; exact .result rd _ false rfl rfl rfl rfl rfl
  | add rd rs1 rs2 => cases h; exact .result rd _ false rfl rfl rfl rfl rfl
  | sub rd rs1 rs2 => cases h; exact .result rd _ false rfl rfl rfl rfl rfl
  | sll rd rs1 rs2 => cases h; exact .result rd _ false rfl rfl rfl rfl rfl
  | slt rd rs1 rs2 => cases h; exact .result rd _ false rfl rfl rfl rfl rfl
  | sltu rd rs1 rs2 => cases h; exact .result rd _ false rfl rfl rfl rfl rfl
  | xor rd rs1 rs2 => cases h; exact .result rd _ false rfl rfl rfl rfl rfl
  | srl rd rs1 rs2 => cases h; exact .result rd _ false rfl rfl rfl rfl rfl
  | sra rd rs1 rs2 => cases h; exact .result rd _ false rfl rfl rfl rfl rfl
  | or rd rs1 rs2 => cases h; exact .result rd _ false rfl rfl rfl rfl rfl
  | and rd rs1 rs2 => cases h; exact .result rd _ false rfl rfl rfl rfl rfl
  | lui rd imm => cases h; exact .result rd _ false rfl rfl rfl rfl rfl
  | auipc rd imm => cases h; exact .result rd _ false rfl rfl rfl rfl rfl
  | jal rd off => cases h; exact .jump _ rd rfl rfl rfl rfl rfl
  | jalr rd rs1 imm => cases h; exact .jump _ rd rfl rfl rfl rfl rfl
  | beq rs1 rs2 off => cases h; exact .branch .eq rs1 rs2 off rfl rfl rfl rfl rfl
  | bne rs1 rs2 off => cases h; exact .branch .ne rs1 rs2 off rfl rfl rfl rfl rfl
  | blt rs1 rs2 off => cases h; exact .branch .lt rs1 rs2 off rfl rfl rfl rfl rfl
  | bge rs1 rs2 off => cases h; exact .branch .ge rs1 rs2 off rfl rfl rfl rfl rfl
  | bltu rs1 rs2 off => cases h; exact .branch .ltu rs1 rs2 off rfl rfl rfl rfl rfl
  | bgeu rs1 rs2 off => cases h; exact .branch .geu rs1 rs2 off rfl rfl rfl rfl rfl
  | lb rd rs1 imm => cases h; exact .load rd _ _ _ rfl rfl rfl rfl rfl rfl
  | lh rd rs1 imm => cases h; exact .load rd _ _ _ rfl rfl rfl rfl rfl rfl
  | lw rd rs1 imm => cases h; exact .load rd _ _ _ rfl rfl rfl rfl rfl rfl
  | lbu rd rs1 imm => cases h; exact .load rd _ _ _ rfl rfl rfl rfl rfl rfl
  | lhu rd rs1 imm => cases h; exact .load rd _ _ _ rfl rfl rfl rfl rfl rfl
  | sb rs1 rs2 imm => cases h; exact .store _ _ _ rfl rfl rfl rfl rfl rfl
  | sh rs1 rs2 imm => cases h; exact .store _ _ _ rfl rfl rfl rfl rfl rfl
  | sw rs1 rs2 imm => cases h; exact .store _ _ _ rfl rfl rfl rfl rfl rfl
  | miscMem rd rs1 f imm => cases h; exact .noOp .miscMem (by decide) rfl rfl rfl rfl rfl
  | system rest => cases h; exact .noOp .system (by decide) rfl rfl rfl rfl rfl

/-- A Step from an instruction boundary is the fetch and then the instruction. -/
theorem step_readPc {s : State} (h : s.fsm = .readPc) (hm : s.refusalMark = false) : step s = runIr (fetch s) := by
  simp [step, h, hm]

/-- What a decoded word can lead to. -/
theorem runIr_cases {s t : State} (h : runIr s = .next t) :
    (∃ i, decodeWord s.ir = .instr i ∧ exec i s = .next t) ∨
    (decodeWord s.ir = .unrecognized ∧ t = advance (recordGap .unrecognizedOpcode s)) := by
  unfold runIr at h
  split at h
  · exact .inl ⟨_, by assumption, h⟩
  · cases h; exact .inr ⟨by assumption, rfl⟩
  · cases h

end Sys2Proof.Machine
end

