-- ==== Sys2Proof/Laws/Controller.lean ====
section
/-! SUPPORT. The clocked machine beside the instructions' meanings (40_controller.md R171, R179): DECODE's edge is the
instruction, up to the data transaction it starts. -/

namespace Sys2Proof.Machine

/-- The rest of an instruction after DECODE's edge, under the reference target: the acknowledge of its data transaction if it
has started one. -/
def finish (s : State) : State :=
  match s.fsm with
  | .load => endLoad (targetAnswer s) s
  | .store => endStore (landStore s)
  | _ => s

theorem finish_of_boundary {s : State} (h : s.fsm = .readPc) : finish s = s := by simp [finish, h]

theorem finish_beginLoad (rd : RegIdx) (w : Width) (g : Bool) (ea : Word) (s : State) :
    finish (beginLoad rd w g ea s) = loadFrom rd w g ea s := by simp [finish, loadFrom]

theorem finish_beginStore (n : Bool) (ea d : Word) (s : State) :
    finish (beginStore n ea d s) = storeTo n ea d s := by simp [finish, storeTo]

/-- A word that is not refused passes DECODE's check. -/
theorem nonCanonicalOf_of_instr {w : Word} {i : Instr} (h : decodeWord w = .instr i) : nonCanonicalOf w = none := by
  rw [nonCanonicalOf_eq, h]

/-- The two forms of an immediate shift amount agree (30_encoding.md R138: `uimm_I[4:0]` is `instr[24:20]`). -/
theorem shiftAmount_uimm (w : Word) :
    shiftAmount ((w.extractLsb' 20 11).zeroExtend 32) = shiftAmount (shamtWord (rs2Of w)) := by
  rw [shiftAmount_shamtWord]
  simp [shiftAmount, rs2Of]

/-- `uimm_I[10]` is `funct7[5]`, both `instr[30]` (30_encoding.md R141). -/
theorem uimm_bit10 (w : Word) : ((w.extractLsb' 20 11).zeroExtend 32 : Word).getLsbD 10 = (funct7Of w).getLsbD 5 := by
  simp [funct7Of]

/-- The two forms of the logic immediate agree (41_integer_immediate.md R200). -/
theorem logicOperand (p : Params) (w : Word) :
    immLogic p (immIOf w) =
      match p.logicImm with
      | .uimm => (w.extractLsb' 20 11).zeroExtend 32
      | .simm => (immIOf w).signExtend 32 := by
  have : (immIOf w).extractLsb' 0 11 = w.extractLsb' 20 11 := by
    apply BitVec.eq_of_getLsbD_eq; intro i hi
    interval_cases i <;> simp [immIOf]
  unfold immLogic uimm11
  rw [this]; rfl

/-- The sign of the extended immediate is the sign of the field. -/
theorem msb_simm (imm : BitVec 12) : (imm.signExtend 32).msb = immSignSet imm := by
  rw [immSignSet_eq]; simp [BitVec.msb_signExtend]

/-- DECODE's edge on a LOAD word. -/
theorem decodeEdge_load {s : State} {i : Instr} (hc : classOf (opcodeOf s.ir) = some .load) (h : decodeLoad s.ir = .instr i)
    (hn : nonCanonicalOf s.ir = none) : exec i s = .next (finish (decodeEdge s)) := by
  unfold decodeLoad at h
  split at h <;> rename_i hf <;> cases h <;> simp only [decodeEdge, hn, decodeFields, hc, fieldsI, zeroFields, hf] <;>
    exact congrArg Host.Outcome.next (finish_beginLoad ..).symm

/-- DECODE's edge on a STORE word. -/
theorem decodeEdge_store {s : State} {i : Instr} (hc : classOf (opcodeOf s.ir) = some .store) (h : decodeStore s.ir = .instr i)
    (hn : nonCanonicalOf s.ir = none) : exec i s = .next (finish (decodeEdge s)) := by
  unfold decodeStore at h
  split at h <;> rename_i hf <;> cases h <;> simp only [decodeEdge, hn, decodeFields, hc, fieldsS, zeroFields, hf] <;>
    exact congrArg Host.Outcome.next (finish_beginStore ..).symm

/-- DECODE's edge on a BRANCH word. -/
theorem decodeEdge_branch {s : State} {i : Instr} (hc : classOf (opcodeOf s.ir) = some .branch)
    (h : decodeBranch s.ir = .instr i) (hn : nonCanonicalOf s.ir = none) : exec i s = .next (finish (decodeEdge s)) := by
  have fin : ∀ rel off, finish (branchIf rel (rs1Of s.ir) (rs2Of s.ir) off s) = branchIf rel (rs1Of s.ir) (rs2Of s.ir) off s :=
    fun rel off => finish_of_boundary (branchIf_law rel _ _ off s).2.2.1
  unfold decodeBranch at h
  split at h <;> rename_i hf <;> cases h <;> simp only [decodeEdge, hn, decodeFields, hc, fieldsB, zeroFields, hf] <;>
    exact congrArg Host.Outcome.next (fin ..).symm

/-- DECODE's edge on an OP word. -/
theorem decodeEdge_op {s : State} {i : Instr} (hc : classOf (opcodeOf s.ir) = some .op) (h : decodeOp s.ir = .instr i)
    (hn : nonCanonicalOf s.ir = none) : exec i s = .next (finish (decodeEdge s)) := by
  have h5 : (0b0100000#7).getLsbD 5 = true := by decide
  have h0 : (0b0000000#7).getLsbD 5 = false := by decide
  unfold decodeOp at h
  split at h <;> rename_i hg
  · rcases funct3_cases (funct3Of s.ir) with hf | hf | hf | hf | hf | hf | hf | hf <;> rw [hf] at h <;> cases h <;>
      simp only [decodeEdge, hn, decodeFields, hc, fieldsR, zeroFields, hf, hg, opAlu, Bool.false_eq_true, h0,
        if_false] <;>
      rfl
  · rcases funct3_cases (funct3Of s.ir) with hf | hf | hf | hf | hf | hf | hf | hf <;> rw [hf] at h <;> cases h <;>
      simp only [decodeEdge, hn, decodeFields, hc, fieldsR, zeroFields, hf, hg, opAlu, h5, if_true] <;>
      rfl
  · cases h

/-- DECODE's edge on an OP-IMM word. -/
theorem decodeEdge_opImm {s : State} {i : Instr} (hc : classOf (opcodeOf s.ir) = some .opImm)
    (h : decodeOpImm s.ir = .instr i) (hn : nonCanonicalOf s.ir = none) : exec i s = .next (finish (decodeEdge s)) := by
  have h5 : (0b0100000#7).getLsbD 5 = true := by decide
  have h0 : (0b0000000#7).getLsbD 5 = false := by decide
  have edge : decodeEdge s = writeResult (rdOf s.ir)
      (alu (opImmAlu (fieldsI s.ir)) (readReg s (rs1Of s.ir)) (opImmOperand s.params (fieldsI s.ir)))
      (recordGapIf (opImmSignGap (fieldsI s.ir)) .immSign s) := by
    simp only [decodeEdge, hn, decodeFields, hc]; simp only [fieldsI, zeroFields, hc]
  rw [edge, finish_of_boundary (by simp)]
  unfold decodeOpImm at h
  rcases funct3_cases (funct3Of s.ir) with hf | hf | hf | hf | hf | hf | hf | hf <;> rw [hf] at h
  · cases h; simp only [opImmAlu, opImmOperand, opImmSignGap, fieldsI, hf]; rfl
  · simp only at h
    split at h <;> rename_i hg <;> cases h
    simp only [opImmAlu, opImmOperand, opImmSignGap, fieldsI, hf, alu, shiftAmount_uimm]; rfl
  · cases h; simp only [opImmAlu, opImmOperand, opImmSignGap, fieldsI, hf]; rfl
  · cases h; simp only [opImmAlu, opImmOperand, opImmSignGap, fieldsI, hf, msb_simm]; rfl
  · cases h; simp only [opImmAlu, opImmOperand, opImmSignGap, fieldsI, hf, msb_simm]
    exact congrArg (fun o => Host.Outcome.next (writeResult _ (alu _ _ o) _)) (logicOperand ..)
  · replace h : (match funct7Of s.ir with
        | 0b0000000#7 => .instr (.srli (rdOf s.ir) (rs1Of s.ir) (rs2Of s.ir))
        | 0b0100000#7 => .instr (.srai (rdOf s.ir) (rs1Of s.ir) (rs2Of s.ir))
        | _ => .nonCanonical .shiftRightUpper) = Decoded.instr i := h
    split at h <;> rename_i hg <;> cases h <;>
      simp only [opImmAlu, opImmOperand, opImmSignGap, fieldsI, hf, uimm_bit10, hg, h5, h0, if_true, Bool.false_eq_true,
        if_false] <;>
      simp only [alu, shiftAmount_uimm] <;> rfl
  · cases h; simp only [opImmAlu, opImmOperand, opImmSignGap, fieldsI, hf, msb_simm]
    exact congrArg (fun o => Host.Outcome.next (writeResult _ (alu _ _ o) _)) (logicOperand ..)
  · cases h; simp only [opImmAlu, opImmOperand, opImmSignGap, fieldsI, hf, msb_simm]
    exact congrArg (fun o => Host.Outcome.next (writeResult _ (alu _ _ o) _)) (logicOperand ..)

/-- DECODE's edge is the instruction's meaning up to the data transaction it starts. -/
theorem decodeEdge_instr {s : State} {i : Instr} (h : decodeWord s.ir = .instr i) : exec i s = .next (finish (decodeEdge s)) := by
  have hn := nonCanonicalOf_of_instr h
  unfold decodeWord at h
  split at h <;> rename_i hc
  · exact decodeEdge_load hc h hn
  · cases h; simp only [decodeEdge, hn, decodeFields, hc, zeroFields, fieldsI]; rfl
  · exact decodeEdge_opImm hc h hn
  · cases h; simp only [decodeEdge, hn, decodeFields, hc, zeroFields, fieldsU]; rfl
  · exact decodeEdge_store hc h hn
  · exact decodeEdge_op hc h hn
  · cases h; simp only [decodeEdge, hn, decodeFields, hc, zeroFields, fieldsU]; rfl
  · exact decodeEdge_branch hc h hn
  · unfold decodeJalr at h
    split at h <;> rename_i hf <;> cases h
    simp only [decodeEdge, hn, decodeFields, hc, zeroFields, fieldsI]
    exact congrArg Host.Outcome.next (finish_of_boundary (jumpTo_law ..).2.2.1).symm
  · cases h
    simp only [decodeEdge, hn, decodeFields, hc, zeroFields, fieldsJ]
    exact congrArg Host.Outcome.next (finish_of_boundary (jumpTo_law ..).2.2.1).symm
  · cases h; simp only [decodeEdge, hn, decodeFields, hc, zeroFields]; rfl
  · cases h

/-- DECODE's edge on an unrecognized opcode (46_misc_mem_system.md R334). -/
theorem decodeEdge_unrecognized {s : State} (h : decodeWord s.ir = .unrecognized) :
    decodeEdge s = advance (recordGap .unrecognizedOpcode s) := by
  have hn : nonCanonicalOf s.ir = none := by rw [nonCanonicalOf_eq, h]
  have hc : classOf (opcodeOf s.ir) = none := by
    cases hc : classOf (opcodeOf s.ir) with
    | none => rfl
    | some c =>
      exfalso
      simp only [decodeWord, hc] at h
      cases c <;> simp only [decodeLoad, decodeOpImm, decodeStore, decodeOp, decodeBranch, decodeJalr, reduceCtorEq] at h <;>
        (repeat' split at h) <;> cases h
  simp only [decodeEdge, hn, decodeFields, hc, zeroFields]

/-- DECODE's edge on a non-canonical word (R184). -/
theorem decodeEdge_nonCanonical {s : State} {why : NonCanonical} (h : decodeWord s.ir = .nonCanonical why) :
    decodeEdge s = { s with refusalMark := true } := by
  have hn : nonCanonicalOf s.ir = some why := by rw [nonCanonicalOf_eq, h]
  simp only [decodeEdge, hn]

/-- Where DECODE's edge leads: to a refusal; back to READ_PC with no bus activity; or to LOAD or STORE with a request. Except for
the refusal, `runIr` answers what the edge and the data transaction it starts make together. -/
inductive EdgeShape (s : State) : State → Prop where
  | refuse (why : NonCanonical) : decodeWord s.ir = .nonCanonical why → EdgeShape s { s with refusalMark := true }
  | done (t : State) : runIr s = .next t → t.fsm = .readPc → accessesData (decodeWord s.ir) = false → EdgeShape s t
  | load (rd : RegIdx) (w : Width) (g : Bool) (ea : Word) : runIr s = .next (loadFrom rd w g ea s) →
      accessesData (decodeWord s.ir) = true → EdgeShape s (beginLoad rd w g ea s)
  | store (n : Bool) (ea d : Word) : runIr s = .next (storeTo n ea d s) →
      accessesData (decodeWord s.ir) = true → EdgeShape s (beginStore n ea d s)

/-- A LOAD or STORE word makes a data transaction, and no other word does (20_memory.md R81). -/
theorem accessesData_eq {s : State} {i : Instr} (h : decodeWord s.ir = .instr i) :
    accessesData (decodeWord s.ir) =
      match classOf (opcodeOf s.ir) with
      | some .load => true
      | some .store => true
      | _ => false := by
  rw [h]
  unfold decodeWord at h
  split at h <;> rename_i hc <;> simp only [hc]
  · unfold decodeLoad at h; split at h <;> cases h <;> rfl
  · cases h; rfl
  · unfold decodeOpImm at h; (repeat' split at h) <;> cases h <;> rfl
  · cases h; rfl
  · unfold decodeStore at h; split at h <;> cases h <;> rfl
  · unfold decodeOp at h; (repeat' split at h) <;> cases h <;> rfl
  · cases h; rfl
  · unfold decodeBranch at h; split at h <;> cases h <;> rfl
  · unfold decodeJalr at h; split at h <;> cases h; rfl
  · cases h; rfl
  · cases h; rfl
  · cases h

/-- DECODE's edge has one of the four shapes. -/
theorem decodeEdge_shape (s : State) : EdgeShape s (decodeEdge s) := by
  cases hd : decodeWord s.ir with
  | unrecognized =>
    rw [decodeEdge_unrecognized hd]
    exact .done _ (by rw [runIr, hd]; rfl) (by simp) (by rw [hd]; rfl)
  | nonCanonical why => rw [decodeEdge_nonCanonical hd]; exact .refuse why hd
  | instr i =>
    have hn := nonCanonicalOf_of_instr hd
    have hr : runIr s = .next (finish (decodeEdge s)) := by rw [runIr, hd]; exact decodeEdge_instr hd
    have ha := accessesData_eq hd
    have stay : (decodeEdge s).fsm = .readPc → accessesData (decodeWord s.ir) = false → EdgeShape s (decodeEdge s) :=
      fun h => .done _ (by rw [hr, finish_of_boundary h]) h
    cases hc : classOf (opcodeOf s.ir) with
    | none => simp only [decodeWord, hc, reduceCtorEq] at hd
    | some c =>
      rw [hc] at ha
      cases c
      case load =>
        have e : decodeEdge s = beginLoad (rdOf s.ir) (widthOf (funct3Of s.ir)) (signedOf (funct3Of s.ir))
            (alu .add (readReg s (rs1Of s.ir)) ((immIOf s.ir).signExtend 32)) s := by
          simp only [decodeEdge, hn, decodeFields, hc, fieldsI, zeroFields]
        rw [e, finish_beginLoad] at hr
        rw [e]
        exact .load _ _ _ _ hr ha
      case store =>
        have e : decodeEdge s = beginStore (funct3Of s.ir == 0b000 || funct3Of s.ir == 0b001)
            (alu .add (readReg s (rs1Of s.ir)) ((immSOf s.ir).signExtend 32)) (readReg s (rs2Of s.ir)) s := by
          simp only [decodeEdge, hn, decodeFields, hc, fieldsS, zeroFields]
        rw [e, finish_beginStore] at hr
        rw [e]
        exact .store _ _ _ hr ha
      case branch =>
        refine stay ?_ ha
        simp only [decodeEdge, hn, decodeFields, hc, fieldsB, zeroFields]
        split <;> simp
      all_goals
        refine stay ?_ ha
        simp only [decodeEdge, hn, decodeFields, hc, fieldsI, fieldsR, fieldsU, fieldsJ, zeroFields]
        simp

end Sys2Proof.Machine
end

