-- ==== Sys2Proof/Laws/PerInstr.lean ====
section
/-! SUPPORT. Statements made for every instruction, one lemma per constructor. TableEncoding: the encoder's word has the
bits that the instruction's row of opcode_table.json fixes. -/

/-- On the bits the table row fixes, the encoded word is the row's. -/
def Sys2Proof.Laws.TableEncoding.Statement (i : Sys2Proof.Instr) : Prop :=
  Sys2Proof.encode i &&& Sys2Proof.tableMask i = Sys2Proof.tableMatch i

namespace Sys2Proof.Laws

theorem TableEncoding.addi (rd rs1 : RegIdx) (imm : BitVec 12) : TableEncoding.Statement (.addi rd rs1 imm) := by
  apply BitVec.eq_of_getLsbD_eq; intro i hi
  interval_cases i <;> simp only [encode, packI, tableMask, tableMatch, BitVec.getLsbD_append, BitVec.getLsbD_and] <;> simp

theorem TableEncoding.slti (rd rs1 : RegIdx) (imm : BitVec 12) : TableEncoding.Statement (.slti rd rs1 imm) := by
  apply BitVec.eq_of_getLsbD_eq; intro i hi
  interval_cases i <;> simp only [encode, packI, tableMask, tableMatch, BitVec.getLsbD_append, BitVec.getLsbD_and] <;> simp

theorem TableEncoding.sltiu (rd rs1 : RegIdx) (imm : BitVec 12) : TableEncoding.Statement (.sltiu rd rs1 imm) := by
  apply BitVec.eq_of_getLsbD_eq; intro i hi
  interval_cases i <;> simp only [encode, packI, tableMask, tableMatch, BitVec.getLsbD_append, BitVec.getLsbD_and] <;> simp

theorem TableEncoding.xori (rd rs1 : RegIdx) (imm : BitVec 12) : TableEncoding.Statement (.xori rd rs1 imm) := by
  apply BitVec.eq_of_getLsbD_eq; intro i hi
  interval_cases i <;> simp only [encode, packI, tableMask, tableMatch, BitVec.getLsbD_append, BitVec.getLsbD_and] <;> simp

theorem TableEncoding.ori (rd rs1 : RegIdx) (imm : BitVec 12) : TableEncoding.Statement (.ori rd rs1 imm) := by
  apply BitVec.eq_of_getLsbD_eq; intro i hi
  interval_cases i <;> simp only [encode, packI, tableMask, tableMatch, BitVec.getLsbD_append, BitVec.getLsbD_and] <;> simp

theorem TableEncoding.andi (rd rs1 : RegIdx) (imm : BitVec 12) : TableEncoding.Statement (.andi rd rs1 imm) := by
  apply BitVec.eq_of_getLsbD_eq; intro i hi
  interval_cases i <;> simp only [encode, packI, tableMask, tableMatch, BitVec.getLsbD_append, BitVec.getLsbD_and] <;> simp

theorem TableEncoding.slli (rd rs1 : RegIdx) (shamt : BitVec 5) : TableEncoding.Statement (.slli rd rs1 shamt) := by
  apply BitVec.eq_of_getLsbD_eq; intro i hi
  interval_cases i <;> simp only [encode, packR, tableMask, tableMatch, BitVec.getLsbD_append, BitVec.getLsbD_and] <;> simp

theorem TableEncoding.srli (rd rs1 : RegIdx) (shamt : BitVec 5) : TableEncoding.Statement (.srli rd rs1 shamt) := by
  apply BitVec.eq_of_getLsbD_eq; intro i hi
  interval_cases i <;> simp only [encode, packR, tableMask, tableMatch, BitVec.getLsbD_append, BitVec.getLsbD_and] <;> simp

theorem TableEncoding.srai (rd rs1 : RegIdx) (shamt : BitVec 5) : TableEncoding.Statement (.srai rd rs1 shamt) := by
  apply BitVec.eq_of_getLsbD_eq; intro i hi
  interval_cases i <;> simp only [encode, packR, tableMask, tableMatch, BitVec.getLsbD_append, BitVec.getLsbD_and] <;> simp

theorem TableEncoding.add (rd rs1 rs2 : RegIdx) : TableEncoding.Statement (.add rd rs1 rs2) := by
  apply BitVec.eq_of_getLsbD_eq; intro i hi
  interval_cases i <;> simp only [encode, packR, tableMask, tableMatch, BitVec.getLsbD_append, BitVec.getLsbD_and] <;> simp

theorem TableEncoding.sub (rd rs1 rs2 : RegIdx) : TableEncoding.Statement (.sub rd rs1 rs2) := by
  apply BitVec.eq_of_getLsbD_eq; intro i hi
  interval_cases i <;> simp only [encode, packR, tableMask, tableMatch, BitVec.getLsbD_append, BitVec.getLsbD_and] <;> simp

theorem TableEncoding.sll (rd rs1 rs2 : RegIdx) : TableEncoding.Statement (.sll rd rs1 rs2) := by
  apply BitVec.eq_of_getLsbD_eq; intro i hi
  interval_cases i <;> simp only [encode, packR, tableMask, tableMatch, BitVec.getLsbD_append, BitVec.getLsbD_and] <;> simp

theorem TableEncoding.slt (rd rs1 rs2 : RegIdx) : TableEncoding.Statement (.slt rd rs1 rs2) := by
  apply BitVec.eq_of_getLsbD_eq; intro i hi
  interval_cases i <;> simp only [encode, packR, tableMask, tableMatch, BitVec.getLsbD_append, BitVec.getLsbD_and] <;> simp

theorem TableEncoding.sltu (rd rs1 rs2 : RegIdx) : TableEncoding.Statement (.sltu rd rs1 rs2) := by
  apply BitVec.eq_of_getLsbD_eq; intro i hi
  interval_cases i <;> simp only [encode, packR, tableMask, tableMatch, BitVec.getLsbD_append, BitVec.getLsbD_and] <;> simp

theorem TableEncoding.xor (rd rs1 rs2 : RegIdx) : TableEncoding.Statement (.xor rd rs1 rs2) := by
  apply BitVec.eq_of_getLsbD_eq; intro i hi
  interval_cases i <;> simp only [encode, packR, tableMask, tableMatch, BitVec.getLsbD_append, BitVec.getLsbD_and] <;> simp

theorem TableEncoding.srl (rd rs1 rs2 : RegIdx) : TableEncoding.Statement (.srl rd rs1 rs2) := by
  apply BitVec.eq_of_getLsbD_eq; intro i hi
  interval_cases i <;> simp only [encode, packR, tableMask, tableMatch, BitVec.getLsbD_append, BitVec.getLsbD_and] <;> simp

theorem TableEncoding.sra (rd rs1 rs2 : RegIdx) : TableEncoding.Statement (.sra rd rs1 rs2) := by
  apply BitVec.eq_of_getLsbD_eq; intro i hi
  interval_cases i <;> simp only [encode, packR, tableMask, tableMatch, BitVec.getLsbD_append, BitVec.getLsbD_and] <;> simp

theorem TableEncoding.or (rd rs1 rs2 : RegIdx) : TableEncoding.Statement (.or rd rs1 rs2) := by
  apply BitVec.eq_of_getLsbD_eq; intro i hi
  interval_cases i <;> simp only [encode, packR, tableMask, tableMatch, BitVec.getLsbD_append, BitVec.getLsbD_and] <;> simp

theorem TableEncoding.and (rd rs1 rs2 : RegIdx) : TableEncoding.Statement (.and rd rs1 rs2) := by
  apply BitVec.eq_of_getLsbD_eq; intro i hi
  interval_cases i <;> simp only [encode, packR, tableMask, tableMatch, BitVec.getLsbD_append, BitVec.getLsbD_and] <;> simp

theorem TableEncoding.lui (rd : RegIdx) (imm : BitVec 20) : TableEncoding.Statement (.lui rd imm) := by
  apply BitVec.eq_of_getLsbD_eq; intro i hi
  interval_cases i <;> simp only [encode, packU, tableMask, tableMatch, BitVec.getLsbD_append, BitVec.getLsbD_and] <;> simp

theorem TableEncoding.auipc (rd : RegIdx) (imm : BitVec 20) : TableEncoding.Statement (.auipc rd imm) := by
  apply BitVec.eq_of_getLsbD_eq; intro i hi
  interval_cases i <;> simp only [encode, packU, tableMask, tableMatch, BitVec.getLsbD_append, BitVec.getLsbD_and] <;> simp

theorem TableEncoding.jal (rd : RegIdx) (off : BitVec 21) : TableEncoding.Statement (.jal rd off) := by
  apply BitVec.eq_of_getLsbD_eq; intro i hi
  interval_cases i <;> simp only [encode, packJ, tableMask, tableMatch, BitVec.getLsbD_append, BitVec.getLsbD_extractLsb', BitVec.getLsbD_and] <;> simp

theorem TableEncoding.jalr (rd rs1 : RegIdx) (imm : BitVec 12) : TableEncoding.Statement (.jalr rd rs1 imm) := by
  apply BitVec.eq_of_getLsbD_eq; intro i hi
  interval_cases i <;> simp only [encode, packI, tableMask, tableMatch, BitVec.getLsbD_append, BitVec.getLsbD_and] <;> simp

theorem TableEncoding.beq (rs1 rs2 : RegIdx) (off : BitVec 13) : TableEncoding.Statement (.beq rs1 rs2 off) := by
  apply BitVec.eq_of_getLsbD_eq; intro i hi
  interval_cases i <;> simp only [encode, packB, tableMask, tableMatch, BitVec.getLsbD_append, BitVec.getLsbD_extractLsb', BitVec.getLsbD_and] <;> simp

theorem TableEncoding.bne (rs1 rs2 : RegIdx) (off : BitVec 13) : TableEncoding.Statement (.bne rs1 rs2 off) := by
  apply BitVec.eq_of_getLsbD_eq; intro i hi
  interval_cases i <;> simp only [encode, packB, tableMask, tableMatch, BitVec.getLsbD_append, BitVec.getLsbD_extractLsb', BitVec.getLsbD_and] <;> simp

theorem TableEncoding.blt (rs1 rs2 : RegIdx) (off : BitVec 13) : TableEncoding.Statement (.blt rs1 rs2 off) := by
  apply BitVec.eq_of_getLsbD_eq; intro i hi
  interval_cases i <;> simp only [encode, packB, tableMask, tableMatch, BitVec.getLsbD_append, BitVec.getLsbD_extractLsb', BitVec.getLsbD_and] <;> simp

theorem TableEncoding.bge (rs1 rs2 : RegIdx) (off : BitVec 13) : TableEncoding.Statement (.bge rs1 rs2 off) := by
  apply BitVec.eq_of_getLsbD_eq; intro i hi
  interval_cases i <;> simp only [encode, packB, tableMask, tableMatch, BitVec.getLsbD_append, BitVec.getLsbD_extractLsb', BitVec.getLsbD_and] <;> simp

theorem TableEncoding.bltu (rs1 rs2 : RegIdx) (off : BitVec 13) : TableEncoding.Statement (.bltu rs1 rs2 off) := by
  apply BitVec.eq_of_getLsbD_eq; intro i hi
  interval_cases i <;> simp only [encode, packB, tableMask, tableMatch, BitVec.getLsbD_append, BitVec.getLsbD_extractLsb', BitVec.getLsbD_and] <;> simp

theorem TableEncoding.bgeu (rs1 rs2 : RegIdx) (off : BitVec 13) : TableEncoding.Statement (.bgeu rs1 rs2 off) := by
  apply BitVec.eq_of_getLsbD_eq; intro i hi
  interval_cases i <;> simp only [encode, packB, tableMask, tableMatch, BitVec.getLsbD_append, BitVec.getLsbD_extractLsb', BitVec.getLsbD_and] <;> simp

theorem TableEncoding.lb (rd rs1 : RegIdx) (imm : BitVec 12) : TableEncoding.Statement (.lb rd rs1 imm) := by
  apply BitVec.eq_of_getLsbD_eq; intro i hi
  interval_cases i <;> simp only [encode, packI, tableMask, tableMatch, BitVec.getLsbD_append, BitVec.getLsbD_and] <;> simp

theorem TableEncoding.lh (rd rs1 : RegIdx) (imm : BitVec 12) : TableEncoding.Statement (.lh rd rs1 imm) := by
  apply BitVec.eq_of_getLsbD_eq; intro i hi
  interval_cases i <;> simp only [encode, packI, tableMask, tableMatch, BitVec.getLsbD_append, BitVec.getLsbD_and] <;> simp

theorem TableEncoding.lw (rd rs1 : RegIdx) (imm : BitVec 12) : TableEncoding.Statement (.lw rd rs1 imm) := by
  apply BitVec.eq_of_getLsbD_eq; intro i hi
  interval_cases i <;> simp only [encode, packI, tableMask, tableMatch, BitVec.getLsbD_append, BitVec.getLsbD_and] <;> simp

theorem TableEncoding.lbu (rd rs1 : RegIdx) (imm : BitVec 12) : TableEncoding.Statement (.lbu rd rs1 imm) := by
  apply BitVec.eq_of_getLsbD_eq; intro i hi
  interval_cases i <;> simp only [encode, packI, tableMask, tableMatch, BitVec.getLsbD_append, BitVec.getLsbD_and] <;> simp

theorem TableEncoding.lhu (rd rs1 : RegIdx) (imm : BitVec 12) : TableEncoding.Statement (.lhu rd rs1 imm) := by
  apply BitVec.eq_of_getLsbD_eq; intro i hi
  interval_cases i <;> simp only [encode, packI, tableMask, tableMatch, BitVec.getLsbD_append, BitVec.getLsbD_and] <;> simp

theorem TableEncoding.sb (rs1 rs2 : RegIdx) (imm : BitVec 12) : TableEncoding.Statement (.sb rs1 rs2 imm) := by
  apply BitVec.eq_of_getLsbD_eq; intro i hi
  interval_cases i <;> simp only [encode, packS, tableMask, tableMatch, BitVec.getLsbD_append, BitVec.getLsbD_extractLsb', BitVec.getLsbD_and] <;> simp

theorem TableEncoding.sh (rs1 rs2 : RegIdx) (imm : BitVec 12) : TableEncoding.Statement (.sh rs1 rs2 imm) := by
  apply BitVec.eq_of_getLsbD_eq; intro i hi
  interval_cases i <;> simp only [encode, packS, tableMask, tableMatch, BitVec.getLsbD_append, BitVec.getLsbD_extractLsb', BitVec.getLsbD_and] <;> simp

theorem TableEncoding.sw (rs1 rs2 : RegIdx) (imm : BitVec 12) : TableEncoding.Statement (.sw rs1 rs2 imm) := by
  apply BitVec.eq_of_getLsbD_eq; intro i hi
  interval_cases i <;> simp only [encode, packS, tableMask, tableMatch, BitVec.getLsbD_append, BitVec.getLsbD_extractLsb', BitVec.getLsbD_and] <;> simp

theorem TableEncoding.miscMem (rd rs1 : RegIdx) (funct3 : BitVec 3) (imm : BitVec 12) : TableEncoding.Statement (.miscMem rd rs1 funct3 imm) := by
  apply BitVec.eq_of_getLsbD_eq; intro i hi
  interval_cases i <;> simp only [encode, packI, tableMask, tableMatch, BitVec.getLsbD_append, BitVec.getLsbD_and] <;> simp

theorem TableEncoding.system (rest : BitVec 25) : TableEncoding.Statement (.system rest) := by
  apply BitVec.eq_of_getLsbD_eq; intro i hi
  interval_cases i <;> simp only [encode, tableMask, tableMatch, BitVec.getLsbD_append, BitVec.getLsbD_and] <;> simp

end Sys2Proof.Laws
end

