-- ==== Sys2Proof/Laws/Target.lean ====
section
/-! SUPPORT. The Step under a target: what its Fetch, its fault and its end can do, and the architectural state. -/

namespace Sys2Proof.Machine

/-- The Fetch's request is the read at `pc`. -/
theorem pendingRequest_beginFetch (s : State) :
    pendingRequest (beginFetch s) = { adr := s.pc, we := false, wdata := none } := by
  simp [pendingRequest]

/-- The Fetch under a target, by what the target answers to a read at `pc`. -/
theorem fetchUnder_eq (target : Target) (k : State → TargetOutcome) (s : State) (hm : s.refusalMark = false) :
    fetchUnder target k s =
      match fetchAnswer target s with
      | none => .hang (beginFetch s)
      | some w => k (endFetch w (beginFetch s)) := by
  have h : target (beginFetch s).trace (pendingRequest (beginFetch s)) = fetchAnswer target s := by
    simp [pendingRequest_beginFetch, fetchAnswer]
  cases hf : fetchAnswer target s <;> simp only [fetchUnder, hm, h, hf, Bool.false_eq_true, if_false]

@[simp] theorem uninitOperand_endFetch (i : Instr) (w : Word) (s : State) :
    uninitOperand i (endFetch w (beginFetch s)) = uninitOperand i s := by
  simp [uninitOperand]

/-- From DECODE on, the spec's Step faults on an unwritten operand and is otherwise the hardware's. -/
theorem executeSpec_cases (target : Target) (s : State) :
    (∃ i r, decodeWord s.ir = .instr i ∧ uninitOperand i s = some r ∧
      executeSpec target s = .modelFault (.uninitRead r) s) ∨
    ((∀ i, decodeWord s.ir = .instr i → uninitOperand i s = none) ∧
      executeSpec target s = finishUnder target (decodeEdge s)) := by
  unfold executeSpec
  split
  · rename_i why hd
    exact .inr ⟨fun i hi => (by rw [hd] at hi; cases hi), (by rw [decodeEdge_nonCanonical hd]; rfl)⟩
  · rename_i hd
    exact .inr ⟨fun i hi => (by rw [hd] at hi; cases hi), rfl⟩
  · rename_i i hd
    split
    · rename_i r hr
      exact .inl ⟨i, r, hd, hr, rfl⟩
    · rename_i hn
      exact .inr ⟨fun j hj => (by rw [hd] at hj; cases hj; exact hn), rfl⟩

/-- A Step of the spec that does not fault is the hardware's Step. -/
theorem specStep_eq_or_fault (target : Target) (s : State) :
    specStep target s = stepUnder target s ∨ ∃ f u, specStep target s = .modelFault f u := by
  unfold specStep stepUnder fetchUnder
  split
  · exact .inl rfl
  · split
    · exact .inl rfl
    · rename_i w _
      rcases executeSpec_cases target (endFetch w (beginFetch s)) with ⟨i, r, _, _, h⟩ | ⟨_, h⟩
      · exact .inr ⟨_, _, h⟩
      · exact .inl h

/-- Registers that read and are marked alike are alike in the architectural state. -/
theorem archState_congr {s t : State} (hpc : t.pc = s.pc) (hr : ∀ r, readReg t r = readReg s r)
    (hw : ∀ r, isWritten t r = isWritten s r) (hg : t.gaps = s.gaps) (hm : t.refusalMark = s.refusalMark) :
    archState t = { archState s with trace := t.trace } := by
  simp [archState, regContent, hpc, hr, hw, hg, hm]

/-- Where a run has a final state, R396 holds there and every Step before it completed. -/
theorem finalAfter_law (target : Target) (n : Nat) (s t : State) (h : finalAfter target n s = some t) :
    endOfRun target t = true ∧ runUnder target n s = .next t := by
  induction n generalizing s with
  | zero =>
    simp only [finalAfter] at h
    split at h <;> simp_all [runUnder]
  | succ n ih =>
    simp only [finalAfter] at h
    split at h
    · cases h
    · simp only [runUnder]
      cases hs : specStep target s with
      | next u => rw [hs] at h; exact ih u h
      | hang | refused | modelFault => rw [hs] at h; cases h

end Sys2Proof.Machine
end

