-- ==== Sys2Proof/Tests/Slice0.lean ====
section
/-! SUPPORT. Tests of the model, each on one small state and (the clocked ones apart) one Step; the refusals of WellFormed; and
for every obligation with hypotheses a witness that meets them. Expected results are those of 95_test_vectors.md, named by
its vector ids, or of the rule named. -/

namespace Sys2Proof.Tests

open Sys2Proof Sys2Proof.Machine

/-! ## WellFormed: an offset with bit 0 set is refused, an even one is not -/

theorem test_wellFormed_jal :
    Instr.wellFormed (.jal 1 0x000003) = false ∧ Instr.wellFormed (.jal 1 0x000002) = true := by decide

theorem test_wellFormed_beq :
    Instr.wellFormed (.beq 1 2 0x0003) = false ∧ Instr.wellFormed (.beq 1 2 0x0002) = true := by decide

theorem test_wellFormed_bne :
    Instr.wellFormed (.bne 1 2 0x0003) = false ∧ Instr.wellFormed (.bne 1 2 0x0002) = true := by decide

theorem test_wellFormed_blt :
    Instr.wellFormed (.blt 1 2 0x1FFF) = false ∧ Instr.wellFormed (.blt 1 2 0x1FFE) = true := by decide

theorem test_wellFormed_bge :
    Instr.wellFormed (.bge 1 2 0x0001) = false ∧ Instr.wellFormed (.bge 1 2 0x0000) = true := by decide

theorem test_wellFormed_bltu :
    Instr.wellFormed (.bltu 1 2 0x1001) = false ∧ Instr.wellFormed (.bltu 1 2 0x1000) = true := by decide

theorem test_wellFormed_bgeu :
    Instr.wellFormed (.bgeu 1 2 0x0FFF) = false ∧ Instr.wellFormed (.bgeu 1 2 0x0FFE) = true := by decide

/-! ## Decoding: one word per constructor, written out from the encodings R126 to R131 and R141 to R146 -/

/-- `addi x1, x2, -1` = `0xFFF10093`, its fields `111111111111 00010 000 00001 0010011`. -/
theorem test_decode_addi : decodeWord 0b11111111111100010000000010010011 = .instr (.addi 1 2 0xFFF) := by decide

/-- `slti x3, x1, -2048` = `0x8000A193`, its fields `100000000000 00001 010 00011 0010011`. -/
theorem test_decode_slti : decodeWord 0b10000000000000001010000110010011 = .instr (.slti 3 1 0x800) := by decide

/-- `sltiu x3, x1, -1` = `0xFFF0B193`, its fields `111111111111 00001 011 00011 0010011`. -/
theorem test_decode_sltiu : decodeWord 0b11111111111100001011000110010011 = .instr (.sltiu 3 1 0xFFF) := by decide

/-- `xori x2, x1, -1` = `0xFFF0C113`, its fields `111111111111 00001 100 00010 0010011`. -/
theorem test_decode_xori : decodeWord 0b11111111111100001100000100010011 = .instr (.xori 2 1 0xFFF) := by decide

/-- `ori x2, x0, -16` = `0xFF006113`, its fields `111111110000 00000 110 00010 0010011`. -/
theorem test_decode_ori : decodeWord 0b11111111000000000110000100010011 = .instr (.ori 2 0 0xFF0) := by decide

/-- `andi x2, x1, -256` = `0xF000F113`, its fields `111100000000 00001 111 00010 0010011`. -/
theorem test_decode_andi : decodeWord 0b11110000000000001111000100010011 = .instr (.andi 2 1 0xF00) := by decide

/-- `slli x2, x1, 31` = `0x01F09113`, its fields `0000000 11111 00001 001 00010 0010011`. -/
theorem test_decode_slli : decodeWord 0b00000001111100001001000100010011 = .instr (.slli 2 1 31) := by decide

/-- `srli x2, x1, 1` = `0x0010D113`, its fields `0000000 00001 00001 101 00010 0010011`. -/
theorem test_decode_srli : decodeWord 0b00000000000100001101000100010011 = .instr (.srli 2 1 1) := by decide

/-- `srai x5, x6, 31` = `0x41F35293`, its fields `0100000 11111 00110 101 00101 0010011`. -/
theorem test_decode_srai : decodeWord 0b01000001111100110101001010010011 = .instr (.srai 5 6 31) := by decide

/-- `add x3, x1, x2` = `0x002081B3`, its fields `0000000 00010 00001 000 00011 0110011`. -/
theorem test_decode_add : decodeWord 0b00000000001000001000000110110011 = .instr (.add 3 1 2) := by decide

/-- `sub x31, x30, x29` = `0x41DF0FB3`, its fields `0100000 11101 11110 000 11111 0110011`. -/
theorem test_decode_sub : decodeWord 0b01000001110111110000111110110011 = .instr (.sub 31 30 29) := by decide

/-- `sll x3, x1, x2` = `0x002091B3`, its fields `0000000 00010 00001 001 00011 0110011`. -/
theorem test_decode_sll : decodeWord 0b00000000001000001001000110110011 = .instr (.sll 3 1 2) := by decide

/-- `slt x3, x1, x2` = `0x0020A1B3`, its fields `0000000 00010 00001 010 00011 0110011`. -/
theorem test_decode_slt : decodeWord 0b00000000001000001010000110110011 = .instr (.slt 3 1 2) := by decide

/-- `sltu x3, x1, x2` = `0x0020B1B3`, its fields `0000000 00010 00001 011 00011 0110011`. -/
theorem test_decode_sltu : decodeWord 0b00000000001000001011000110110011 = .instr (.sltu 3 1 2) := by decide

/-- `xor x3, x1, x2` = `0x0020C1B3`, its fields `0000000 00010 00001 100 00011 0110011`. -/
theorem test_decode_xor : decodeWord 0b00000000001000001100000110110011 = .instr (.xor 3 1 2) := by decide

/-- `srl x3, x1, x2` = `0x0020D1B3`, its fields `0000000 00010 00001 101 00011 0110011`. -/
theorem test_decode_srl : decodeWord 0b00000000001000001101000110110011 = .instr (.srl 3 1 2) := by decide

/-- `sra x3, x1, x2` = `0x4020D1B3`, its fields `0100000 00010 00001 101 00011 0110011`. -/
theorem test_decode_sra : decodeWord 0b01000000001000001101000110110011 = .instr (.sra 3 1 2) := by decide

/-- `or x3, x1, x0` = `0x0000E1B3`, its fields `0000000 00000 00001 110 00011 0110011`. -/
theorem test_decode_or : decodeWord 0b00000000000000001110000110110011 = .instr (.or 3 1 0) := by decide

/-- `and x3, x1, x2` = `0x0020F1B3`, its fields `0000000 00010 00001 111 00011 0110011`. -/
theorem test_decode_and : decodeWord 0b00000000001000001111000110110011 = .instr (.and 3 1 2) := by decide

/-- `lui x7, 0xFFFFF` = `0xFFFFF3B7`, its fields `11111111111111111111 00111 0110111`. -/
theorem test_decode_lui : decodeWord 0b11111111111111111111001110110111 = .instr (.lui 7 0xFFFFF) := by decide

/-- `auipc x8, 0x80000` = `0x80000417`, its fields `10000000000000000000 01000 0010111`. -/
theorem test_decode_auipc : decodeWord 0b10000000000000000000010000010111 = .instr (.auipc 8 0x80000) := by decide

/-- `jal x0, +0xFFFFE` = `0x7FFFF06F`, its fields `0 1111111111 1 11111111 00000 1101111`. -/
theorem test_decode_jal : decodeWord 0b01111111111111111111000001101111 = .instr (.jal 0 0x0FFFFE) := by decide

/-- `jalr x1, 2047(x5)` = `0x7FF280E7`, its fields `011111111111 00101 000 00001 1100111`. -/
theorem test_decode_jalr : decodeWord 0b01111111111100101000000011100111 = .instr (.jalr 1 5 0x7FF) := by decide

/-- `beq x1, x2, -4096` = `0x80208063`, its fields `1 000000 00010 00001 000 0000 0 1100011`. -/
theorem test_decode_beq : decodeWord 0b10000000001000001000000001100011 = .instr (.beq 1 2 0x1000) := by decide

/-- `bne x1, x2, +16` = `0x00209863`, its fields `0 000000 00010 00001 001 1000 0 1100011`. -/
theorem test_decode_bne : decodeWord 0b00000000001000001001100001100011 = .instr (.bne 1 2 16) := by decide

/-- `blt x1, x2, +16` = `0x0020C863`, its fields `0 000000 00010 00001 100 1000 0 1100011`. -/
theorem test_decode_blt : decodeWord 0b00000000001000001100100001100011 = .instr (.blt 1 2 16) := by decide

/-- `bge x1, x2, +16` = `0x0020D863`, its fields `0 000000 00010 00001 101 1000 0 1100011`. -/
theorem test_decode_bge : decodeWord 0b00000000001000001101100001100011 = .instr (.bge 1 2 16) := by decide

/-- `bltu x1, x2, +16` = `0x0020E863`, its fields `0 000000 00010 00001 110 1000 0 1100011`. -/
theorem test_decode_bltu : decodeWord 0b00000000001000001110100001100011 = .instr (.bltu 1 2 16) := by decide

/-- `bgeu x3, x4, +4094` = `0x7E41FFE3`, its fields `0 111111 00100 00011 111 1111 1 1100011`. -/
theorem test_decode_bgeu : decodeWord 0b01111110010000011111111111100011 = .instr (.bgeu 3 4 0x0FFE) := by decide

/-- `lb x3, 3(x1)` = `0x00308183`, its fields `000000000011 00001 000 00011 0000011`. -/
theorem test_decode_lb : decodeWord 0b00000000001100001000000110000011 = .instr (.lb 3 1 3) := by decide

/-- `lh x3, 2(x1)` = `0x00209183`, its fields `000000000010 00001 001 00011 0000011`. -/
theorem test_decode_lh : decodeWord 0b00000000001000001001000110000011 = .instr (.lh 3 1 2) := by decide

/-- `lw x3, -4(x1)` = `0xFFC0A183`, its fields `111111111100 00001 010 00011 0000011`. -/
theorem test_decode_lw : decodeWord 0b11111111110000001010000110000011 = .instr (.lw 3 1 0xFFC) := by decide

/-- `lbu x3, -4(x1)` = `0xFFC0C183`, its fields `111111111100 00001 100 00011 0000011`. -/
theorem test_decode_lbu : decodeWord 0b11111111110000001100000110000011 = .instr (.lbu 3 1 0xFFC) := by decide

/-- `lhu x3, -4(x1)` = `0xFFC0D183`, its fields `111111111100 00001 101 00011 0000011`. -/
theorem test_decode_lhu : decodeWord 0b11111111110000001101000110000011 = .instr (.lhu 3 1 0xFFC) := by decide

/-- `sb x31, 2047(x10)` = `0x7FF50FA3`, its fields `0111111 11111 01010 000 11111 0100011`. -/
theorem test_decode_sb : decodeWord 0b01111111111101010000111110100011 = .instr (.sb 10 31 0x7FF) := by decide

/-- `sh x2, 2(x1)` = `0x00209123`, its fields `0000000 00010 00001 001 00010 0100011`. -/
theorem test_decode_sh : decodeWord 0b00000000001000001001000100100011 = .instr (.sh 1 2 2) := by decide

/-- `sw x2, -2048(x1)` = `0x8020A023`, its fields `1000000 00010 00001 010 00000 0100011`. -/
theorem test_decode_sw : decodeWord 0b10000000001000001010000000100011 = .instr (.sw 1 2 0x800) := by decide

/-- `fence` = `0x0FF0000F`, its fields `000011111111 00000 000 00000 0001111`. -/
theorem test_decode_miscMem : decodeWord 0b00001111111100000000000000001111 = .instr (.miscMem 0 0 0 0x0FF) := by decide

/-- `csrrw x1, mstatus, x2` = `0x300110F3`, its fields `0011000000000001000100001 1110011`. -/
theorem test_decode_system : decodeWord 0b00110000000000010001000011110011 = .instr (.system 0x0600221) := by decide

/-- An atomic is no row of the table (30_encoding.md R148). -/
theorem test_decode_unrecognized : decodeWord 0x0021A0AF = .unrecognized := by decide

/-- One word for each item of R150's list (V31, V32, V61, V100, V120, V132, V82). -/
theorem test_decode_nonCanonical :
    decodeWord 0x02009113 = .nonCanonical .slliUpper ∧ decodeWord 0x6040D113 = .nonCanonical .shiftRightUpper ∧
    decodeWord 0x022081B3 = .nonCanonical .opFunct7 ∧ decodeWord 0x0000A463 = .nonCanonical .branchFunct3 ∧
    decodeWord 0x0000B183 = .nonCanonical .loadFunct3 ∧ decodeWord 0x0020B023 = .nonCanonical .storeFunct3 ∧
    decodeWord 0x00009067 = .nonCanonical .jalrFunct3 := by decide

/-- Section 2's rows for `addi x1, x2, -1` and `sw x2, -2048(x1)`: the decoder's outputs. -/
theorem test_decodeFields :
    decodeFields 0xFFF10093 = ⟨0x13, 0, 0x00, 0xFFFFFFFF, 0x000007FF, 2, 0, 1, 0⟩ ∧
    decodeFields 0x8020A023 = ⟨0x23, 2, 0x00, 0xFFFFF800, 0x00000000, 2, 0, 0, 1⟩ := by decide

/-- A row's bits through the host's entry: `addi x1, x1, 1`, and a refused word. -/
theorem test_decodeTableWord :
    decodeTableWord 32 0x00108093 = some (.addi 1 1 1) ∧ decodeTableWord 32 0x0000B183 = none := by decide

/-! ## States -/

/-- The parameters with P_LOGIC_IMM = SIMM. -/
def simm : Params := { Params.default with logicImm := .simm }

/-- A state at an instruction boundary: `word` at `pc`, the listed registers written, the listed words in memory. -/
def start (p : Params) (pc word : Word) (regs : List (RegIdx × Word)) (data : List (Word × Word)) : State :=
  let s : State := { State.resetWith p with pc := pc, mem := data.foldl (fun m x => targetWrite m x.1 x.2) [] }
  (regs.foldl (fun u x => writeReg x.1 x.2 u) s).withFetchWord 32 word.toNat

/-- One Step ends with this pc, these registers, these memory words and exactly these gaps. -/
def ends (s : State) (pc : Word) (regs : List (RegIdx × Word)) (data : List (Word × Word)) (gaps : List Gap) : Bool :=
  match step s with
  | .next t =>
    t.pc == pc && regs.all (fun x => readReg t x.1 == x.2) &&
      data.all (fun x => targetRead t.mem x.1 == x.2) &&
      decide (t.gaps = gaps.foldl (fun g k => addGap k g) GapRecord.empty)
  | .fault _ => false
  | .refused _ => false

/-- The spec's Step gives the model fault of this register. -/
def faultsAt (r : RegIdx) : CheckedOutcome → Bool
  | .modelFault (.uninitRead q) => q == r
  | .machine _ => false

/-- What the machine does, where the spec's Step gives it. -/
def machineOf : CheckedOutcome → Option Result
  | .machine o => some o
  | .modelFault _ => none

/-- The Step refuses this word. -/
def refusesWord (w : Word) : Result → Bool
  | .refused (.nonCanonical v) => v == w
  | .refused _ => false
  | .next _ => false
  | .fault _ => false

/-- The Step refuses because the mark is set. -/
def refusesMark : Result → Bool
  | .refused .refusalMarkSet => true
  | .refused _ => false
  | .next _ => false
  | .fault _ => false

/-! ## Instructions -/

/-- V2: `addi x1, x1, 1`. -/
theorem test_addi_V2 :
    ends (start .default 0x0 0x00108093 [(1, 0x7FFFFFFF)] []) 0x4 [(1, 0x80000000)] [] [] = true := by decide

/-- V4: `addi x1, x0, -2048`. -/
theorem test_addi_V4 :
    ends (start .default 0x0 0x80000093 [] []) 0x4 [(1, 0xFFFFF800)] [] [] = true := by decide

/-- V7: `slti x3, x1, 0`. -/
theorem test_slti_V7 :
    ends (start .default 0x0 0x0000A193 [(1, 0x80000000)] []) 0x4 [(3, 0x00000001)] [] [] = true := by decide

/-- V8: `slti x3, x1, -2048`. -/
theorem test_slti_V8 :
    ends (start .default 0x0 0x8000A193 [(1, 0xFFFFF800)] []) 0x4 [(3, 0x00000000)] [] [] = true := by decide

/-- V12: `sltiu x3, x1, -1`. -/
theorem test_sltiu_V12 :
    ends (start .default 0x0 0xFFF0B193 [(1, 0xFFFFFFFE)] []) 0x4 [(3, 0x00000001)] [] [.immSign] = true := by decide

/-- V13: `sltiu x3, x1, -1`. -/
theorem test_sltiu_V13 :
    ends (start .default 0x0 0xFFF0B193 [(1, 0xFFFFFFFF)] []) 0x4 [(3, 0x00000000)] [] [.immSign] = true := by decide

/-- V14: `xori x2, x1, -1 (not)`. -/
theorem test_xori_V14 :
    ends (start .default 0x0 0xFFF0C113 [(1, 0x12345678)] []) 0x4 [(2, 0x12345187)] [] [.immSign] = true := by decide

/-- V15: `xori x2, x1, -1 (not)`. -/
theorem test_xori_V15 :
    ends (start simm 0x0 0xFFF0C113 [(1, 0x12345678)] []) 0x4 [(2, 0xEDCBA987)] [] [.immSign] = true := by decide

/-- V16: `ori x2, x0, -16`. -/
theorem test_ori_V16 :
    ends (start .default 0x0 0xFF006113 [] []) 0x4 [(2, 0x000007F0)] [] [.immSign] = true := by decide

/-- V17: `ori x2, x0, -16`. -/
theorem test_ori_V17 :
    ends (start simm 0x0 0xFF006113 [] []) 0x4 [(2, 0xFFFFFFF0)] [] [.immSign] = true := by decide

/-- V19: `andi x2, x1, -256`. -/
theorem test_andi_V19 :
    ends (start .default 0x0 0xF000F113 [(1, 0x12345678)] []) 0x4 [(2, 0x00000600)] [] [.immSign] = true := by decide

/-- V20: `andi x2, x1, -256`. -/
theorem test_andi_V20 :
    ends (start simm 0x0 0xF000F113 [(1, 0x12345678)] []) 0x4 [(2, 0x12345600)] [] [.immSign] = true := by decide

/-- V22: `slli x2, x1, 31`. -/
theorem test_slli_V22 :
    ends (start .default 0x0 0x01F09113 [(1, 0x00000003)] []) 0x4 [(2, 0x80000000)] [] [] = true := by decide

/-- V23: `slli x2, x1, 0`. -/
theorem test_slli_V23 :
    ends (start .default 0x0 0x00009113 [(1, 0xDEADBEEF)] []) 0x4 [(2, 0xDEADBEEF)] [] [] = true := by decide

/-- V24: `srli x2, x1, 31`. -/
theorem test_srli_V24 :
    ends (start .default 0x0 0x01F0D113 [(1, 0x80000000)] []) 0x4 [(2, 0x00000001)] [] [] = true := by decide

/-- V25: `srli x2, x1, 1`. -/
theorem test_srli_V25 :
    ends (start .default 0x0 0x0010D113 [(1, 0xFFFFFFFF)] []) 0x4 [(2, 0x7FFFFFFF)] [] [] = true := by decide

/-- V26: `srai x2, x1, 31`. -/
theorem test_srai_V26 :
    ends (start .default 0x0 0x41F0D113 [(1, 0x80000000)] []) 0x4 [(2, 0xFFFFFFFF)] [] [] = true := by decide

/-- V27: `srai x2, x1, 31`. -/
theorem test_srai_V27 :
    ends (start .default 0x0 0x41F0D113 [(1, 0x7FFFFFFF)] []) 0x4 [(2, 0x00000000)] [] [] = true := by decide

/-- V33: `add x3, x1, x2`. -/
theorem test_add_V33 :
    ends (start .default 0x0 0x002081B3 [(1, 0xFFFFFFFF), (2, 0x00000001)] []) 0x4 [(3, 0x00000000)] [] [] = true := by decide

/-- V36: `add x0, x1, x2`. -/
theorem test_add_V36 :
    ends (start .default 0x0 0x00208033 [(1, 0x00000001), (2, 0x00000002)] []) 0x4 [(1, 0x00000001)] [] [] = true := by decide

/-- V38: `sub x3, x0, x1 (neg)`. -/
theorem test_sub_V38 :
    ends (start .default 0x0 0x401001B3 [(1, 0x00000001)] []) 0x4 [(3, 0xFFFFFFFF)] [] [] = true := by decide

/-- V40: `sub x1, x1, x1`. -/
theorem test_sub_V40 :
    ends (start .default 0x0 0x401080B3 [(1, 0x12345678)] []) 0x4 [(1, 0x00000000)] [] [] = true := by decide

/-- V42: `sll x3, x1, x2`. -/
theorem test_sll_V42 :
    ends (start .default 0x0 0x002091B3 [(1, 0x12345678), (2, 0x00000020)] []) 0x4 [(3, 0x12345678)] [] [] = true := by decide

/-- V43: `sll x3, x1, x2`. -/
theorem test_sll_V43 :
    ends (start .default 0x0 0x002091B3 [(1, 0x12345678), (2, 0xFFFFFFE4)] []) 0x4 [(3, 0x23456780)] [] [] = true := by decide

/-- V45: `slt x3, x1, x2`. -/
theorem test_slt_V45 :
    ends (start .default 0x0 0x0020A1B3 [(1, 0x80000000), (2, 0x7FFFFFFF)] []) 0x4 [(3, 0x00000001)] [] [] = true := by decide

/-- V46: `slt x3, x1, x2`. -/
theorem test_slt_V46 :
    ends (start .default 0x0 0x0020A1B3 [(1, 0x7FFFFFFF), (2, 0x80000000)] []) 0x4 [(3, 0x00000000)] [] [] = true := by decide

/-- V49: `sltu x3, x1, x2`. -/
theorem test_sltu_V49 :
    ends (start .default 0x0 0x0020B1B3 [(1, 0x7FFFFFFF), (2, 0x80000000)] []) 0x4 [(3, 0x00000001)] [] [] = true := by decide

/-- V48: `sltu x3, x0, x1 (snez)`. -/
theorem test_sltu_V48 :
    ends (start .default 0x0 0x001031B3 [(1, 0x00000000)] []) 0x4 [(3, 0x00000000)] [] [] = true := by decide

/-- V51: `xor x3, x1, x2`. -/
theorem test_xor_V51 :
    ends (start .default 0x0 0x0020C1B3 [(1, 0xFFFFFFFF), (2, 0x0000FFFF)] []) 0x4 [(3, 0xFFFF0000)] [] [] = true := by decide

/-- V50: `xor x3, x1, x1`. -/
theorem test_xor_V50 :
    ends (start .default 0x0 0x0010C1B3 [(1, 0xCAFEF00D)] []) 0x4 [(3, 0x00000000)] [] [] = true := by decide

/-- V52: `srl x3, x1, x2`. -/
theorem test_srl_V52 :
    ends (start .default 0x0 0x0020D1B3 [(1, 0x80000000), (2, 0xFFFFFFE4)] []) 0x4 [(3, 0x08000000)] [] [] = true := by decide

/-- V53: `srl x3, x1, x2`. -/
theorem test_srl_V53 :
    ends (start .default 0x0 0x0020D1B3 [(1, 0x80000000), (2, 0x00000000)] []) 0x4 [(3, 0x80000000)] [] [] = true := by decide

/-- V56: `sra x3, x1, x2`. -/
theorem test_sra_V56 :
    ends (start .default 0x0 0x4020D1B3 [(1, 0xF0000000), (2, 0x00000021)] []) 0x4 [(3, 0xF8000000)] [] [] = true := by decide

/-- V55: `sra x3, x1, x2`. -/
theorem test_sra_V55 :
    ends (start .default 0x0 0x4020D1B3 [(1, 0x40000000), (2, 0x0000001F)] []) 0x4 [(3, 0x00000000)] [] [] = true := by decide

/-- V57: `or x3, x1, x0`. -/
theorem test_or_V57 :
    ends (start .default 0x0 0x0000E1B3 [(1, 0x89ABCDEF)] []) 0x4 [(3, 0x89ABCDEF)] [] [] = true := by decide

/-- V58: `and x3, x1, x2`. -/
theorem test_and_V58 :
    ends (start .default 0x0 0x0020F1B3 [(1, 0xF0F0F0F0), (2, 0x0FF00FF0)] []) 0x4 [(3, 0x00F000F0)] [] [] = true := by decide

/-- V64: `lui x5, 0xFFFFF`. -/
theorem test_lui_V64 :
    ends (start .default 0x0 0xFFFFF2B7 [] []) 0x4 [(5, 0xFFFFF000)] [] [] = true := by decide

/-- V66: `lui x0, 0x12345`. -/
theorem test_lui_V66 :
    ends (start .default 0x0 0x12345037 [] []) 0x4 [(0, 0)] [] [] = true := by decide

/-- V68: `auipc x6, 0xFFFFF`. -/
theorem test_auipc_V68 :
    ends (start .default 0x100 0xFFFFF317 [] []) 0x104 [(6, 0xFFFFF100)] [] [] = true := by decide

/-- V69: `auipc x6, 0x80000`. -/
theorem test_auipc_V69 :
    ends (start .default 0x80000000 0x80000317 [] []) 0x80000004 [(6, 0x00000000)] [] [] = true := by decide

/-- V72: `jal x1, -4`. -/
theorem test_jal_V72 :
    ends (start .default 0x10 0xFFDFF0EF [] []) 0xC [(1, 0x00000014)] [] [] = true := by decide

/-- V73: `jal x1, +2`. -/
theorem test_jal_V73 :
    ends (start .default 0x0 0x002000EF [] []) 0x2 [(1, 0x00000004)] [] [.misalignedTarget] = true := by decide

/-- V77: `jalr x1, 0(x1)`. -/
theorem test_jalr_V77 :
    ends (start .default 0x10 0x000080E7 [(1, 0x00000200)] []) 0x200 [(1, 0x00000014)] [] [] = true := by decide

/-- V78: `jalr x0, 1(x1)`. -/
theorem test_jalr_V78 :
    ends (start .default 0x10 0x00108067 [(1, 0x00000200)] []) 0x201 [(1, 0x00000200)] [] [.misalignedTarget] = true := by decide

/-- V95: `beq x0, x0, -4096`. -/
theorem test_beq_V95 :
    ends (start .default 0x0 0x80000063 [] []) 0xFFFFF000 [(0, 0)] [] [] = true := by decide

/-- V96: `beq x0, x0, +4094`. -/
theorem test_beq_V96 :
    ends (start .default 0x0 0x7E000FE3 [] []) 0xFFE [(0, 0)] [] [.misalignedTarget] = true := by decide

/-- V84: `bne x1, x2, +16`. -/
theorem test_bne_V84 :
    ends (start .default 0x200 0x00209863 [(1, 0x00000001), (2, 0x00000002)] []) 0x210 [(1, 0x00000001)] [] [] = true := by decide

/-- V85: `bne x1, x2, +16`. -/
theorem test_bne_V85 :
    ends (start .default 0x200 0x00209863 [(1, 0x00000007), (2, 0x00000007)] []) 0x204 [(1, 0x00000007)] [] [] = true := by decide

/-- V87: `blt x1, x2, +16`. -/
theorem test_blt_V87 :
    ends (start .default 0x200 0x0020C863 [(1, 0x80000000), (2, 0x7FFFFFFF)] []) 0x210 [(1, 0x80000000)] [] [] = true := by decide

/-- V86: `blt x1, x2, +16`. -/
theorem test_blt_V86 :
    ends (start .default 0x200 0x0020C863 [(1, 0x00000005), (2, 0x00000005)] []) 0x204 [(1, 0x00000005)] [] [] = true := by decide

/-- V88: `bge x1, x2, +16`. -/
theorem test_bge_V88 :
    ends (start .default 0x200 0x0020D863 [(1, 0x00000005), (2, 0x00000005)] []) 0x210 [(1, 0x00000005)] [] [] = true := by decide

/-- V89: `bge x1, x2, +16`. -/
theorem test_bge_V89 :
    ends (start .default 0x200 0x0020D863 [(1, 0x80000000), (2, 0x00000000)] []) 0x204 [(1, 0x80000000)] [] [] = true := by decide

/-- V90: `bltu x1, x2, +16`. -/
theorem test_bltu_V90 :
    ends (start .default 0x200 0x0020E863 [(1, 0x00000000), (2, 0xFFFFFFFF)] []) 0x210 [(1, 0x00000000)] [] [] = true := by decide

/-- V91: `bltu x1, x2, +16`. -/
theorem test_bltu_V91 :
    ends (start .default 0x200 0x0020E863 [(1, 0x00000005), (2, 0x00000005)] []) 0x204 [(1, 0x00000005)] [] [] = true := by decide

/-- V92: `bgeu x1, x2, +16`. -/
theorem test_bgeu_V92 :
    ends (start .default 0x200 0x0020F863 [(1, 0x00000000), (2, 0x00000000)] []) 0x210 [(1, 0x00000000)] [] [] = true := by decide

/-- V93: `bgeu x1, x2, +16`. -/
theorem test_bgeu_V93 :
    ends (start .default 0x200 0x0020F863 [(1, 0x00000000), (2, 0x00000001)] []) 0x204 [(1, 0x00000000)] [] [] = true := by decide

/-- V109: `lb x3, 0(x1)`. -/
theorem test_lb_V109 :
    ends (start .default 0x0 0x00008183 [(1, 0x00000100)] [(0x100, 0x12348685), (0x104, 0x0BADF00D), (0xFC, 0xCAFEF00D)]) 0x4 [(3, 0xFFFFFF85)] [] [] = true := by decide

/-- V111: `lb x3, 3(x1)`. -/
theorem test_lb_V111 :
    ends (start .default 0x0 0x00308183 [(1, 0x00000100)] [(0x100, 0x12348685), (0x104, 0x0BADF00D), (0xFC, 0xCAFEF00D)]) 0x4 [(3, 0xFFFFFF85)] [] [.dataOffset] = true := by decide

/-- V113: `lh x3, 2(x1)`. -/
theorem test_lh_V113 :
    ends (start .default 0x0 0x00209183 [(1, 0x00000100)] [(0x100, 0x12348685), (0x104, 0x0BADF00D), (0xFC, 0xCAFEF00D)]) 0x4 [(3, 0xFFFF8685)] [] [.dataOffset] = true := by decide

/-- V114: `lh x3, 4(x1)`. -/
theorem test_lh_V114 :
    ends (start .default 0x0 0x00409183 [(1, 0x00000100)] [(0x100, 0x12348685), (0x104, 0x0BADF00D), (0xFC, 0xCAFEF00D)]) 0x4 [(3, 0xFFFFF00D)] [] [] = true := by decide

/-- V104: `lw x1, 0(x1)`. -/
theorem test_lw_V104 :
    ends (start .default 0x0 0x0000A083 [(1, 0x00000100)] [(0x100, 0x12348685), (0x104, 0x0BADF00D), (0xFC, 0xCAFEF00D)]) 0x4 [(1, 0x12348685)] [] [] = true := by decide

/-- V108: `lw x3, 5(x1)`. -/
theorem test_lw_V108 :
    ends (start .default 0x0 0x0050A183 [(1, 0x00000100)] [(0x100, 0x12348685), (0x104, 0x0BADF00D), (0xFC, 0xCAFEF00D)]) 0x4 [(3, 0x0BADF00D)] [] [.dataOffset] = true := by decide

/-- V115: `lbu x3, 0(x1)`. -/
theorem test_lbu_V115 :
    ends (start .default 0x0 0x0000C183 [(1, 0x00000100)] [(0x100, 0x12348685), (0x104, 0x0BADF00D), (0xFC, 0xCAFEF00D)]) 0x4 [(3, 0x00000085)] [] [] = true := by decide

/-- V116: `lbu x3, -4(x1)`. -/
theorem test_lbu_V116 :
    ends (start .default 0x0 0xFFC0C183 [(1, 0x00000100)] [(0x100, 0x12348685), (0x104, 0x0BADF00D), (0xFC, 0xCAFEF00D)]) 0x4 [(3, 0x0000000D)] [] [] = true := by decide

/-- V117: `lhu x3, 0(x1)`. -/
theorem test_lhu_V117 :
    ends (start .default 0x0 0x0000D183 [(1, 0x00000100)] [(0x100, 0x12348685), (0x104, 0x0BADF00D), (0xFC, 0xCAFEF00D)]) 0x4 [(3, 0x00008685)] [] [] = true := by decide

/-- V118: `lhu x3, -4(x1)`. -/
theorem test_lhu_V118 :
    ends (start .default 0x0 0xFFC0D183 [(1, 0x00000100)] [(0x100, 0x12348685), (0x104, 0x0BADF00D), (0xFC, 0xCAFEF00D)]) 0x4 [(3, 0x0000F00D)] [] [] = true := by decide

/-- V127: `sb x2, 0(x1)`. -/
theorem test_sb_V127 :
    ends (start .default 0x0 0x00208023 [(1, 0x00000100), (2, 0x000000EF)] []) 0x4 [(1, 0x00000100)] [(0x100, 0x000000EF)] [.narrowStore] = true := by decide

/-- V128: `sb x0, 3(x1)`. -/
theorem test_sb_V128 :
    ends (start .default 0x0 0x000081A3 [(1, 0x00000100)] []) 0x4 [(1, 0x00000100)] [(0x100, 0x00000000)] [.dataOffset, .narrowStore] = true := by decide

/-- V125: `sh x2, 0(x1)`. -/
theorem test_sh_V125 :
    ends (start .default 0x0 0x00209023 [(1, 0x00000100), (2, 0xDEADBEEF)] []) 0x4 [(1, 0x00000100)] [(0x100, 0xDEADBEEF)] [.narrowStore] = true := by decide

/-- V126: `sh x2, 2(x1)`. -/
theorem test_sh_V126 :
    ends (start .default 0x0 0x00209123 [(1, 0x00000100), (2, 0xDEADBEEF)] []) 0x4 [(1, 0x00000100)] [(0x100, 0xDEADBEEF)] [.dataOffset, .narrowStore] = true := by decide

/-- V123: `sw x2, -4(x1)`. -/
theorem test_sw_V123 :
    ends (start .default 0x0 0xFE20AE23 [(1, 0x00000100), (2, 0x00000001)] []) 0x4 [(1, 0x00000100)] [(0xFC, 0x00000001)] [] = true := by decide

/-- V124: `sw x2, 1(x1)`. -/
theorem test_sw_V124 :
    ends (start .default 0x0 0x0020A0A3 [(1, 0x00000100), (2, 0xDEADBEEF)] []) 0x4 [(1, 0x00000100)] [(0x100, 0xDEADBEEF)] [.dataOffset] = true := by decide

/-- V136: `MISC-MEM, funct3 = 111`. -/
theorem test_miscMem_V136 :
    ends (start .default 0x20 0x0000700F [] []) 0x24 [(0, 0)] [] [.miscMem] = true := by decide

/-- V148: `MISC-MEM at pc = 0xFFFFFFFC`. -/
theorem test_miscMem_V148 :
    ends (start .default 0xFFFFFFFC 0x0FF0000F [] []) 0x0 [(0, 0)] [] [.miscMem] = true := by decide

/-- V139: `csrrs x3, cycle, x0`. -/
theorem test_system_V139 :
    ends (start .default 0x30 0xC00021F3 [(3, 0x00000077)] []) 0x34 [(3, 0x00000077)] [] [.system] = true := by decide

/-- V137: `ecall`. -/
theorem test_system_V137 :
    ends (start .default 0x30 0x00000073 [] []) 0x34 [(0, 0)] [] [.system] = true := by decide

/-- V145: `amoadd.w x1, x2, (x3)`. -/
theorem test_unrecognized_V145 :
    ends (start .default 0x40 0x0021A0AF [(2, 0x00000001), (3, 0x00000100)] []) 0x44 [(2, 0x00000001)] [] [.unrecognizedOpcode] = true := by decide

/-- V147: `(low half 0x0001, a compressed-looking word)`. -/
theorem test_unrecognized_V147 :
    ends (start .default 0x40 0x00000001 [] []) 0x44 [(0, 0)] [] [.unrecognizedOpcode] = true := by decide

/-! ## Faults, refusals, the clocked machine, reset -/

/-- V29 and V30: an unwritten operand faults in the checked Step, and no gap is recorded; V60: rs1 before rs2. -/
theorem test_uninit :
    faultsAt 5 (stepChecked (start .default 0 0x00128113 [] [])) = true ∧
    faultsAt 5 (stepChecked (start .default 0 0xFF02E113 [] [])) = true ∧
    faultsAt 5 (stepChecked (start .default 0 0x006281B3 [] [])) = true := by decide

/-- 60_exceptions.md R367: the machine has no such fault; V29's and V60's words complete and write rd. -/
theorem test_unwritten_runs :
    (match step (start .default 0 0x00128113 [] []) with
     | .next t => t.pc == 4 && isWritten t 2 && !isWritten t 5
     | .refused _ => false) = true ∧
    (match step (start .default 0 0x006281B3 [] []) with
     | .next t => t.pc == 4 && isWritten t 3
     | .refused _ => false) = true := by decide

/-- V63: a refusal comes before the fault of an unwritten operand. -/
theorem test_refusal_first : ((machineOf (stepChecked (start .default 0 0x022081B3 [] []))).map (refusesWord 0x022081B3)) = some true := by decide

/-- T1: `lw x3, 0(x1)` cycle by cycle with a zero-wait target: the states, and x3 after LOAD's acknowledge. -/
theorem test_T1 :
    (List.range 5).map (fun n => (ticks ([false, true, false, true].take n) (start .default 0 0x0000A183 [(1, 0x100)]
      [(0x100, 0x12348685)])).fsm) = [.readPc, .loadPc, .decode, .load, .readPc] ∧
    readReg (ticks [false, true, false, true] (start .default 0 0x0000A183 [(1, 0x100)] [(0x100, 0x12348685)])) 3 =
      0x12348685 := by decide

/-- T2: `sw x2, 0(x1)` with one wait state on each request; `we_o` stays 1 after the acknowledge, `cyc_o` does not. -/
theorem test_T2 :
    (ticks [false, false, true, false, false, true]
      (start .default 0 0x0020A023 [(1, 0x100), (2, 0xDEADBEEF)] [])).fsm = .readPc ∧
    (ticks [false, false, true, false, false, true]
      (start .default 0 0x0020A023 [(1, 0x100), (2, 0xDEADBEEF)] [])).weO = true ∧
    (ticks [false, false, true, false, false, true]
      (start .default 0 0x0020A023 [(1, 0x100), (2, 0xDEADBEEF)] [])).cycO = false ∧
    targetRead (ticks [false, false, true, false, false, true]
      (start .default 0 0x0020A023 [(1, 0x100), (2, 0xDEADBEEF)] [])).mem 0x100 = 0xDEADBEEF := by decide

/-- 70_reset_and_hazards.md R380, R381: reset in the middle of a load goes to READ_PC and RESET_PC, and x1 is unwritten. -/
theorem test_reset_edge :
    (tick ⟨true, true, false⟩ (ticks [false, true, false] (start .default 0x40 0x0000A183 [(1, 0x100)] []))).fsm = .readPc ∧
    (tick ⟨true, true, false⟩ (ticks [false, true, false] (start .default 0x40 0x0000A183 [(1, 0x100)] []))).pc = 0 ∧
    isWritten (tick ⟨true, true, false⟩ (ticks [false, true, false] (start .default 0x40 0x0000A183 [(1, 0x100)] []))) 1 =
      false := by decide

/-! ## Witnesses: states and operands that meet an obligation's hypotheses -/

/-- Whether an outcome is a next state. -/
def isNext : Result → Bool
  | .next _ => true
  | .fault _ => false
  | .refused _ => false

theorem exists_next {o : Result} (h : isNext o = true) : ∃ t, o = .next t := by
  cases o with
  | next t => exact ⟨t, rfl⟩
  | fault _ => simp [isNext] at h
  | refused _ => simp [isNext] at h

/-- `addi x1, x0, 5` at 0 (V1). -/
def sAddi : State := start .default 0 0x00500093 [] []
/-- `lw x3, 1(x1)` at 0, `x1 = 0x100` (V106). -/
def sLw : State := start .default 0 0x0010A183 [(1, 0x100)] [(0x100, 0x12348685)]
/-- `sw x2, 0(x1)` at 0x40, `x1 = 0x44`: it stores over the next instruction. -/
def sSw : State := start .default 0x40 0x0020A023 [(1, 0x44), (2, 0x00A00093)] []
/-- An atomic, unrecognized (V145). -/
def sAmo : State := start .default 0x40 0x0021A0AF [] []
/-- `mul`, non-canonical (V61). -/
def sMul : State := start .default 0 0x022081B3 [(1, 2), (2, 3)] []
/-- `add x3, x1, x6` with x6 unwritten (V59). -/
def sUninit : State := start .default 0 0x006081B3 [(1, 1)] []
/-- The self-loop at 0x40 (V71). -/
def sLoop : State := start .default 0x40 0x0000006F [] []
/-- A refused machine. -/
def sMarked : State := { sMul with refusalMark := true }

/-- DecodeReadsBackEveryEncoding, at the largest jump and the smallest branch offset. -/
theorem wit_wellFormed :
    Instr.wellFormed (.jal 0 0x0FFFFE) = true ∧ Instr.wellFormed (.beq 1 2 0x1000) = true ∧
    Instr.wellFormed (.addi 1 2 0xFFF) = true := by decide

/-- EncodeWritesBackEveryDecoding. -/
theorem wit_decoded : decodeWord 0x800000EF = .instr (.jal 1 0x100000) := by decide

/-- UnrecognizedOpcodesAreTheOther117, its second clause. -/
theorem wit_lowBits : (0x00000001 : Word).extractLsb' 0 2 ≠ 0b11#2 ∧ (0xFFFFFFFE : Word).extractLsb' 0 2 ≠ 0b11#2 := by
  decide

/-- ITypeImmediates and DecoderOutputsByFormat: a word of each I class, with instr[31] clear and set. -/
theorem wit_classI :
    classOf (opcodeOf 0x7FF00013) = some .opImm ∧ (0x7FF00013 : Word).getLsbD 31 = false ∧
    classOf (opcodeOf 0x80000013) = some .opImm ∧ (0x80000013 : Word).getLsbD 31 = true ∧
    classOf (opcodeOf 0x7FF280E7) = some .jalr ∧ classOf (opcodeOf 0xFFC0A183) = some .load ∧
    classOf (opcodeOf 0x0FF0000F) = some .miscMem := by decide

/-- BranchAndJumpOffsets and DecoderOutputsByFormat: a word of each other format, at the ends of the offsets' ranges. -/
theorem wit_classOthers :
    classOf (opcodeOf 0x80000063) = some .branch ∧ classOf (opcodeOf 0x7E000FE3) = some .branch ∧
    classOf (opcodeOf 0x800000EF) = some .jal ∧ classOf (opcodeOf 0x7FFFF06F) = some .jal ∧
    classOf (opcodeOf 0xFFFFF3B7) = some .lui ∧ classOf (opcodeOf 0x80000417) = some .auipc ∧
    classOf (opcodeOf 0x41DF0FB3) = some .op ∧ classOf (opcodeOf 0x8020A023) = some .store := by decide

/-- SystemAndUnrecognizedFieldsAreZero, both sides. -/
theorem wit_noFormat : classOf (opcodeOf 0xC00021F3) = some .system ∧ classOf (opcodeOf 0xFFFFFFFF) = none := by decide

/-- ReadGivesLastWriteAndZeroForX0: x0, a register written twice, and one not written (E2, R31). -/
theorem wit_writes :
    readReg ([(0, 5), (3, 1), (3, 2)].foldl (fun u w => writeReg w.1 w.2 u) State.reset) 0 = 0 ∧
    readReg ([(0, 5), (3, 1), (3, 2)].foldl (fun u w => writeReg w.1 w.2 u) State.reset) 3 = 2 ∧
    [((0 : RegIdx), (5 : Word)), (3, 1), (3, 2)].reverse.find? (fun w => w.1 == 4) = none := by decide

/-- LogicImmediateResults, under each value of P_LOGIC_IMM, for the immediate 0xFF0 (V16, V17). -/
theorem wit_logicImm :
    (0x000007F0 : Word) = (if sAddi.params.logicImm = .uimm then BitVec.ofNat 32 ((0xFF0 : BitVec 12).toNat % 2048)
      else (0xFF0 : BitVec 12).signExtend 32) ∧
    (0xFFFFFFF0 : Word) = (if (start simm 0 0xFF006113 [] []).params.logicImm = .uimm
      then BitVec.ofNat 32 ((0xFF0 : BitVec 12).toNat % 2048) else (0xFF0 : BitVec 12).signExtend 32) := by decide

/-- NarrowLoadResults, at an address that is not a multiple of 4 (V111). -/
theorem wit_narrowLoad :
    (0x103 : Word) = effectiveAddress (readReg sLw 1) 3 ∧ (0x12348685 : Word) = targetRead sLw.mem 0x103 := by decide

/-- StoredWordIsSeenNext: the store goes to the word of the next pc, and a load of that word follows. -/
theorem wit_storedWord :
    ∃ t u, exec (.sw 1 2 0) sSw = .next t ∧ wordBase t.pc = wordBase (effectiveAddress (readReg sSw 1) 0) ∧
      exec (.lw 3 1 2) t = .next u ∧ (3 : RegIdx) ≠ 0#5 ∧
      wordBase (effectiveAddress (readReg t 1) 2) = wordBase (effectiveAddress (readReg sSw 1) 0) :=
  ⟨_, _, rfl, by decide, rfl, by decide, by decide⟩

/-- StoredWordIsSeenNext, after SH and SB. -/
theorem wit_storedNarrow :
    (∃ t u, exec (.sh 1 2 0) sSw = .next t ∧ wordBase t.pc = wordBase (effectiveAddress (readReg sSw 1) 0) ∧
      exec (.lw 3 1 2) t = .next u ∧ (3 : RegIdx) ≠ 0#5 ∧
      wordBase (effectiveAddress (readReg t 1) 2) = wordBase (effectiveAddress (readReg sSw 1) 0)) ∧
    (∃ t u, exec (.sb 1 2 3) sSw = .next t ∧ wordBase t.pc = wordBase (effectiveAddress (readReg sSw 1) 3) ∧
      exec (.lw 3 1 2) t = .next u ∧ (3 : RegIdx) ≠ 0#5 ∧
      wordBase (effectiveAddress (readReg t 1) 2) = wordBase (effectiveAddress (readReg sSw 1) 3)) :=
  ⟨⟨_, _, rfl, by decide, rfl, by decide, by decide⟩, ⟨_, _, rfl, by decide, rfl, by decide, by decide⟩⟩

/-- StepRunsTheDecodedInstruction. -/
theorem wit_stepInstr :
    sAddi.fsm = .readPc ∧ sAddi.refusalMark = false ∧ decodeWord (targetRead sAddi.mem sAddi.pc) = .instr (.addi 1 0 5) := by
  decide

/-- StepRunsUnrecognizedWordAsNoOp. -/
theorem wit_stepUnrecognized :
    sAmo.fsm = .readPc ∧ sAmo.refusalMark = false ∧ decodeWord (targetRead sAmo.mem sAmo.pc) = .unrecognized := by decide

/-- NonCanonicalWordIsRefused: a refused word; a marked machine and an edge without reset. -/
theorem wit_refused :
    sMul.fsm = .readPc ∧ sMul.refusalMark = false ∧
    decodeWord (targetRead sMul.mem sMul.pc) = .nonCanonical .opFunct7 ∧
    sMarked.refusalMark = true ∧ refusesMark (step sMarked) = true ∧ (⟨false, true, 0⟩ : BusIn).rst = false := by decide

/-- UnwrittenOperandFaultsInTheCheckedStep: the fault's clause, and the clause with every operand written. -/
theorem wit_uninit :
    sUninit.fsm = .readPc ∧ sUninit.refusalMark = false ∧
    decodeWord (targetRead sUninit.mem sUninit.pc) = .instr (.add 3 1 6) ∧
    (operandRegs (.add 3 1 6)).find? (fun q => !isWritten sUninit q) = some 6 ∧
    decodeWord (targetRead sLw.mem sLw.pc) = .instr (.lw 3 1 1) ∧
    (operandRegs (.lw 3 1 1)).all (fun r => isWritten sLw r) = true := by decide

/-- InvariantHoldsAtReset: the default RESET_PC and another multiple of 4. -/
theorem wit_paramsWf : Params.default.wf ∧ ({ Params.default with resetPc := 0xFFFFFFFC } : Params).wf := by decide

/-- PlacedWordRunsNext: a word that is an instruction. -/
theorem wit_placedWord : decodeWord 0x00500093 = .instr (.addi 1 0 5) := by decide

/-- BootImagePlacesTheBytes: the last byte of a two-byte image, and the first address beyond it. -/
theorem wit_bootImage :
    ([0x13, 0x01] : List Byte)[1]? = some 0x01 ∧ 1 < 2 ^ 32 ∧ ([0x13, 0x01] : List Byte).length ≤ 2 := by decide

/-- StepKeepsInvariant: at a boundary, and in the middle of a load. -/
theorem wit_stepInv :
    ((∃ t, step sSw = .next t) ∧ busInv sSw ∧ memInv sSw ∧ pcInv sSw) ∧
    ((∃ t, step (ticks [false, true, false] sLw) = .next t) ∧ busInv (ticks [false, true, false] sLw) ∧
      memInv (ticks [false, true, false] sLw) ∧ pcInv (ticks [false, true, false] sLw) ∧
      (ticks [false, true, false] sLw).fsm = .load) :=
  ⟨⟨exists_next (by decide), by decide, by decide, by decide⟩,
    ⟨exists_next (by decide), by decide, by decide, by decide, by decide⟩⟩

/-- pcInv with a misaligned pc: MISALIGNED_TARGET is then recorded (V73). -/
theorem wit_misalignedPc :
    pcInv { sAddi with pc := 2, gaps := addGap .misalignedTarget GapRecord.empty } ∧ ¬ pcInv { sAddi with pc := 2 } := by decide

/-- ClockKeepsInvariant: a wait state, in LOAD and in STORE. -/
theorem wit_clockInv :
    busInv (ticks [false] sAddi) ∧ memInv (ticks [false] sAddi) ∧ pcInv (ticks [false] sAddi) ∧
    (ticks [false, true, false] sSw).fsm = .store ∧ busInv (ticks [false, true, false] sSw) := by decide

/-- GapRecordNeverShrinks, both clauses: a state with a gap recorded, that steps, and an edge without reset. -/
theorem wit_gapKept :
    (∃ t, step { sAddi with gaps := addGap .system GapRecord.empty } = .next t) ∧
    hasGap (addGap .system GapRecord.empty) .system = true ∧ (⟨false, false, 0⟩ : BusIn).rst = false :=
  ⟨exists_next (by decide), by decide, by decide⟩

/-- GapsAreRecordedExactlyByTheTable, OnlyTheDestinationRegisterChanges: an instruction with a next state, a register that is
not its destination, and an instruction with no destination. -/
theorem wit_execNext :
    (∃ t, exec (.sb 1 2 1) sSw = .next t) ∧ destination (.sb 1 2 1) = none ∧
    (∃ t, exec (.addi 1 0 5) sAddi = .next t) ∧ destination (.addi 1 0 5) ≠ some 2 :=
  ⟨⟨_, rfl⟩, rfl, ⟨_, rfl⟩, by decide⟩

/-- OneFetchThenAtMostOneDataTransaction: an instruction without a data transaction, a load and a store. -/
theorem wit_oneTransaction :
    ((∃ t, step sAddi = .next t) ∧ sAddi.fsm = .readPc ∧
      accessesData (decodeWord (targetRead sAddi.mem sAddi.pc)) = false) ∧
    ((∃ t, step sLw = .next t) ∧ decodeWord (targetRead sLw.mem sLw.pc) = .instr (.lw 3 1 1) ∧
      dataAddress sLw (.lw 3 1 1) = some 0x101) ∧
    ((∃ t, step sSw = .next t) ∧ decodeWord (targetRead sSw.mem sSw.pc) = .instr (.sw 1 2 0) ∧
      dataAddress sSw (.sw 1 2 0) = some 0x44) :=
  ⟨⟨exists_next (by decide), by decide, by decide⟩, ⟨exists_next (by decide), by decide, by decide⟩,
    ⟨exists_next (by decide), by decide, by decide⟩⟩

/-- OnlyStoresChangeMemory: the bytes just below and just above the stored word 0x44. -/
theorem wit_storedBytes :
    (∃ t, exec (.sw 1 2 0) sSw = .next t) ∧ isStore (.sw 1 2 0) = true ∧ dataAddress sSw (.sw 1 2 0) = some 0x44 ∧
    0x43 < wordBase 0x44 ∧ wordBase 0x44 + 4 ≤ 0x48 :=
  ⟨⟨_, rfl⟩, by decide, by decide, by decide, by decide⟩

/-- OpcodeTableRowsDecode: each row, with every operand bit 1. -/
theorem wit_opcodeTable :
    (0xFFFF8F93 : Word) &&& 0x707F = 0x13 ∧
    (0xFFFFAF93 : Word) &&& 0x707F = 0x2013 ∧
    (0xFFFFBF93 : Word) &&& 0x707F = 0x3013 ∧
    (0xFFFFCF93 : Word) &&& 0x707F = 0x4013 ∧
    (0xFFFFEF93 : Word) &&& 0x707F = 0x6013 ∧
    (0xFFFFFF93 : Word) &&& 0x707F = 0x7013 ∧
    (0x01FF9F93 : Word) &&& 0xFE00707F = 0x1013 ∧
    (0x01FFDF93 : Word) &&& 0xFE00707F = 0x5013 ∧
    (0x41FFDF93 : Word) &&& 0xFE00707F = 0x40005013 ∧
    (0x01FF8FB3 : Word) &&& 0xFE00707F = 0x33 ∧
    (0x41FF8FB3 : Word) &&& 0xFE00707F = 0x40000033 ∧
    (0x01FF9FB3 : Word) &&& 0xFE00707F = 0x1033 ∧
    (0x01FFAFB3 : Word) &&& 0xFE00707F = 0x2033 ∧
    (0x01FFBFB3 : Word) &&& 0xFE00707F = 0x3033 ∧
    (0x01FFCFB3 : Word) &&& 0xFE00707F = 0x4033 ∧
    (0x01FFDFB3 : Word) &&& 0xFE00707F = 0x5033 ∧
    (0x41FFDFB3 : Word) &&& 0xFE00707F = 0x40005033 ∧
    (0x01FFEFB3 : Word) &&& 0xFE00707F = 0x6033 ∧
    (0x01FFFFB3 : Word) &&& 0xFE00707F = 0x7033 ∧
    (0xFFFFFFB7 : Word) &&& 0x7F = 0x37 ∧
    (0xFFFFFF97 : Word) &&& 0x7F = 0x17 ∧
    (0xFFFFFFEF : Word) &&& 0x7F = 0x6F ∧
    (0xFFFF8FE7 : Word) &&& 0x707F = 0x67 ∧
    (0xFFFF8FE3 : Word) &&& 0x707F = 0x63 ∧
    (0xFFFF9FE3 : Word) &&& 0x707F = 0x1063 ∧
    (0xFFFFCFE3 : Word) &&& 0x707F = 0x4063 ∧
    (0xFFFFDFE3 : Word) &&& 0x707F = 0x5063 ∧
    (0xFFFFEFE3 : Word) &&& 0x707F = 0x6063 ∧
    (0xFFFFFFE3 : Word) &&& 0x707F = 0x7063 ∧
    (0xFFFF8F83 : Word) &&& 0x707F = 0x3 ∧
    (0xFFFF9F83 : Word) &&& 0x707F = 0x1003 ∧
    (0xFFFFAF83 : Word) &&& 0x707F = 0x2003 ∧
    (0xFFFFCF83 : Word) &&& 0x707F = 0x4003 ∧
    (0xFFFFDF83 : Word) &&& 0x707F = 0x5003 ∧
    (0xFFFF8FA3 : Word) &&& 0x707F = 0x23 ∧
    (0xFFFF9FA3 : Word) &&& 0x707F = 0x1023 ∧
    (0xFFFFAFA3 : Word) &&& 0x707F = 0x2023 ∧
    (0xFFFFFF8F : Word) &&& 0x7F = 0xF ∧
    (0xFFFFFFF3 : Word) &&& 0x7F = 0x73 := by decide

/-- NextPcFollowsTheRule: a branch taken to itself and one not taken (V97, V98), and an unrecognized word. -/
theorem wit_nextPc :
    (∃ t, exec (.bne 0 0 2) sAddi = .next t) ∧ (∃ t, exec (.beq 0 0 0) sAddi = .next t) ∧ sAmo.fsm = .readPc ∧
      decodeWord (targetRead sAmo.mem sAmo.pc) = .unrecognized ∧ ∃ t, step sAmo = .next t :=
  ⟨⟨_, rfl⟩, ⟨_, rfl⟩, by decide, by decide, ⟨_, rfl⟩⟩

/-- SelfLoopEndsTheRun: at a multiple of 4 and at the odd pc of program P6. -/
theorem wit_endOfRun :
    atEndOfRun sLoop ∧ pcInv sLoop ∧
    atEndOfRun { sLoop with pc := 0x41, gaps := addGap .misalignedTarget GapRecord.empty } ∧
    pcInv { sLoop with pc := 0x41, gaps := addGap .misalignedTarget GapRecord.empty } := by decide

/-- ClockedMachineRefinesStep: a Step with a data transaction, and a refused one. -/
theorem wit_refines :
    (sLw.fsm = .readPc ∧ sLw.refusalMark = false ∧ ∃ t, step sLw = .next t) ∧
    sMul.fsm = .readPc ∧ sMul.refusalMark = false ∧ step sMul = .refused (.nonCanonical 0x022081B3) :=
  ⟨⟨rfl, rfl, exists_next (by decide)⟩, rfl, rfl, rfl⟩

/-- A target that answers fetches with one word and every other request with another. -/
def twoWords (fetched data : Word) : Target := fun trace _ => some (if trace.isEmpty then fetched else data)

/-- Whether a Step under a target reaches the next boundary. -/
def isNextUnder : TargetOutcome → Bool
  | .next _ => true
  | .hang _ => false
  | .refused _ => false
  | .modelFault _ _ => false

theorem exists_nextUnder {o : TargetOutcome} (h : isNextUnder o = true) : ∃ t, o = .next t := by
  cases o with
  | next t => exact ⟨t, rfl⟩
  | hang _ => simp [isNextUnder] at h
  | refused _ => simp [isNextUnder] at h
  | modelFault _ _ => simp [isNextUnder] at h

/-- ClockedMachineFollowsAnyTarget: `addi`, and `lw x3, 1(x1)` whose data the target makes up. -/
theorem wit_anyTarget :
    (sAddi.fsm = .readPc ∧
      twoWords 0x00500093 7 (beginFetch sAddi).trace (pendingRequest (beginFetch sAddi)) = some 0x00500093 ∧
      (∃ t, stepUnder (twoWords 0x00500093 7) sAddi = .next t) ∧
      (decodeEdge (endFetch 0x00500093 (beginFetch sAddi))).fsm = .readPc) ∧
    (sLw.fsm = .readPc ∧ (∃ t, stepUnder (twoWords 0x0010A183 7) sLw = .next t) ∧
      (decodeEdge (endFetch 0x0010A183 (beginFetch sLw))).fsm ≠ .readPc ∧
      twoWords 0x0010A183 7 (decodeEdge (endFetch 0x0010A183 (beginFetch sLw))).trace
        (pendingRequest (decodeEdge (endFetch 0x0010A183 (beginFetch sLw)))) = some 7) :=
  ⟨⟨rfl, by decide, exists_nextUnder (by decide), by decide⟩,
    ⟨rfl, exists_nextUnder (by decide), by decide, by decide⟩⟩

/-- ReferenceOracleAgreesWithStep: a state whose trace is empty, so that its memory is the boot memory. -/
theorem wit_oracle : sLw.fsm = .readPc ∧ sLw.mem = replay sLw.mem sLw.trace ∧ ∃ t, step sLw = .next t :=
  ⟨rfl, by decide, exists_next (by decide)⟩

/-- WaitStatesOnlyWait, AcknowledgeDropsTheRequest, StrayAcknowledgeIsIgnored, FetchAcknowledgeLatchesIr: a state that waits
and one that does not, edges with and without an acknowledge. -/
theorem wit_waits :
    (ticks [false] sAddi).fsm.waits = true ∧ (ticks [false] sAddi).refusalMark = false ∧
    (ticks [false] sAddi).fsm = .loadPc ∧ sAddi.fsm.waits = false ∧
    (⟨false, false, 5⟩ : BusIn).ack = false ∧ (⟨false, true, 5⟩ : BusIn).ack = true ∧
    ¬ (sAddi.fsm = .loadPc ∧ (⟨false, true, 5⟩ : BusIn).ack = true) := by decide

/-- PcAndRegistersAreWrittenInTheirCycles: a state other than DECODE, with and without LOAD's acknowledge. -/
theorem wit_cycles :
    (ticks [false, true, false] sLw).fsm = .load ∧ (ticks [false, true, false] sLw).fsm ≠ .decode ∧
    (ticks [false, true, false] sLw).refusalMark = false ∧ ¬ ((ticks [false] sLw).fsm = .load ∧ (⟨false, true, 0⟩ : BusIn).ack = true) := by decide

/-- ResetEdgeTakesResetValues: a store abandoned by reset, performed by the target or not, which its clauses tell apart. -/
theorem wit_abandonedStore :
    (ticks [false, true, false] sSw).fsm = .store ∧ (ticks [false, true, false] sSw).refusalMark = false ∧
    (⟨true, false, true⟩ : EnvIn).rst = true ∧ (⟨true, false, true⟩ : EnvIn).abandonedLands = true ∧
    (⟨true, false, false⟩ : EnvIn).abandonedLands = false := by decide

/-- Whether a Step under a target hangs, and in which state of the controller. -/
def hangsIn (f : Fsm) : TargetOutcome → Bool
  | .hang h => h.fsm == f
  | .next _ => false
  | .refused _ => false
  | .modelFault _ _ => false

/-- A target that answers the first request with a word and never acknowledges another. -/
def oneWord (w : Word) : Target := fun trace _ => if trace.isEmpty then some w else none

/-- HangKeepsWaiting: a fetch that is never acknowledged, and a load and a store that are not, in both Steps; and a target
that meets TARGET_ACKS. -/
theorem wit_hang :
    sLw.fsm = .readPc ∧ hangsIn .loadPc (stepUnder (fun _ _ => none) sLw) = true ∧
    hangsIn .load (stepUnder (oneWord 0x0010A183) sLw) = true ∧
    hangsIn .load (specStep (oneWord 0x0010A183) sLw) = true ∧
    hangsIn .store (specStep (oneWord 0x0020A023) sSw) = true ∧ TargetAcks (fun _ _ => some 7) :=
  ⟨rfl, by decide, by decide, by decide, by decide, fun _ _ => rfl⟩

/-- UnwrittenOperandFaultsInTheCheckedStep, R355's order under targets: a fetch hang; MUL with unwritten operands is refused;
`lw x3, 1(x1)` with x1 unwritten faults though its load would hang, and hangs with x1 written; an unrecognized word. -/
theorem wit_order :
    State.reset.refusalMark = false ∧ fetchAnswer (fun _ _ => none) State.reset = none ∧
    fetchAnswer (oneWord 0x022081B3) State.reset = some 0x022081B3 ∧ decodeWord 0x022081B3 = .nonCanonical .opFunct7 ∧
    fetchAnswer (oneWord 0x0010A183) State.reset = some 0x0010A183 ∧ decodeWord 0x0010A183 = .instr (.lw 3 1 1) ∧
    (operandRegs (.lw 3 1 1)).find? (fun q => !isWritten State.reset q) = some 1 ∧
    (operandRegs (.lw 3 1 1)).all (fun q => isWritten sLw q) = true ∧ decodeWord 0x0021A0AF = .unrecognized := by decide

/-- R355 items 3 and 5: the fault of an unwritten base comes before the hang of the load. -/
theorem test_fault_before_hang :
    (match specStep (oneWord 0x0010A183) State.reset with
     | .modelFault (.uninitRead r) t => r == 1 && t.pc == State.reset.pc && t.gaps == GapRecord.empty
     | .next _ => false
     | .hang _ => false
     | .refused _ => false) = true := by decide

/-- R355 item 2: a non-canonical word is refused though its operands are unwritten. -/
theorem test_refusal_before_fault :
    (match specStep (oneWord 0x022081B3) State.reset with
     | .refused t => t.refusalMark && t.pc == State.reset.pc
     | .next _ => false
     | .hang _ => false
     | .modelFault _ _ => false) = true := by decide

/-- SelfLoopEndsTheRun, its clauses on runs: `addi x1, x0, 5` and then the self-loop end after one Step (R396). -/
theorem wit_finalAfter :
    endOfRun (twoWords 0x0000006F 0) State.reset = true ∧ pcInv State.reset ∧
    (finalAfter (twoWords 0x00500093 0x0000006F) 1 State.reset).isSome = true ∧
    (finalAfter (twoWords 0x00500093 0x0000006F) 1 State.reset).map (fun t => (t.pc, regContent t 1, regContent t 2)) =
      some (4, some 5, none) := by decide

/-- ReferenceOracleAgreesWithStep, its clauses on the checked Step and the end of a run. -/
theorem wit_oracleChecked :
    (sLw.mem = replay sLw.mem sLw.trace ∧ ∃ t, stepChecked sLw = .machine (.next t)) ∧
    (sUninit.fsm = .readPc ∧ sUninit.mem = replay sUninit.mem sUninit.trace ∧ stepChecked sUninit = .modelFault (.uninitRead 6)) ∧
    sLoop.mem = replay sLoop.mem sLoop.trace ∧ atEndOfRun sLoop :=
  ⟨⟨by decide, _, rfl⟩, ⟨rfl, by decide, rfl⟩, by decide, by decide⟩

end Sys2Proof.Tests
end

section
/-! PROOF. The statements on the machine's state (10_state.md): the register file, the model fault of an unwritten operand,
who writes the pc and the registers, and reset. Each part's laws stand before the statement they settle. -/

namespace Sys2Proof.Machine

/-! ### The register file -/

/-- Settles O11, by induction on the list of writes from its end, the last write first. -/
theorem readGivesLastWriteAndZeroForX0 : Obligations.ReadGivesLastWriteAndZeroForX0 := by
  unfold Obligations.ReadGivesLastWriteAndZeroForX0
  intro ws s r
  by_cases hr : r = 0#5
  · simp [hr]
  rw [if_neg hr]
  induction ws using List.reverseRecOn with
  | nil => rfl
  | append_singleton ws w ih =>
    rw [List.foldl_concat, readReg_writeReg, List.reverse_concat]
    by_cases hw : w.1 = r
    · rw [List.find?_cons_of_pos (by simp [hw]), if_pos ⟨hw.symm, hr⟩]
    · rw [List.find?_cons_of_neg (by simp [hw]), if_neg (fun h => hw h.1.symm), ih]

/-! ### The model fault of an unwritten operand -/

/-- The register that an unwritten-operand fault names is not `x0`, which always has a value (R31, R33). -/
theorem ne_zero_of_uninitOperand {i : Instr} {s : State} {r : RegIdx} (h : uninitOperand i s = some r) : r ≠ 0#5 := by
  rintro rfl
  simpa using List.find?_some h

/-- No operand is at fault when all of them are written. -/
theorem uninitOperand_eq_none {i : Instr} {s : State} (h : ∀ r ∈ operandRegs i, isWritten s r = true) :
    uninitOperand i s = none := by
  simpa [uninitOperand] using h

/-- The instruction a Step from a boundary is about to run is the one at `pc`. -/
theorem nextInstr_of_boundary {s : State} {i : Instr} (hf : s.fsm = .readPc)
    (hd : decodeWord (targetRead s.mem s.pc) = .instr i) : nextInstr s = some i := by
  obtain ⟨hir, -⟩ := fetch_law s
  simp only [nextInstr, hf, hir, hd, instrOf]

theorem stepChecked_of_uninitOperand {s : State} {i : Instr} {r : RegIdx} (hm : s.refusalMark = false)
    (hi : nextInstr s = some i) (hr : uninitOperand i s = some r) : stepChecked s = .modelFault (.uninitRead r) := by
  simp [stepChecked, hm, hi, hr]

theorem stepChecked_of_written {s : State} {i : Instr} (hi : nextInstr s = some i) (hw : uninitOperand i s = none) :
    stepChecked s = .machine (step s) := by
  simp [stepChecked, hi, hw]

/-- A Fetch that is not acknowledged hangs the spec's Step before anything else can happen (R355 item 1). -/
theorem specStep_of_fetch_hang {target : Target} {s : State} (hm : s.refusalMark = false)
    (ha : fetchAnswer target s = none) : specStep target s = .hang (beginFetch s) := by
  rw [specStep, fetchUnder_eq _ _ _ hm, ha]

/-- After an acknowledged Fetch the spec's Step goes on from DECODE with the fetched word. -/
theorem specStep_of_fetch {target : Target} {s : State} {w : Word} (hm : s.refusalMark = false)
    (ha : fetchAnswer target s = some w) : specStep target s = executeSpec target (endFetch w (beginFetch s)) := by
  rw [specStep, fetchUnder_eq _ _ _ hm, ha]

/-- So does the hardware's Step, with DECODE's edge. -/
theorem stepUnder_of_fetch {target : Target} {s : State} {w : Word} (hm : s.refusalMark = false)
    (ha : fetchAnswer target s = some w) :
    stepUnder target s = finishUnder target (decodeEdge (endFetch w (beginFetch s))) := by
  rw [stepUnder, fetchUnder_eq _ _ _ hm, ha]

/-- From DECODE on the spec's Step refuses a non-canonical word (R355 item 2). -/
theorem executeSpec_nonCanonical {target : Target} {s : State} {why : NonCanonical}
    (hd : decodeWord s.ir = .nonCanonical why) : executeSpec target s = .refused { s with refusalMark := true } := by
  simp only [executeSpec, hd]

/-- It runs a word with an unrecognized opcode as the hardware does. -/
theorem executeSpec_unrecognized {target : Target} {s : State} (hd : decodeWord s.ir = .unrecognized) :
    executeSpec target s = finishUnder target (decodeEdge s) := by
  simp only [executeSpec, hd]

/-- It faults on an unwritten operand before any data request (R355 item 3). -/
theorem executeSpec_of_uninitOperand {target : Target} {s : State} {i : Instr} {r : RegIdx}
    (hd : decodeWord s.ir = .instr i) (hr : uninitOperand i s = some r) :
    executeSpec target s = .modelFault (.uninitRead r) s := by
  simp only [executeSpec, hd, hr]

/-- With every operand written it runs the instruction as the hardware does. -/
theorem executeSpec_of_written {target : Target} {s : State} {i : Instr} (hd : decodeWord s.ir = .instr i)
    (hw : uninitOperand i s = none) : executeSpec target s = finishUnder target (decodeEdge s) := by
  simp only [executeSpec, hd, hw]

/-- Settles O36: the checked Step by the operands of the instruction at `pc`, the spec's Step by R355's order. -/
theorem unwrittenOperandFaultsInTheCheckedStep : Obligations.UnwrittenOperandFaultsInTheCheckedStep := by
  unfold Obligations.UnwrittenOperandFaultsInTheCheckedStep
  refine ⟨fun s i hf hm hd => ?_, fun target s hm ha => specStep_of_fetch_hang hm ha, fun target s w hm ha => ?_⟩
  · have hi := nextInstr_of_boundary hf hd
    exact ⟨fun r hr => ⟨stepChecked_of_uninitOperand hm hi hr, ne_zero_of_uninitOperand hr⟩,
      fun hw => stepChecked_of_written hi (uninitOperand_eq_none hw)⟩
  · rw [specStep_of_fetch hm ha, stepUnder_of_fetch hm ha]
    refine ⟨fun why hd => executeSpec_nonCanonical hd, fun i r hd hr => executeSpec_of_uninitOperand hd ?_,
      fun i hd hw => executeSpec_of_written hd ?_, fun hd => executeSpec_unrecognized hd⟩
    · rw [uninitOperand_endFetch]; exact hr
    · rw [uninitOperand_endFetch]; exact uninitOperand_eq_none hw

/-! ### Who writes a register -/

/-- A write of one register leaves every other one. -/
theorem WritesRegister.other {s t : State} {rd r : RegIdx} {v : Word} (h : WritesRegister s t rd v) (hr : r ≠ rd) :
    readReg t r = readReg s r ∧ isWritten t r = isWritten s r := by
  simp [h.reads r, h.marks r, hr]

/-- The register write by itself. -/
theorem writeReg_law (rd : RegIdx) (v : Word) (s : State) : WritesRegister s (writeReg rd v s) rd v :=
  ⟨by simp, by simp, rfl, rfl⟩

/-- Recording a gap changes no register. -/
theorem recordGap_keepsRegisters (k : Gap) (s : State) : KeepsRegisters s (recordGap k s) :=
  ⟨by simp, by simp, rfl, rfl⟩

/-- What follows a register write and keeps the registers keeps the write. -/
theorem WritesRegister.trans_keeps {s t u : State} {rd : RegIdx} {v : Word} (h : WritesRegister s t rd v)
    (k : KeepsRegisters t u) : WritesRegister s u rd v :=
  ⟨fun r => (k.reads r).trans (h.reads r), fun r => (k.marks r).trans (h.marks r), k.lastIdx.trans h.lastIdx,
    k.lastVal.trans h.lastVal⟩

/-- An instruction makes one register write, to its destination, or none if it has no destination (R37). -/
theorem exec_registers {i : Instr} {s t : State} (h : exec i s = .next t) :
    (∃ rd v, destination i = some rd ∧ WritesRegister s t rd v) ∨ (destination i = none ∧ KeepsRegisters s t) := by
  cases exec_shape h with
  | result rd v c hdest => exact .inl ⟨rd, v, hdest, (writeResult_law rd v c .immSign s).1⟩
  | jump target rd hdest => exact .inl ⟨rd, _, hdest, (writeReg_law rd _ s).trans_keeps (jumpTo_law target _).1⟩
  | branch rel rs1 rs2 off hdest => exact .inr ⟨hdest, (branchIf_law rel rs1 rs2 off s).1⟩
  | load rd w g ea hdest => exact .inl ⟨rd, _, hdest, (loadFrom_law rd w g ea s).1⟩
  | store n ea d hdest => exact .inr ⟨hdest, (storeTo_law n ea d s).1⟩
  | noOp k _ hdest => exact .inr ⟨hdest, (recordGap_keepsRegisters k s).trans' (advance_law _).1⟩

/-- Settles O47, by whether the instruction has a destination. -/
theorem onlyTheDestinationRegisterChanges : Obligations.OnlyTheDestinationRegisterChanges := by
  unfold Obligations.OnlyTheDestinationRegisterChanges
  intro i s t h
  rcases exec_registers h with ⟨rd, v, hdest, hw⟩ | ⟨hdest, hk⟩
  · rw [hdest]
    exact ⟨fun r hr => hw.other (fun e => hr (congrArg some e.symm)), fun hn => by cases hn⟩
  · exact ⟨fun r _ => ⟨hk.reads r, hk.marks r⟩, fun _ => ⟨hk.lastIdx, hk.lastVal⟩⟩

/-! ### Who writes the pc and the registers in the clocked machine -/

/-- What an edge without reset can do, with the state of the controller in which it does it (40_controller.md R171): nothing,
in a stopped or a waiting machine, or the one operation of the controller's state. -/
inductive ClockShape (b : BusIn) (s : State) : State → Prop where
  | stopped : s.refusalMark = true → ClockShape b s s
  | waiting : s.refusalMark = false → s.fsm.waits = true → b.ack = false → ClockShape b s s
  | beginFetch : s.refusalMark = false → s.fsm = .readPc → ClockShape b s (beginFetch s)
  | endFetch : s.refusalMark = false → s.fsm = .loadPc → b.ack = true → ClockShape b s (endFetch b.dat s)
  | decode : s.refusalMark = false → s.fsm = .decode → ClockShape b s (decodeEdge s)
  | endLoad : s.refusalMark = false → s.fsm = .load → b.ack = true → ClockShape b s (endLoad b.dat s)
  | endStore : s.refusalMark = false → s.fsm = .store → b.ack = true → ClockShape b s (endStore s)

/-- An edge without reset has one of the seven shapes. -/
theorem clock_shape {b : BusIn} {s t : State} (hrst : b.rst = false) (h : clock b s = t) : ClockShape b s t := by
  subst h
  unfold clock
  rw [if_neg (by simp [hrst])]
  cases hm : s.refusalMark with
  | true => exact .stopped hm
  | false =>
    rw [if_neg Bool.false_ne_true]
    cases hf : s.fsm with
    | readPc => exact .beginFetch hm hf
    | decode => exact .decode hm hf
    | loadPc =>
      cases ha : b.ack with
      | true => exact .endFetch hm hf ha
      | false => exact .waiting hm (by rw [hf]; rfl) ha
    | load =>
      cases ha : b.ack with
      | true => exact .endLoad hm hf ha
      | false => exact .waiting hm (by rw [hf]; rfl) ha
    | store =>
      cases ha : b.ack with
      | true => exact .endStore hm hf ha
      | false => exact .waiting hm (by rw [hf]; rfl) ha

/-- R41: outside DECODE an edge without reset keeps the pc. -/
theorem clock_pc_of_ne_decode {b : BusIn} {s : State} (hrst : b.rst = false) (hf : s.fsm ≠ .decode) :
    (clock b s).pc = s.pc := by
  generalize ht : clock b s = t
  cases clock_shape hrst ht with
  | decode _ hd => exact absurd hd hf
  | stopped | waiting | beginFetch | endFetch | endLoad | endStore => rfl

/-- Outside DECODE and the LOAD acknowledge an edge without reset keeps the registers. -/
theorem clock_reads_of_no_write {b : BusIn} {s : State} (hrst : b.rst = false) (hf : s.fsm ≠ .decode)
    (hl : ¬ (s.fsm = .load ∧ b.ack = true)) (r : RegIdx) : readReg (clock b s) r = readReg s r := by
  generalize ht : clock b s = t
  cases clock_shape hrst ht with
  | decode _ hd => exact absurd hd hf
  | endLoad _ hload ha => exact absurd ⟨hload, ha⟩ hl
  | stopped | waiting => rfl
  | beginFetch => exact readReg_beginFetch s r
  | endFetch => exact readReg_endFetch b.dat s r
  | endStore => exact readReg_endStore s r

/-- The LOAD acknowledge edge is the end of the load. -/
theorem clock_load_ack {b : BusIn} {s : State} (hrst : b.rst = false) (hm : s.refusalMark = false) (hf : s.fsm = .load)
    (ha : b.ack = true) : clock b s = endLoad b.dat s := by
  simp [clock, hrst, hm, hf, ha]

/-- Settles O57: the pc and the registers over the shapes of an edge, and the end of a load. -/
theorem pcAndRegistersAreWrittenInTheirCycles : Obligations.PcAndRegistersAreWrittenInTheirCycles := by
  unfold Obligations.PcAndRegistersAreWrittenInTheirCycles
  intro b s hrst hf
  refine ⟨clock_pc_of_ne_decode hrst hf, clock_reads_of_no_write hrst hf, fun hload ha hm r => ?_⟩
  rw [clock_load_ack hrst hm hload ha, readReg_endLoad]

/-! ### Reset -/

/-- After reset no register but `x0` has a value (R33, R52). -/
@[simp] theorem isWritten_resetWith (p : Params) (r : RegIdx) : isWritten (State.resetWith p) r = decide (r = 0#5) := by
  by_cases hr : r = 0#5
  · simp [hr]
  · simp [isWritten, State.resetWith, hr, slot_lt hr]

/-- Settles O38: the fields as the reset state has them, `x0`, the written bits and the gap record by their laws. -/
theorem resetLeavesWhatTheSpecSays : Obligations.ResetLeavesWhatTheSpecSays := by
  unfold Obligations.ResetLeavesWhatTheSpecSays
  exact ⟨fun p => ⟨rfl, rfl, rfl, rfl, rfl, readReg_zero _, isWritten_resetWith p, hasGap_empty, rfl, rfl⟩, rfl, rfl, rfl⟩

/-- After boot the core requests nothing, in READ_PC: the bus handshake holds. -/
theorem busInv_bootImage (p : Params) (blob : List Byte) : busInv (bootImage p blob) := by
  simp [busInv, bootImage, State.resetWith, Fsm.waits]

/-- The image has the canonical form. -/
theorem memInv_bootImage (p : Params) (blob : List Byte) : memInv (bootImage p blob) := memWf_imageFrom 0 blob

/-- The pc after boot is RESET_PC, a multiple of 4 if the parameters are admissible (R382). -/
theorem pcInv_bootImage {p : Params} (blob : List Byte) (h : p.wf) : pcInv (bootImage p blob) := ⟨h, fun _ => h⟩

/-- The state after reset is the state after boot of the empty image. -/
theorem bootImage_nil (p : Params) : bootImage p [] = State.resetWith p := rfl

/-- Settles O40: the invariants after boot of any image, and reset as boot of the empty image. -/
theorem invariantHoldsAtReset : Obligations.InvariantHoldsAtReset := by
  unfold Obligations.InvariantHoldsAtReset
  intro p blob h
  rw [← bootImage_nil p]
  exact ⟨busInv_bootImage p blob, memInv_bootImage p blob, pcInv_bootImage blob h, rfl, busInv_bootImage p [],
    memInv_bootImage p [], pcInv_bootImage [] h⟩

end Sys2Proof.Machine
end

section
/-! PROOF. The statements on the bus and memory (20_memory.md): the transactions of a Step and what they do to memory; the
invariants of the handshake, of memory and of the pc; the wait states of the clocked machine; the Step under any target and
under the reference target. Each part's laws stand before the statements they settle. -/

namespace Sys2Proof.Machine

/-! ### The data transaction of an instruction -/

/-- The trace records of an instruction's data transaction: none, or one read or write at the effective address (R81, R82). -/
def dataTransactions (s : State) (i : Instr) : List Transaction :=
  match dataAddress s i with
  | none => []
  | some ea =>
    [{ kind := if isStore i then .store else .load
       adr := ea
       we := isStore i
       wdata := storeData s i
       rdata := if isStore i then none else some (targetRead s.mem ea) }]

theorem dataTransactions_of_none {s : State} {i : Instr} (h : dataAddress s i = none) : dataTransactions s i = [] := by
  simp only [dataTransactions, h]

theorem dataTransactions_of_load {s : State} {i : Instr} {ea : Word} (ha : dataAddress s i = some ea)
    (hd : storeData s i = none) (hs : isStore i = false) :
    dataTransactions s i = [⟨.load, ea, false, none, some (targetRead s.mem ea)⟩] := by
  simp [dataTransactions, ha, hd, hs]

theorem dataTransactions_of_store {s : State} {i : Instr} {ea d : Word} (ha : dataAddress s i = some ea)
    (hd : storeData s i = some d) (hs : isStore i = true) :
    dataTransactions s i = [⟨.store, ea, true, some d, none⟩] := by
  simp [dataTransactions, ha, hd, hs]

/-- The instructions without an effective address are those that are neither loads nor stores. -/
theorem dataAddress_eq_none_iff (s : State) (i : Instr) : dataAddress s i = none ↔ (isLoad i || isStore i) = false := by
  cases i <;> simp [dataAddress, isLoad, isStore]

theorem storeTo_mem (n : Bool) (ea d : Word) (s : State) : (storeTo n ea d s).mem = targetWrite s.mem ea d := by
  simp [storeTo]

/-- An instruction puts its data transaction on the trace, and nothing else (R81, R83). -/
theorem exec_trace {i : Instr} {s t : State} (h : exec i s = .next t) : t.trace = s.trace ++ dataTransactions s i := by
  cases exec_shape h with
  | result rd v c _ ha => simp [dataTransactions_of_none ha]
  | jump target rd _ ha => simp [dataTransactions_of_none ha]
  | branch rel rs1 rs2 off _ ha =>
    obtain ⟨-, -, -, -, -, hbus, -⟩ := branchIf_law rel rs1 rs2 off s
    simp [dataTransactions_of_none ha, hbus.trace]
  | load rd w g ea _ ha hd hs => simp [dataTransactions_of_load ha hd hs, loadFrom]
  | store n ea d _ ha hd hs => simp [dataTransactions_of_store ha hd hs, storeTo]
  | noOp k _ _ ha => simp [dataTransactions_of_none ha]

/-- An instruction leaves memory as its data transaction does: a store writes its word, and nothing else changes (R88). -/
theorem exec_mem {i : Instr} {s t : State} (h : exec i s = .next t) : t.mem = replay s.mem (dataTransactions s i) := by
  cases exec_shape h with
  | result rd v c _ ha => simp [dataTransactions_of_none ha, replay]
  | jump target rd _ ha => simp [dataTransactions_of_none ha, replay]
  | branch rel rs1 rs2 off _ ha =>
    obtain ⟨-, -, -, -, hmem, -, -⟩ := branchIf_law rel rs1 rs2 off s
    simp [dataTransactions_of_none ha, replay, hmem]
  | load rd w g ea _ ha hd hs => simp [dataTransactions_of_load ha hd hs, replay, loadFrom]
  | store n ea d _ ha hd hs => simp [dataTransactions_of_store ha hd hs, replay, storeTo_mem]
  | noOp k _ _ ha => simp [dataTransactions_of_none ha, replay]

/-- The data transactions of the word in `ir`: those of the instruction it is, if it is one. -/
def irTransactions (s : State) : List Transaction :=
  match decodeWord s.ir with
  | .instr i => dataTransactions s i
  | .unrecognized => []
  | .nonCanonical _ => []

theorem irTransactions_of_instr {s : State} {i : Instr} (h : decodeWord s.ir = .instr i) :
    irTransactions s = dataTransactions s i := by simp only [irTransactions, h]

theorem irTransactions_of_not_accessesData {s : State} (h : accessesData (decodeWord s.ir) = false) :
    irTransactions s = [] := by
  cases hd : decodeWord s.ir with
  | instr i =>
    rw [hd] at h
    rw [irTransactions_of_instr hd, dataTransactions_of_none ((dataAddress_eq_none_iff s i).2 h)]
  | unrecognized | nonCanonical => simp only [irTransactions, hd]

/-- Running the word in `ir` makes its data transactions, with their effect on memory, and no other. -/
theorem runIr_transactions {s t : State} (h : runIr s = .next t) :
    t.trace = s.trace ++ irTransactions s ∧ t.mem = replay s.mem (irTransactions s) := by
  rcases runIr_cases h with ⟨i, hd, he⟩ | ⟨hd, rfl⟩
  · rw [irTransactions_of_instr hd]
    exact ⟨exec_trace he, exec_mem he⟩
  · simp [irTransactions, hd, replay]

/-! ### The invariants over an instruction -/

/-- Replaying a trace keeps the canonical form of memory. -/
theorem memWf_replay {m : Memory} (ts : List Transaction) (h : memWf m = true) : memWf (replay m ts) = true := by
  induction ts generalizing m with
  | nil => exact h
  | cons x ts ih =>
    unfold replay
    split
    · exact ih (memWf_targetWrite x.adr _ h)
    · exact ih h

/-- The pc rule is kept where the low two bits of the pc and the record of MISALIGNED_TARGET are (10_state.md R42, R43). -/
theorem pcInv_of_sequential {s t : State} (hp : t.params = s.params)
    (hg : hasGap t.gaps .misalignedTarget = hasGap s.gaps .misalignedTarget) (hpc : t.pc.toNat % 4 = s.pc.toNat % 4)
    (h : pcInv s) : pcInv t := by
  obtain ⟨hwf, ha⟩ := h
  exact ⟨hp ▸ hwf, fun hn => hpc.trans (ha (hg ▸ hn))⟩

/-- A jump meets the pc rule whatever its target is: it records a misaligned one (44_control_transfer.md R270). -/
theorem pcInv_jumpTo {s : State} (t : Word) (h : s.params.wf) : pcInv (jumpTo t s) := by
  obtain ⟨-, hpc, -, hgaps, -, -, hfixed⟩ := jumpTo_law t s
  refine ⟨hfixed.params ▸ h, fun hn => ?_⟩
  rw [hpc]
  by_contra hoff
  rw [hgaps .misalignedTarget] at hn
  simp [hoff] at hn

theorem pcInv_recordGapIf {s : State} {k : Gap} (c : Bool) (hk : .misalignedTarget ≠ k) (h : pcInv s) :
    pcInv (recordGapIf c k s) :=
  pcInv_of_sequential (by simp) (by rw [hasGap_recordGapIf]; simp [hk]) (by simp) h

theorem pcInv_advance {s : State} (h : pcInv s) : pcInv (advance s) :=
  pcInv_of_sequential (s := s) rfl rfl (toNat_add_four s.pc) h

/-- The start of a load and of a store keeps the pc rule; their acknowledge edges change nothing the rule speaks of. -/
theorem pcInv_beginLoad {s : State} (rd : RegIdx) (w : Width) (g : Bool) (ea : Word) (h : pcInv s) :
    pcInv (beginLoad rd w g ea s) :=
  pcInv_of_sequential (by simp) (by rw [beginLoad_gaps]; split <;> simp)
    (by simp only [beginLoad_pc, toNat_add_four]) h

theorem pcInv_beginStore {s : State} (n : Bool) (ea d : Word) (h : pcInv s) : pcInv (beginStore n ea d s) :=
  pcInv_of_sequential (by simp) (by simp [beginStore_gaps, hasGap_recordGapIf, -recordGapIf_gaps])
    (by simp only [beginStore_pc, toNat_add_four]) h

/-- Every instruction keeps the pc rule. -/
theorem exec_keeps_pcInv {i : Instr} {s t : State} (h : exec i s = .next t) (hp : pcInv s) : pcInv t := by
  cases exec_shape h with
  | result rd v c => exact pcInv_advance (s := writeReg rd v _) (pcInv_recordGapIf c (by decide) hp)
  | jump target rd => exact pcInv_jumpTo target hp.1
  | branch rel rs1 rs2 off =>
    unfold branchIf
    split
    · exact pcInv_jumpTo _ hp.1
    · exact pcInv_advance hp
  | load rd w g ea => exact pcInv_beginLoad rd w g ea hp
  | store n ea d => exact pcInv_beginStore n ea d hp
  | noOp k hk => exact pcInv_advance (pcInv_recordGapIf true hk.symm hp)

/-- An instruction with no request on the bus before it leaves none, at an instruction boundary (R76, R77). -/
theorem exec_bus {i : Instr} {s t : State} (h : exec i s = .next t) (hc : s.cycO = false) (hs : s.stbO = false) :
    t.fsm = .readPc ∧ t.cycO = false ∧ t.stbO = false := by
  cases exec_shape h with
  | result rd v c => simp [hc, hs]
  | jump target rd => simp [hc, hs]
  | branch rel rs1 rs2 off =>
    obtain ⟨-, -, hfsm, -, -, hbus, -⟩ := branchIf_law rel rs1 rs2 off s
    exact ⟨hfsm, hbus.cyc.trans hc, hbus.stb.trans hs⟩
  | load rd w g ea => simp [loadFrom]
  | store n ea d => simp [storeTo]
  | noOp k => simp [hc, hs]

/-- Outside the wait states the handshake says that there is no request. -/
theorem busInv_iff_of_not_waits {s : State} (h : s.fsm.waits = false) : busInv s ↔ s.cycO = false ∧ s.stbO = false := by
  refine ⟨fun ⟨hc, hs, _⟩ => ⟨hc.trans h, hs.trans h⟩, fun ⟨hc, hs⟩ => ⟨hc.trans h.symm, hs.trans h.symm, ?_, ?_, ?_⟩⟩ <;>
    intro hf <;> rw [hf] at h <;> cases h

/-- Running the word in `ir` from DECODE keeps the handshake and ends at an instruction boundary. -/
theorem runIr_keeps_busInv {s t : State} (h : runIr s = .next t) (hf : s.fsm = .decode) (hb : busInv s) :
    busInv t ∧ atBoundary t := by
  obtain ⟨hc, hs⟩ := (busInv_iff_of_not_waits (by rw [hf]; rfl)).1 hb
  rcases runIr_cases h with ⟨i, -, he⟩ | ⟨-, rfl⟩
  · obtain ⟨hfsm, hbus⟩ := exec_bus he hc hs
    exact ⟨(busInv_iff_of_not_waits (by rw [hfsm]; rfl)).2 hbus, hfsm⟩
  · exact ⟨(busInv_iff_of_not_waits rfl).2 ⟨hc, hs⟩, rfl⟩

/-- Running the word in `ir` keeps the pc rule. -/
theorem runIr_keeps_pcInv {s t : State} (h : runIr s = .next t) (hp : pcInv s) : pcInv t := by
  rcases runIr_cases h with ⟨i, -, he⟩ | ⟨-, rfl⟩
  · exact exec_keeps_pcInv he hp
  · exact pcInv_advance (pcInv_recordGapIf true (k := .unrecognizedOpcode) (by decide) hp)

/-- Running the word in `ir` keeps the canonical form of memory. -/
theorem runIr_keeps_memInv {s t : State} (h : runIr s = .next t) (hm : memInv s) : memInv t := by
  obtain ⟨-, hmem⟩ := runIr_transactions h
  rw [memInv, hmem]
  exact memWf_replay _ hm

/-- Running the word in `ir` from DECODE keeps the three invariants and ends at an instruction boundary. -/
theorem runIr_keeps_invariants {s t : State} (h : runIr s = .next t) (hf : s.fsm = .decode) (hb : busInv s)
    (hm : memInv s) (hp : pcInv s) : busInv t ∧ memInv t ∧ pcInv t ∧ atBoundary t := by
  obtain ⟨hbus, hfsm⟩ := runIr_keeps_busInv h hf hb
  exact ⟨hbus, runIr_keeps_memInv h hm, runIr_keeps_pcInv h hp, hfsm⟩

/-- An acknowledge edge drops the request and leaves the wait state (R76). -/
theorem busInv_endFetch (w : Word) (s : State) : busInv (endFetch w s) := (busInv_iff_of_not_waits rfl).2 ⟨rfl, rfl⟩

theorem busInv_endLoad (w : Word) (s : State) : busInv (endLoad w s) := (busInv_iff_of_not_waits rfl).2 ⟨rfl, rfl⟩

theorem busInv_endStore (s : State) : busInv (endStore s) := (busInv_iff_of_not_waits rfl).2 ⟨rfl, rfl⟩

/-- Settles O41, by the state of the controller the Step starts in: the rest of the fetch, the instruction, or the end of the
data transaction. -/
theorem stepKeepsInvariant : Obligations.StepKeepsInvariant := by
  unfold Obligations.StepKeepsInvariant
  intro s t h hb hm hp
  unfold step at h
  split at h
  · cases h
  · split at h
    case h_1 => exact runIr_keeps_invariants h rfl (busInv_endFetch _ _) hm hp
    case h_2 => exact runIr_keeps_invariants h rfl (busInv_endFetch _ _) hm hp
    case h_3 hf => exact runIr_keeps_invariants h hf hb hm hp
    case h_4 => cases h; exact ⟨busInv_endLoad _ _, hm, hp, rfl⟩
    case h_5 => cases h; exact ⟨busInv_endStore _, memWf_targetWrite s.adrO s.datO hm, hp, rfl⟩

/-! ### The wait states of the clocked machine -/

/-- Settles O53, over the shapes of an edge: a wait state's only operation is its acknowledge. -/
theorem waitStatesOnlyWait : Obligations.WaitStatesOnlyWait := by
  unfold Obligations.WaitStatesOnlyWait
  intro b s hw hrst ha
  generalize ht : clock b s = t
  cases clock_shape hrst ht with
  | stopped | waiting => rfl
  | beginFetch _ hf | decode _ hf => rw [hf] at hw; cases hw
  | endFetch _ _ hack | endLoad _ _ hack | endStore _ _ hack => rw [ha] at hack; cases hack

/-- Settles O54, over the shapes of an edge: each acknowledge completes the transaction. -/
theorem acknowledgeDropsTheRequest : Obligations.AcknowledgeDropsTheRequest := by
  unfold Obligations.AcknowledgeDropsTheRequest
  intro b s hw hm hrst ha
  generalize ht : clock b s = t
  cases clock_shape hrst ht with
  | stopped hstop => rw [hm] at hstop; cases hstop
  | waiting _ _ hnack => rw [ha] at hnack; cases hnack
  | beginFetch _ hf | decode _ hf => rw [hf] at hw; cases hw
  | endFetch | endLoad | endStore => exact ⟨rfl, rfl, rfl⟩

/-- Settles O55: with reset the edge looks at no other input, and without it READ_PC's and DECODE's operations have none. -/
theorem strayAcknowledgeIsIgnored : Obligations.StrayAcknowledgeIsIgnored := by
  unfold Obligations.StrayAcknowledgeIsIgnored
  intro rst ack ack' dat dat' s hw
  cases rst with
  | true => rfl
  | false =>
    cases hf : s.fsm with
    | readPc | decode => simp only [clock, hf]
    | loadPc | load | store => rw [hf] at hw; cases hw

/-! ### The invariants over a clock edge -/

/-- DECODE's edge leaves memory as it is: the target performs a store at its acknowledge. -/
theorem decodeEdge_mem (s : State) : (decodeEdge s).mem = s.mem := by
  have hshape := decodeEdge_shape s
  generalize decodeEdge s = t at hshape
  cases hshape with
  | refuse => rfl
  | load rd w g ea => exact beginLoad_mem rd w g ea s
  | store n ea d => exact beginStore_mem n ea d s
  | done _ hrun _ ha =>
    obtain ⟨-, hmem⟩ := runIr_transactions hrun
    rw [hmem, irTransactions_of_not_accessesData ha]
    rfl

/-- DECODE's edge keeps the handshake: no request, or the one of the wait state it goes to (R73). -/
theorem decodeEdge_keeps_busInv {s : State} (hf : s.fsm = .decode) (h : busInv s) : busInv (decodeEdge s) := by
  have hshape := decodeEdge_shape s
  generalize decodeEdge s = t at hshape
  cases hshape with
  | refuse => exact h
  | load | store => simp [busInv, Fsm.waits]
  | done _ hrun => exact (runIr_keeps_busInv hrun hf h).1

theorem decodeEdge_keeps_pcInv {s : State} (h : pcInv s) : pcInv (decodeEdge s) := by
  have hshape := decodeEdge_shape s
  generalize decodeEdge s = t at hshape
  cases hshape with
  | refuse => exact h
  | load rd w g ea => exact pcInv_beginLoad rd w g ea h
  | store n ea d => exact pcInv_beginStore n ea d h
  | done _ hrun => exact runIr_keeps_pcInv hrun h

/-- The fetch request is a read at `pc` (R73, R81). -/
theorem busInv_beginFetch (s : State) : busInv (beginFetch s) := by simp [busInv, Fsm.waits]

theorem clock_of_reset {b : BusIn} (s : State) (hrst : b.rst = true) : clock b s = resetEdge s := by simp [clock, hrst]

/-- Every edge keeps the handshake. -/
theorem clock_keeps_busInv (b : BusIn) {s : State} (h : busInv s) : busInv (clock b s) := by
  cases hrst : b.rst with
  | true => rw [clock_of_reset s hrst]; exact (busInv_iff_of_not_waits rfl).2 ⟨rfl, rfl⟩
  | false =>
    generalize ht : clock b s = t
    cases clock_shape hrst ht with
    | stopped | waiting => exact h
    | beginFetch => exact busInv_beginFetch s
    | endFetch => exact busInv_endFetch b.dat s
    | decode _ hf => exact decodeEdge_keeps_busInv hf h
    | endLoad => exact busInv_endLoad b.dat s
    | endStore => exact busInv_endStore s

/-- Every edge keeps the pc rule: reset goes to RESET_PC (70_reset_and_hazards.md R382), and only DECODE writes the pc. -/
theorem clock_keeps_pcInv (b : BusIn) {s : State} (h : pcInv s) : pcInv (clock b s) := by
  cases hrst : b.rst with
  | true => rw [clock_of_reset s hrst]; exact ⟨h.1, fun _ => h.1⟩
  | false =>
    generalize ht : clock b s = t
    cases clock_shape hrst ht with
    | decode => exact decodeEdge_keeps_pcInv h
    | stopped | waiting | beginFetch | endFetch | endLoad | endStore => exact h

/-- The core itself never changes the target's memory. -/
theorem clock_mem (b : BusIn) (s : State) : (clock b s).mem = s.mem := by
  cases hrst : b.rst with
  | true => rw [clock_of_reset s hrst]; rfl
  | false =>
    generalize ht : clock b s = t
    cases clock_shape hrst ht with
    | decode => exact decodeEdge_mem s
    | stopped | waiting | beginFetch | endFetch | endLoad | endStore => rfl

/-- An edge with the reference target attached is the core's edge, and the target's memory with the pending write if that
lands now. -/
theorem tick_eq (e : EnvIn) (s : State) :
    tick e s = { clock ⟨e.rst, e.ack, targetAnswer s⟩ s with
      mem := if writeLands e s then targetWrite s.mem s.adrO s.datO else s.mem } := by
  unfold tick
  cases writeLands e s
  · rw [← clock_mem ⟨e.rst, e.ack, targetAnswer s⟩ s]; rfl
  · rfl

/-- Settles O42: the core's edge keeps the handshake and the pc rule, which do not speak of memory, and a write that lands
keeps the canonical form. -/
theorem clockKeepsInvariant : Obligations.ClockKeepsInvariant := by
  unfold Obligations.ClockKeepsInvariant
  refine ⟨fun b s => clock_keeps_busInv b, fun e s hb hm hp => ?_⟩
  rw [tick_eq]
  refine ⟨clock_keeps_busInv _ hb, ?_, clock_keeps_pcInv _ hp⟩
  cases writeLands e s
  · exact hm
  · exact memWf_targetWrite s.adrO s.datO hm

/-! ### The transactions of a Step -/

/-- A data transaction changes memory only if it is a store's: then it writes the word at the effective address. -/
theorem replay_dataTransactions (m : Memory) (s : State) (i : Instr) :
    replay m (dataTransactions s i) = m ∨
    ∃ ea d, isStore i = true ∧ dataAddress s i = some ea ∧ replay m (dataTransactions s i) = targetWrite m ea d := by
  cases ha : dataAddress s i with
  | none => exact .inl (by rw [dataTransactions_of_none ha]; rfl)
  | some ea =>
    simp only [dataTransactions, ha]
    cases isStore i with
    | false => exact .inl rfl
    | true =>
      cases storeData s i with
      | none => exact .inl rfl
      | some d => exact .inr ⟨ea, d, rfl, rfl, rfl⟩

/-- Settles O46: the byte lies outside the word of the instruction's data transaction, if that is a store. -/
theorem onlyStoresChangeMemory : Obligations.OnlyStoresChangeMemory := by
  unfold Obligations.OnlyStoresChangeMemory
  intro i s t a h hout
  rw [exec_mem h]
  rcases replay_dataTransactions s.mem s i with hsame | ⟨ea, d, hs, ha, hwrite⟩
  · rw [hsame]
  · have hbyte := hout hs ea ha
    rw [hwrite, byteAt_targetWrite, if_neg (by omega)]

/-- A word stored is the word that a read of it returns next, at any address in it (R99). -/
theorem targetRead_storeTo (n : Bool) (ea d adr : Word) (s : State) (h : wordBase adr = wordBase ea) :
    targetRead (storeTo n ea d s).mem adr = d := by
  rw [storeTo_mem, targetRead_targetWrite, if_pos h]

/-- Settles O29: the fetch and the load read the stored word. -/
theorem storedWordIsSeenNext : Obligations.StoredWordIsSeenNext := by
  unfold Obligations.StoredWordIsSeenNext
  intro rs1 rs2 imm s t h
  have hstore : ∃ n, t = storeTo n (effectiveAddress (readReg s rs1) imm) (readReg s rs2) s := by
    rcases h with h | h | h <;> cases h <;> exact ⟨_, rfl⟩
  obtain ⟨n, rfl⟩ := hstore
  refine ⟨fun hpc => ?_, fun rd b off u hload hrd hbase => ?_⟩
  · obtain ⟨hir, -⟩ := fetch_law (storeTo n (effectiveAddress (readReg s rs1) imm) (readReg s rs2) s)
    rw [hir, targetRead_storeTo n _ _ _ s hpc]
  · cases hload
    rw [(loadFrom_law ..).1.reads, if_pos ⟨rfl, hrd⟩, targetRead_storeTo n _ _ _ s hbase]
    rfl

/-- The Fetch changes no register, so an operand after it is the operand before it. -/
theorem dataTransactions_fetch (s : State) (i : Instr) : dataTransactions (fetch s) i = dataTransactions s i := by
  have ha : dataAddress (fetch s) i = dataAddress s i := by cases i <;> simp [dataAddress]
  have hd : storeData (fetch s) i = storeData s i := by cases i <;> simp [storeData]
  obtain ⟨-, -, -, -, hmem, -⟩ := fetch_law s
  simp only [dataTransactions, ha, hd, hmem]

/-- A Step that answers a next state is taken from a state with no refusal mark. -/
theorem not_marked_of_step {s t : State} (h : step s = .next t) : s.refusalMark = false := by
  cases hm : s.refusalMark with
  | false => rfl
  | true => simp [step, hm] at h

/-- Settles O45: the record of the Fetch, then those of the fetched word's data transaction. -/
theorem oneFetchThenAtMostOneDataTransaction : Obligations.OneFetchThenAtMostOneDataTransaction := by
  unfold Obligations.OneFetchThenAtMostOneDataTransaction
  intro s t hf h
  rw [step_readPc hf (not_marked_of_step h)] at h
  obtain ⟨htrace, -⟩ := runIr_transactions h
  obtain ⟨hir, -, -, -, -, -, -, -, hfetch, -⟩ := fetch_law s
  refine ⟨irTransactions (fetch s), by rw [htrace, hfetch]; simp, fun hno => ?_, fun i hi ea ha => ?_⟩
  · exact irTransactions_of_not_accessesData (hir ▸ hno)
  · rw [irTransactions_of_instr (hir ▸ hi), dataTransactions_fetch]
    simp only [dataTransactions, ha]
    exact ⟨_, rfl, rfl, rfl, rfl, rfl, rfl⟩

/-! ### The clocked machine under any target -/

/-- A run of edges in two parts. -/
theorem clocks_append (as bs : List BusIn) (s : State) : clocks (as ++ bs) s = clocks bs (clocks as s) := by
  induction as generalizing s with
  | nil => rfl
  | cons a as ih => exact ih (clock a s)

/-- However long a wait state is not acknowledged, whatever is on `dat_i`, it stays as it is (R78, R85). -/
theorem clocks_waits {s : State} (hw : s.fsm.waits = true) (waits : List Word) :
    clocks (waits.map (fun j => { rst := false, ack := false, dat := j })) s = s := by
  induction waits with
  | nil => rfl
  | cons j waits ih =>
    rw [List.map_cons, clocks, waitStatesOnlyWait _ s hw rfl rfl]
    exact ih

/-- The edges of READ_PC, LOAD_PC and DECODE: the Fetch and DECODE's edge (40_controller.md R172 to R174). -/
theorem clocks_fetchInputs {s : State} (hf : s.fsm = .readPc) (hm : s.refusalMark = false) (a0 a1 : Bool × Word)
    (waits : List Word) (w : Word) :
    clocks (fetchInputs a0 a1 waits w) s = decodeEdge (endFetch w (beginFetch s)) := by
  rw [fetchInputs, clocks_append, clocks_append]
  have hbegin : clocks [⟨false, a0.1, a0.2⟩] s = beginFetch s := by simp [clocks, clock, hm, hf]
  rw [hbegin, clocks_waits rfl]
  simp [clocks, clock, hm]

/-- The edges of LOAD or STORE: the end of the data transaction (R175, R176). -/
theorem clocks_dataInputs {s : State} (hf : s.fsm = .load ∨ s.fsm = .store) (hm : s.refusalMark = false)
    (waits : List Word) (r : Word) : clocks (dataInputs waits r) s = endData r s := by
  have hw : s.fsm.waits = true := by rcases hf with hf | hf <;> rw [hf] <;> rfl
  rw [dataInputs, clocks_append, clocks_waits hw]
  rcases hf with hf | hf <;> simp [clocks, clock, hm, hf, endData]

/-- After DECODE's edge a core that is not stopped is in READ_PC, LOAD or STORE (R171). -/
theorem decodeEdge_fsm {s : State} (hm : (decodeEdge s).refusalMark = false) :
    (decodeEdge s).fsm = .readPc ∨ (decodeEdge s).fsm = .load ∨ (decodeEdge s).fsm = .store := by
  have hshape := decodeEdge_shape s
  generalize decodeEdge s = t at hshape hm ⊢
  cases hshape with
  | refuse => cases hm
  | done _ _ hf => exact .inl hf
  | load => simp
  | store => simp

/-- How a Step under a target ends after DECODE's edge (60_exceptions.md R355 items 2 and 5). -/
inductive FinishShape (target : Target) (s : State) : TargetOutcome → Prop where
  | refused : s.refusalMark = true → FinishShape target s (.refused s)
  | done : s.refusalMark = false → s.fsm = .readPc → FinishShape target s (.next s)
  | hang : s.refusalMark = false → s.fsm ≠ .readPc → target s.trace (pendingRequest s) = none →
      FinishShape target s (.hang s)
  | ack (r : Word) : s.refusalMark = false → s.fsm ≠ .readPc → target s.trace (pendingRequest s) = some r →
      FinishShape target s (.next (endData r s))

theorem finishUnder_shape (target : Target) (s : State) : FinishShape target s (finishUnder target s) := by
  unfold finishUnder
  split
  case isTrue hm => exact .refused hm
  case isFalse hm =>
    rw [Bool.not_eq_true] at hm
    split
    case isTrue hf => exact .done hm hf
    case isFalse hf =>
      split
      case h_1 ht => exact .hang hm hf ht
      case h_2 r ht => exact .ack r hm hf ht

/-- How the hardware's Step under a target ends: at once on a stopped core, at the Fetch, or after DECODE's edge. -/
inductive StepShape (target : Target) (s : State) : TargetOutcome → Prop where
  | marked : s.refusalMark = true → StepShape target s (.refused s)
  | fetchHang : s.refusalMark = false → fetchAnswer target s = none → StepShape target s (.hang (beginFetch s))
  | fetched (w : Word) (o : TargetOutcome) : s.refusalMark = false → fetchAnswer target s = some w →
      FinishShape target (decodeEdge (endFetch w (beginFetch s))) o → StepShape target s o

theorem stepUnder_shape (target : Target) (s : State) : StepShape target s (stepUnder target s) := by
  cases hm : s.refusalMark with
  | true => rw [stepUnder, fetchUnder, if_pos hm]; exact .marked hm
  | false =>
    cases ha : fetchAnswer target s with
    | none => rw [stepUnder, fetchUnder_eq _ _ _ hm, ha]; exact .fetchHang hm ha
    | some w => rw [stepUnder_of_fetch hm ha]; exact .fetched w _ hm ha (finishUnder_shape target _)

/-- Settles O51: the Fetch's edges reach DECODE's edge's state, and the data transaction's edges its end. -/
theorem clockedMachineFollowsAnyTarget : Obligations.ClockedMachineFollowsAnyTarget := by
  unfold Obligations.ClockedMachineFollowsAnyTarget
  intro target s t w hf hw h a0 a1 waits
  have hstep := stepUnder_shape target s
  rw [h] at hstep
  cases hstep with
  | fetched w' _ hm hw' hfin =>
    obtain rfl : w' = w := by
      rw [pendingRequest_beginFetch] at hw
      exact Option.some.inj (hw'.symm.trans hw)
    cases hfin with
    | done hmark hb => exact ⟨fun _ => clocks_fetchInputs hf hm a0 a1 waits w', fun r hb' => absurd hb hb'⟩
    | ack r hmark hb hr =>
      refine ⟨fun hb' => absurd hb' hb, fun r' _ hr' waits2 => ?_⟩
      obtain rfl : r = r' := Option.some.inj (hr.symm.trans hr')
      rw [clocks_append, clocks_fetchInputs hf hm,
        clocks_dataInputs ((decodeEdge_fsm hmark).resolve_left hb) hmark]

/-! ### Hangs -/

/-- The data request that DECODE's edge leaves pending: the registers are kept and pc has advanced (R73, R300, R306). -/
theorem decodeEdge_request {s : State} (hm : (decodeEdge s).refusalMark = false) (hf : (decodeEdge s).fsm ≠ .readPc) :
    (decodeEdge s).cycO = true ∧ (decodeEdge s).stbO = true ∧ KeepsRegisters s (decodeEdge s) ∧
    (decodeEdge s).pc = s.pc + 4 := by
  have hshape := decodeEdge_shape s
  generalize decodeEdge s = t at hshape hm hf ⊢
  cases hshape with
  | refuse => cases hm
  | done _ _ hb => exact absurd hb hf
  | load => exact ⟨by simp, by simp, ⟨by simp, by simp, by simp, by simp⟩, by simp⟩
  | store => exact ⟨by simp, by simp, ⟨by simp, by simp, by simp, by simp⟩, by simp⟩

/-- The fetch of a word keeps the registers. -/
theorem endFetch_beginFetch_keepsRegisters (w : Word) (s : State) : KeepsRegisters s (endFetch w (beginFetch s)) :=
  ⟨by simp, by simp, rfl, rfl⟩

/-- A hang of the spec's Step is a hang of the hardware's. -/
theorem stepUnder_of_specStep_hang {target : Target} {s h : State} (hh : specStep target s = .hang h) :
    stepUnder target s = .hang h := by
  rcases specStep_eq_or_fault target s with he | ⟨f, u, he⟩
  · exact he.symm.trans hh
  · rw [hh] at he; cases he

/-- Under TARGET_ACKS the hardware's Step does not hang (R84). -/
theorem stepUnder_ne_hang {target : Target} (ha : TargetAcks target) (s h : State) : stepUnder target s ≠ .hang h := by
  intro hh
  have hstep := stepUnder_shape target s
  rw [hh] at hstep
  cases hstep with
  | fetchHang _ hn => exact Option.isSome_iff_ne_none.1 (ha _ _) hn
  | fetched w _ _ _ hfin =>
    cases hfin with
    | hang _ _ hn => exact Option.isSome_iff_ne_none.1 (ha _ _) hn

/-- Settles O59: a hang is the Fetch's request, or the data request that DECODE's edge has left. -/
theorem hangKeepsWaiting : Obligations.HangKeepsWaiting := by
  unfold Obligations.HangKeepsWaiting
  refine ⟨fun target s h _ hh => ?_, fun target s h ha =>
    ⟨stepUnder_ne_hang ha s h, fun hh => stepUnder_ne_hang ha s h (stepUnder_of_specStep_hang hh)⟩⟩
  have hstep := stepUnder_shape target s
  rw [hh.elim id stepUnder_of_specStep_hang] at hstep
  cases hstep with
  | fetchHang =>
    exact ⟨rfl, rfl, rfl, ⟨by simp, by simp, rfl, rfl⟩, rfl, fun _ => ⟨rfl, rfl⟩, fun hf => absurd rfl hf,
      fun b hrst hack => waitStatesOnlyWait b _ rfl hrst hack⟩
  | fetched w _ _ _ hfin =>
    cases hfin with
    | hang hm hf _ =>
      obtain ⟨hcyc, hstb, hregs, hpc⟩ := decodeEdge_request hm hf
      have hls := (decodeEdge_fsm hm).resolve_left hf
      have hw : (decodeEdge (endFetch w (beginFetch s))).fsm.waits = true := by
        rcases hls with hl | hl <;> rw [hl] <;> rfl
      have hne : (decodeEdge (endFetch w (beginFetch s))).fsm ≠ .loadPc := by
        rcases hls with hl | hl <;> rw [hl] <;> decide
      exact ⟨hw, hcyc, hstb, (endFetch_beginFetch_keepsRegisters w s).trans' hregs, decodeEdge_mem _,
        fun hl => absurd hl hne,
        fun _ => hpc, fun b hrst hack => waitStatesOnlyWait b _ hw hrst hack⟩

/-! ### The reference target as an oracle -/

/-- The stores of a trace in two parts. -/
theorem replay_append (m : Memory) (xs ys : List Transaction) : replay m (xs ++ ys) = replay (replay m xs) ys := by
  induction xs generalizing m with
  | nil => rfl
  | cons x xs ih =>
    obtain ⟨kind, adr, we, wdata, rdata⟩ := x
    cases we <;> cases wdata <;> exact ih _

/-- Memory stays the replay of the trace over the word in `ir`. -/
theorem runIr_keeps_replay {m : Memory} {s t : State} (h : runIr s = .next t) (hmem : s.mem = replay m s.trace) :
    t.mem = replay m t.trace := by
  obtain ⟨htrace, ht⟩ := runIr_transactions h
  rw [ht, htrace, replay_append, ← hmem]

/-- A Fetch is no store: memory stays the replay of the trace. -/
theorem fetch_keeps_replay {m : Memory} {s : State} (hmem : s.mem = replay m s.trace) :
    (fetch s).mem = replay m (fetch s).trace := by
  obtain ⟨-, -, -, -, hm, -, -, -, htrace, -⟩ := fetch_law s
  rw [hm, htrace, replay_append, ← hmem]
  rfl

/-- The oracle answers the Fetch with the word that memory holds. -/
theorem fetchAnswer_reference {m : Memory} {s : State} (hmem : s.mem = replay m s.trace) :
    fetchAnswer (referenceTarget m) s = some (targetRead s.mem s.pc) := by
  rw [fetchAnswer, referenceTarget, hmem]

/-- An instruction leaves the parameters, the instruction register and the refusal mark. -/
theorem exec_keepsFixed {i : Instr} {s t : State} (h : exec i s = .next t) : KeepsFixed s t := by
  cases exec_shape h with
  | result rd v c => exact ⟨by simp, by simp, by simp⟩
  | jump target rd => exact ⟨by simp, by simp, by simp⟩
  | branch rel rs1 rs2 off =>
    obtain ⟨-, -, -, -, -, -, hfixed⟩ := branchIf_law rel rs1 rs2 off s
    exact hfixed
  | load rd w g ea => exact ⟨by simp [loadFrom], by simp [loadFrom], by simp [loadFrom]⟩
  | store n ea d => exact ⟨by simp [storeTo], by simp [storeTo], by simp [storeTo]⟩
  | noOp k => exact ⟨rfl, rfl, rfl⟩

theorem runIr_refusalMark {s t : State} (h : runIr s = .next t) : t.refusalMark = s.refusalMark := by
  rcases runIr_cases h with ⟨i, -, he⟩ | ⟨-, rfl⟩
  · exact (exec_keepsFixed he).mark
  · rfl

/-- The run of the word in `ir` is DECODE's edge and the rest of the instruction. -/
theorem eq_finish_of_runIr {s t : State} (h : runIr s = .next t) : t = finish (decodeEdge s) := by
  rcases runIr_cases h with ⟨i, hd, he⟩ | ⟨hd, rfl⟩
  · rw [decodeEdge_instr hd] at he
    cases he
    rfl
  · rw [decodeEdge_unrecognized hd, finish_of_boundary rfl]

/-- DECODE's edge on a word that is not refused leaves the refusal mark and the trace. -/
theorem decodeEdge_of_runIr {s t : State} (h : runIr s = .next t) :
    (decodeEdge s).refusalMark = s.refusalMark ∧ (decodeEdge s).trace = s.trace := by
  have hshape := decodeEdge_shape s
  generalize decodeEdge s = u at hshape ⊢
  cases hshape with
  | refuse why hd => simp [runIr, hd] at h
  | load => simp
  | store => simp
  | done _ hrun _ ha =>
    obtain ⟨htrace, -⟩ := runIr_transactions hrun
    rw [irTransactions_of_not_accessesData ha, List.append_nil] at htrace
    exact ⟨runIr_refusalMark hrun, htrace⟩

/-- The acknowledge of a data transaction with the reference target's word is the rest of the instruction, but that a store
does not reach memory. -/
theorem endData_targetAnswer {s : State} (hf : s.fsm = .load ∨ s.fsm = .store) :
    endData (targetAnswer s) s = { finish s with mem := s.mem } := by
  rcases hf with hf | hf
  · simp only [endData, finish, hf, if_true]; rfl
  · simp only [endData, finish, hf, reduceCtorEq, if_false]; rfl

/-- After DECODE's edge the oracle's answer ends the Step as memory does, but that a store goes to the trace alone. -/
theorem finishUnder_reference {m : Memory} {s : State} (hm : s.refusalMark = false)
    (hf : s.fsm = .readPc ∨ s.fsm = .load ∨ s.fsm = .store) (hmem : s.mem = replay m s.trace) :
    finishUnder (referenceTarget m) s = .next { finish s with mem := s.mem } := by
  have hans : referenceTarget m s.trace (pendingRequest s) = some (targetAnswer s) := by
    rw [referenceTarget, ← hmem]; rfl
  have hshape := finishUnder_shape (referenceTarget m) s
  generalize finishUnder (referenceTarget m) s = o at hshape ⊢
  cases hshape with
  | refused hmark => rw [hm] at hmark; cases hmark
  | done _ hb => rw [finish_of_boundary hb]
  | hang _ _ hn => rw [hans] at hn; cases hn
  | ack r _ hb hr =>
    obtain rfl : targetAnswer s = r := Option.some.inj (hans.symm.trans hr)
    rw [endData_targetAnswer (hf.resolve_left hb)]

/-- The hardware's Step from DECODE under the oracle is the run of the word in `ir`, but for memory. -/
theorem finishUnder_decodeEdge_reference {m : Memory} {s t : State} (hm : s.refusalMark = false)
    (hmem : s.mem = replay m s.trace) (h : runIr s = .next t) :
    finishUnder (referenceTarget m) (decodeEdge s) = .next { t with mem := s.mem } := by
  obtain ⟨hmark, htrace⟩ := decodeEdge_of_runIr h
  have hmark' := hmark.trans hm
  have hmem' : (decodeEdge s).mem = replay m (decodeEdge s).trace := by rw [decodeEdge_mem, htrace, hmem]
  rw [finishUnder_reference hmark' (decodeEdge_fsm hmark') hmem', ← eq_finish_of_runIr h, decodeEdge_mem]

/-- What the checked Step says when it says that the machine goes on. -/
theorem stepChecked_next {s t : State} (h : stepChecked s = .machine (.next t)) :
    step s = .next t ∧ ∀ i, nextInstr s = some i → uninitOperand i s = none := by
  unfold stepChecked at h
  split at h
  case isTrue hm => simp [step, hm] at h
  case isFalse =>
    split at h
    case h_1 => cases h
    case h_2 hn => exact ⟨CheckedOutcome.machine.inj h, fun i hi => by simpa [hi] using hn⟩

/-- When the checked Step gives the model fault: an operand of the instruction about to run is unwritten. -/
theorem stepChecked_fault {s : State} {f : ModelFault} (h : stepChecked s = .modelFault f) :
    s.refusalMark = false ∧ ∃ i r, nextInstr s = some i ∧ uninitOperand i s = some r ∧ f = .uninitRead r := by
  unfold stepChecked at h
  split at h
  case isTrue => cases h
  case isFalse hm =>
    split at h
    case h_2 => cases h
    case h_1 r hr =>
      obtain ⟨i, hi, hr⟩ := Option.bind_eq_some_iff.1 hr
      cases h
      exact ⟨by simpa using hm, i, r, hi, hr, rfl⟩

/-- The instruction that a Step from a boundary is about to run is the one the fetched word decodes to. -/
theorem nextInstr_eq_some_iff {s : State} {i : Instr} (hf : s.fsm = .readPc) :
    nextInstr s = some i ↔ decodeWord (fetch s).ir = .instr i := by
  simp only [nextInstr, hf]
  cases decodeWord (fetch s).ir <;> simp [instrOf]

/-- The Fetch writes no register, so it leaves the unwritten operands of an instruction. -/
theorem uninitOperand_fetch (i : Instr) (s : State) : uninitOperand i (fetch s) = uninitOperand i s :=
  uninitOperand_endFetch i _ s

/-- Under the oracle the Fetch of either Step is the Fetch from memory. -/
theorem stepUnder_reference {m : Memory} {s : State} (hm : s.refusalMark = false) (hmem : s.mem = replay m s.trace) :
    stepUnder (referenceTarget m) s = finishUnder (referenceTarget m) (decodeEdge (fetch s)) :=
  stepUnder_of_fetch hm (fetchAnswer_reference hmem)

theorem specStep_reference {m : Memory} {s : State} (hm : s.refusalMark = false) (hmem : s.mem = replay m s.trace) :
    specStep (referenceTarget m) s = executeSpec (referenceTarget m) (fetch s) :=
  specStep_of_fetch hm (fetchAnswer_reference hmem)

/-- The hardware's Step under the oracle is the Step, but for memory, which stays the replay of the trace. -/
theorem stepUnder_reference_of_step {m : Memory} {s t : State} (hf : s.fsm = .readPc) (hmem : s.mem = replay m s.trace)
    (h : step s = .next t) :
    stepUnder (referenceTarget m) s = .next { t with mem := s.mem } ∧ t.mem = replay m t.trace := by
  have hm := not_marked_of_step h
  rw [step_readPc hf hm] at h
  have hfetch := fetch_keeps_replay hmem
  rw [stepUnder_reference hm hmem]
  exact ⟨finishUnder_decodeEdge_reference hm hfetch h, runIr_keeps_replay h hfetch⟩

/-- Where the checked Step goes on, so does the spec's Step, as the hardware's. -/
theorem specStep_of_stepChecked_next {m : Memory} {s t : State} (hf : s.fsm = .readPc) (hmem : s.mem = replay m s.trace)
    (h : stepChecked s = .machine (.next t)) : specStep (referenceTarget m) s = stepUnder (referenceTarget m) s := by
  obtain ⟨hstep, hwritten⟩ := stepChecked_next h
  have hm := not_marked_of_step hstep
  rw [specStep_reference hm hmem, stepUnder_reference hm hmem]
  rcases executeSpec_cases (referenceTarget m) (fetch s) with ⟨i, r, hd, hr, -⟩ | ⟨-, he⟩
  · rw [uninitOperand_fetch, hwritten i ((nextInstr_eq_some_iff hf).2 hd)] at hr
    cases hr
  · exact he

/-- Where the checked Step faults, so does the spec's Step, after the Fetch. -/
theorem specStep_of_stepChecked_fault {m : Memory} {s : State} {f : ModelFault} (hf : s.fsm = .readPc)
    (hmem : s.mem = replay m s.trace) (h : stepChecked s = .modelFault f) :
    specStep (referenceTarget m) s = .modelFault f (fetch s) := by
  obtain ⟨hm, i, r, hi, hr, rfl⟩ := stepChecked_fault h
  rw [specStep_reference hm hmem]
  exact executeSpec_of_uninitOperand ((nextInstr_eq_some_iff hf).1 hi) ((uninitOperand_fetch i s).trans hr)

/-- Settles O52: both Steps and the end of a run by their laws under the oracle, which answers every request. -/
theorem referenceOracleAgreesWithStep : Obligations.ReferenceOracleAgreesWithStep := by
  unfold Obligations.ReferenceOracleAgreesWithStep
  refine ⟨fun m s t hf hmem h => stepUnder_reference_of_step hf hmem h, fun m s t hf hmem h => ?_,
    fun m s f hf hmem h => specStep_of_stepChecked_fault hf hmem h, fun m s hmem => ?_, fun m trace r => rfl⟩
  · obtain ⟨hstep, -⟩ := stepChecked_next h
    obtain ⟨hunder, -⟩ := stepUnder_reference_of_step hf hmem hstep
    rw [specStep_of_stepChecked_next hf hmem h, hunder]
  · simp [endOfRun, fetchAnswer_reference hmem, and_assoc]

end Sys2Proof.Machine
end

section
/-! PROOF. The statements on the encoding and the decoder block (30_encoding.md): what the decoder can answer for a word and
its round trip with the encoder, the rows of the opcode table, the words that are no instruction, and the outputs by format. -/

namespace Sys2Proof

/-! ### A word is the packing of its operands and of the selectors it carries -/

theorem packI_of_fields {w : Word} {op : BitVec 7} {f3 : BitVec 3} (hop : opcodeOf w = op) (h3 : funct3Of w = f3) :
    packI op f3 (rdOf w) (rs1Of w) (immIOf w) = w := by
  rw [← hop, ← h3, packI_fields]

theorem packR_of_fields {w : Word} {op : BitVec 7} {f3 : BitVec 3} {f7 : BitVec 7} (hop : opcodeOf w = op)
    (h3 : funct3Of w = f3) (h7 : funct7Of w = f7) : packR op f3 f7 (rdOf w) (rs1Of w) (rs2Of w) = w := by
  rw [← hop, ← h3, ← h7, packR_fields]

theorem packU_of_fields {w : Word} {op : BitVec 7} (hop : opcodeOf w = op) : packU op (rdOf w) (immUOf w) = w := by
  rw [← hop, packU_fields]

theorem packS_of_fields {w : Word} {op : BitVec 7} {f3 : BitVec 3} (hop : opcodeOf w = op) (h3 : funct3Of w = f3) :
    packS op f3 (rs1Of w) (rs2Of w) (immSOf w) = w := by
  rw [← hop, ← h3, packS_fields]

theorem packB_of_fields {w : Word} {op : BitVec 7} {f3 : BitVec 3} (hop : opcodeOf w = op) (h3 : funct3Of w = f3) :
    packB op f3 (rs1Of w) (rs2Of w) (immBOf w) = w := by
  rw [← hop, ← h3, packB_fields]

theorem packJ_of_fields {w : Word} {op : BitVec 7} (hop : opcodeOf w = op) : packJ op (rdOf w) (immJOf w) = w := by
  rw [← hop, packJ_fields]

theorem systemWord_of_fields {w : Word} {op : BitVec 7} (hop : opcodeOf w = op) : w.extractLsb' 7 25 ++ op = w := by
  rw [← hop, systemWord_fields]

/-! ### The decoder of a class, from the opcode -/

theorem decodeWord_load {w : Word} (h : opcodeOf w = 0b0000011) : decodeWord w = decodeLoad w := by
  rw [decodeWord, h]; rfl

theorem decodeWord_miscMem {w : Word} (h : opcodeOf w = 0b0001111) :
    decodeWord w = .instr (.miscMem (rdOf w) (rs1Of w) (funct3Of w) (immIOf w)) := by
  rw [decodeWord, h]; rfl

theorem decodeWord_opImm {w : Word} (h : opcodeOf w = 0b0010011) : decodeWord w = decodeOpImm w := by
  rw [decodeWord, h]; rfl

theorem decodeWord_auipc {w : Word} (h : opcodeOf w = 0b0010111) :
    decodeWord w = .instr (.auipc (rdOf w) (immUOf w)) := by
  rw [decodeWord, h]; rfl

theorem decodeWord_store {w : Word} (h : opcodeOf w = 0b0100011) : decodeWord w = decodeStore w := by
  rw [decodeWord, h]; rfl

theorem decodeWord_op {w : Word} (h : opcodeOf w = 0b0110011) : decodeWord w = decodeOp w := by
  rw [decodeWord, h]; rfl

theorem decodeWord_lui {w : Word} (h : opcodeOf w = 0b0110111) : decodeWord w = .instr (.lui (rdOf w) (immUOf w)) := by
  rw [decodeWord, h]; rfl

theorem decodeWord_branch {w : Word} (h : opcodeOf w = 0b1100011) : decodeWord w = decodeBranch w := by
  rw [decodeWord, h]; rfl

theorem decodeWord_jalr {w : Word} (h : opcodeOf w = 0b1100111) : decodeWord w = decodeJalr w := by
  rw [decodeWord, h]; rfl

theorem decodeWord_jal {w : Word} (h : opcodeOf w = 0b1101111) : decodeWord w = .instr (.jal (rdOf w) (immJOf w)) := by
  rw [decodeWord, h]; rfl

theorem decodeWord_system {w : Word} (h : opcodeOf w = 0b1110011) :
    decodeWord w = .instr (.system (w.extractLsb' 7 25)) := by
  rw [decodeWord, h]; rfl

/-! ### Decoding an encoding -/

/-- Settles O1, by the instruction's class: the packed word's opcode selects the class's decoder, which reads the packed
selectors and operands. -/
theorem decodeReadsBackEveryEncoding : Obligations.DecodeReadsBackEveryEncoding := by
  unfold Obligations.DecodeReadsBackEveryEncoding
  intro i hi
  cases i
  case addi | slti | sltiu | xori | ori | andi | slli | srli | srai =>
    rw [encode, decodeWord_opImm (by simp)]; simp [decodeOpImm]
  case add | sub | sll | slt | sltu | xor | srl | sra | or | and =>
    rw [encode, decodeWord_op (by simp)]; simp [decodeOp]
  case lui => rw [encode, decodeWord_lui (by simp)]; simp
  case auipc => rw [encode, decodeWord_auipc (by simp)]; simp
  case jal => rw [encode, decodeWord_jal (by simp), immJOf_packJ _ _ _ hi]; simp
  case jalr => rw [encode, decodeWord_jalr (by simp)]; simp [decodeJalr]
  case beq | bne | blt | bge | bltu | bgeu =>
    rw [encode, decodeWord_branch (by simp)]; simp [decodeBranch, immBOf_packB _ _ _ _ _ hi]
  case lb | lh | lw | lbu | lhu => rw [encode, decodeWord_load (by simp)]; simp [decodeLoad]
  case sb | sh | sw => rw [encode, decodeWord_store (by simp)]; simp [decodeStore]
  case miscMem => rw [encode, decodeWord_miscMem (by simp)]; simp
  case system => rw [encode, decodeWord_system (by simp)]; simp

/-- A word that is an instruction's encoding decodes to that instruction. -/
theorem decodeWord_of_encode {w : Word} {i : Instr} (h : encode i = w) (hi : i.wellFormed = true) :
    decodeWord w = .instr i := by
  rw [← h]; exact decodeReadsBackEveryEncoding i hi

/-! ### What the decoder can answer -/

/-- What an answer of the decoder says of the word: an instruction is well-formed and the word encodes it, and only an
opcode without a class is unrecognized (R140). -/
inductive Reading (w : Word) : Decoded → Prop where
  | instr (i : Instr) : encode i = w → i.wellFormed = true → Reading w (.instr i)
  | nonCanonical (why : NonCanonical) : Reading w (.nonCanonical why)
  | unrecognized : classOf (opcodeOf w) = none → Reading w .unrecognized

theorem reading_decodeOpImm {w : Word} (hop : opcodeOf w = 0b0010011) : Reading w (decodeOpImm w) := by
  unfold decodeOpImm
  split
  case h_7 h3 =>
    split
    case h_1 h7 => exact .instr _ (packR_of_fields hop h3 h7) rfl
    case h_2 => exact .nonCanonical _
  case h_8 =>
    have h3 : funct3Of w = 5#3 := by have := funct3_cases (funct3Of w); simp_all
    split
    case h_1 h7 | h_2 h7 => exact .instr _ (packR_of_fields hop h3 h7) rfl
    case h_3 => exact .nonCanonical _
  all_goals exact .instr _ (packI_of_fields hop ‹_›) rfl

theorem reading_decodeOp {w : Word} (hop : opcodeOf w = 0b0110011) : Reading w (decodeOp w) := by
  unfold decodeOp
  split
  case h_1 h7 =>
    rcases funct3_cases (funct3Of w) with h3 | h3 | h3 | h3 | h3 | h3 | h3 | h3 <;> simp only [h3]
    all_goals exact .instr _ (packR_of_fields hop h3 h7) rfl
  case h_2 h7 =>
    split
    case h_1 h3 | h_2 h3 => exact .instr _ (packR_of_fields hop h3 h7) rfl
    case h_3 => exact .nonCanonical _
  case h_3 => exact .nonCanonical _

theorem reading_decodeBranch {w : Word} (hop : opcodeOf w = 0b1100011) : Reading w (decodeBranch w) := by
  unfold decodeBranch
  split
  case h_7 => exact .nonCanonical _
  all_goals exact .instr _ (packB_of_fields hop ‹_›) (evenOffset_immBOf w)

theorem reading_decodeLoad {w : Word} (hop : opcodeOf w = 0b0000011) : Reading w (decodeLoad w) := by
  unfold decodeLoad
  split
  case h_6 => exact .nonCanonical _
  all_goals exact .instr _ (packI_of_fields hop ‹_›) rfl

theorem reading_decodeStore {w : Word} (hop : opcodeOf w = 0b0100011) : Reading w (decodeStore w) := by
  unfold decodeStore
  split
  case h_4 => exact .nonCanonical _
  all_goals exact .instr _ (packS_of_fields hop ‹_›) rfl

theorem reading_decodeJalr {w : Word} (hop : opcodeOf w = 0b1100111) : Reading w (decodeJalr w) := by
  unfold decodeJalr
  split
  · exact .instr _ (packI_of_fields hop ‹_›) rfl
  · exact .nonCanonical _

/-- Every answer of the decoder is such a reading, by the class of the word's opcode. -/
theorem reading_decodeWord (w : Word) : Reading w (decodeWord w) := by
  cases hc : classOf (opcodeOf w) with
  | none => simp only [decodeWord, hc]; exact .unrecognized hc
  | some c =>
    have hop := (classOf_eq_some _ _).1 hc
    cases c with
    | load => rw [decodeWord_load hop]; exact reading_decodeLoad hop
    | miscMem => rw [decodeWord_miscMem hop]; exact .instr _ (packI_of_fields hop rfl) rfl
    | opImm => rw [decodeWord_opImm hop]; exact reading_decodeOpImm hop
    | auipc => rw [decodeWord_auipc hop]; exact .instr _ (packU_of_fields hop) rfl
    | store => rw [decodeWord_store hop]; exact reading_decodeStore hop
    | op => rw [decodeWord_op hop]; exact reading_decodeOp hop
    | lui => rw [decodeWord_lui hop]; exact .instr _ (packU_of_fields hop) rfl
    | branch => rw [decodeWord_branch hop]; exact reading_decodeBranch hop
    | jalr => rw [decodeWord_jalr hop]; exact reading_decodeJalr hop
    | jal => rw [decodeWord_jal hop]; exact .instr _ (packJ_of_fields hop) (evenOffset_immJOf w)
    | system => rw [decodeWord_system hop]; exact .instr _ (systemWord_of_fields hop) rfl

/-- Settles O2, by what an answer of the decoder says of the word. -/
theorem encodeWritesBackEveryDecoding : Obligations.EncodeWritesBackEveryDecoding := by
  unfold Obligations.EncodeWritesBackEveryDecoding
  intro w i h
  have hr := reading_decodeWord w
  rw [h] at hr
  cases hr with
  | instr _ he hwf => exact ⟨he, hwf⟩

/-! ### The rows of the opcode table -/

/-- A field that the mask covers is the field of the masked word. -/
theorem extract_of_mask {w m v : Word} {start len : Nat} (h : w &&& m = v)
    (hm : m.extractLsb' start len = BitVec.allOnes len) : w.extractLsb' start len = v.extractLsb' start len := by
  rw [← h, BitVec.extractLsb'_and, hm, BitVec.and_allOnes]

section
variable {w v : Word} {op : BitVec 7} {f3 : BitVec 3} {f7 : BitVec 7}

theorem packI_of_mask (h : w &&& 0x707F = v) (hop : opcodeOf v = op) (h3 : funct3Of v = f3) :
    packI op f3 (rdOf w) (rs1Of w) (immIOf w) = w :=
  packI_of_fields ((extract_of_mask h rfl).trans hop) ((extract_of_mask h rfl).trans h3)

theorem packR_of_mask (h : w &&& 0xFE00707F = v) (hop : opcodeOf v = op) (h3 : funct3Of v = f3) (h7 : funct7Of v = f7) :
    packR op f3 f7 (rdOf w) (rs1Of w) (rs2Of w) = w :=
  packR_of_fields ((extract_of_mask h rfl).trans hop) ((extract_of_mask h rfl).trans h3)
    ((extract_of_mask h rfl).trans h7)

theorem packU_of_mask (h : w &&& 0x7F = v) (hop : opcodeOf v = op) : packU op (rdOf w) (immUOf w) = w :=
  packU_of_fields ((extract_of_mask h rfl).trans hop)

theorem packS_of_mask (h : w &&& 0x707F = v) (hop : opcodeOf v = op) (h3 : funct3Of v = f3) :
    packS op f3 (rs1Of w) (rs2Of w) (immSOf w) = w :=
  packS_of_fields ((extract_of_mask h rfl).trans hop) ((extract_of_mask h rfl).trans h3)

theorem packB_of_mask (h : w &&& 0x707F = v) (hop : opcodeOf v = op) (h3 : funct3Of v = f3) :
    packB op f3 (rs1Of w) (rs2Of w) (immBOf w) = w :=
  packB_of_fields ((extract_of_mask h rfl).trans hop) ((extract_of_mask h rfl).trans h3)

theorem packJ_of_mask (h : w &&& 0x7F = v) (hop : opcodeOf v = op) : packJ op (rdOf w) (immJOf w) = w :=
  packJ_of_fields ((extract_of_mask h rfl).trans hop)

end

/-- Settles O4: a word that matches a row is the encoding of the row's instruction with the slices of the word as operands,
so it decodes to it. The rows are taken in runs of one format. -/
theorem opcodeTableRowsDecode : Obligations.OpcodeTableRowsDecode := by
  unfold Obligations.OpcodeTableRowsDecode
  intro w
  refine ⟨?addi, ?slti, ?sltiu, ?xori, ?ori, ?andi, ?slli, ?srli, ?srai, ?add, ?sub, ?sll, ?slt, ?sltu, ?xor, ?srl, ?sra,
    ?or, ?and, ?lui, ?auipc, ?jal, ?jalr, ?beq, ?bne, ?blt, ?bge, ?bltu, ?bgeu, ?lb, ?lh, ?lw, ?lbu, ?lhu, ?sb, ?sh, ?sw,
    ?miscMem, ?system⟩ <;> intro h
  case addi | slti | sltiu | xori | ori | andi | jalr | lb | lh | lw | lbu | lhu =>
    exact decodeWord_of_encode (packI_of_mask h rfl rfl) rfl
  case slli | srli | srai | add | sub | sll | slt | sltu | xor | srl | sra | or | and =>
    exact decodeWord_of_encode (packR_of_mask h rfl rfl rfl) rfl
  case lui | auipc => exact decodeWord_of_encode (packU_of_mask h rfl) rfl
  case jal => exact decodeWord_of_encode (packJ_of_mask h rfl) (evenOffset_immJOf w)
  case beq | bne | blt | bge | bltu | bgeu => exact decodeWord_of_encode (packB_of_mask h rfl rfl) (evenOffset_immBOf w)
  case sb | sh | sw => exact decodeWord_of_encode (packS_of_mask h rfl rfl) rfl
  case miscMem => exact decodeWord_miscMem (extract_of_mask h rfl)
  case system => exact decodeWord_system (extract_of_mask h rfl)

/-! ### Words that are no instruction -/

/-- The decoder rejects a word exactly if R150's list, as a check on the word, has an item for it. -/
theorem exists_nonCanonical_iff (w : Word) :
    (∃ why, decodeWord w = .nonCanonical why) ↔ (nonCanonicalOf w).isSome = true := by
  rw [nonCanonicalOf_eq]
  cases decodeWord w <;> simp

/-- Only an opcode without a class is unrecognized. -/
theorem decodeWord_eq_unrecognized_iff (w : Word) : decodeWord w = .unrecognized ↔ classOf (opcodeOf w) = none := by
  constructor
  · intro h
    have hr := reading_decodeWord w
    rw [h] at hr
    cases hr with
    | unrecognized hc => exact hc
  · intro hc
    simp only [decodeWord, hc]

/-- An opcode without a class is the opcode of none of them. -/
theorem classOf_eq_none_iff (o : BitVec 7) : classOf o = none ↔ ∀ c, o ≠ codeOf c := by
  simp [Option.eq_none_iff_forall_ne_some, classOf_eq_some]

/-- A list of checks in turn finds something if its first check holds or the rest of the list finds something. -/
theorem isSome_ite_some {α : Type} {p : Prop} [Decidable p] {a : α} {rest : Option α} :
    (if p then some a else rest).isSome = true ↔ p ∨ rest.isSome = true := by
  by_cases hp : p <;> simp [hp]

/-- Settles O5, by the class of the opcode, with the list's check in place of the decoder. -/
theorem decoderRejectsExactlyTheNonCanonical : Obligations.DecoderRejectsExactlyTheNonCanonical := by
  unfold Obligations.DecoderRejectsExactlyTheNonCanonical
  intro w
  have hopImm : opcodeOf w = 0x13 ↔ classOf (opcodeOf w) = some .opImm := (classOf_eq_some _ .opImm).symm
  have hop : opcodeOf w = 0x33 ↔ classOf (opcodeOf w) = some .op := (classOf_eq_some _ .op).symm
  have hbranch : opcodeOf w = 0x63 ↔ classOf (opcodeOf w) = some .branch := (classOf_eq_some _ .branch).symm
  have hload : opcodeOf w = 0x03 ↔ classOf (opcodeOf w) = some .load := (classOf_eq_some _ .load).symm
  have hstore : opcodeOf w = 0x23 ↔ classOf (opcodeOf w) = some .store := (classOf_eq_some _ .store).symm
  have hjalr : opcodeOf w = 0x67 ↔ classOf (opcodeOf w) = some .jalr := (classOf_eq_some _ .jalr).symm
  have hge3 : ∀ f : BitVec 3, 0b011 ≤ f ↔ f = 3 ∨ f = 4 ∨ f = 5 ∨ f = 6 ∨ f = 7 := by decide
  rw [exists_nonCanonical_iff, nonCanonicalOf, hopImm, hop, hbranch, hload, hstore, hjalr]
  cases classOf (opcodeOf w) with
  | none => simp
  | some c =>
    cases c with
    | store => simp only [isSome_ite_some, hge3]; simp
    | opImm | op | branch | load | jalr => simp [isSome_ite_some]
    | miscMem | auipc | lui | jal | system => simp

/-- The two low bits of every class's opcode are 11 (R120). -/
theorem low_bits_codeOf (c : OpClass) : (codeOf c).extractLsb' 0 2 = 0b11#2 := by
  cases c <;> rfl

/-- The two low bits of a word are those of its opcode. -/
theorem low_bits_opcodeOf (w : Word) : (opcodeOf w).extractLsb' 0 2 = w.extractLsb' 0 2 := by
  rw [opcodeOf, BitVec.extractLsb'_extractLsb'_of_le (by decide)]

/-- The eleven opcodes of R140 are those of the classes. -/
theorem mem_opcodes_iff (o : BitVec 7) :
    o ∈ ([0x03, 0x0F, 0x13, 0x17, 0x23, 0x33, 0x37, 0x63, 0x67, 0x6F, 0x73] : List (BitVec 7)) ↔ ∃ c, o = codeOf c := by
  constructor
  · have hclass : ∀ o ∈ ([0x03, 0x0F, 0x13, 0x17, 0x23, 0x33, 0x37, 0x63, 0x67, 0x6F, 0x73] : List (BitVec 7)),
        (classOf o).isSome = true := by decide
    intro ho
    obtain ⟨c, hc⟩ := Option.isSome_iff_exists.1 (hclass o ho)
    exact ⟨c, (classOf_eq_some o c).1 hc⟩
  · rintro ⟨c, rfl⟩
    cases c <;> decide

/-- Settles O6: unrecognized words are those of the opcodes without a class. -/
theorem unrecognizedOpcodesAreTheOther117 : Obligations.UnrecognizedOpcodesAreTheOther117 := by
  unfold Obligations.UnrecognizedOpcodesAreTheOther117
  refine ⟨fun w => ?_, fun w hw => ?_, rfl⟩
  · rw [decodeWord_eq_unrecognized_iff, classOf_eq_none_iff, mem_opcodes_iff, not_exists]
  · rw [decodeWord_eq_unrecognized_iff, classOf_eq_none_iff]
    intro c hc
    exact hw (by rw [← low_bits_opcodeOf, hc, low_bits_codeOf])

/-! ### The outputs by format -/

theorem decodeFields_I {w : Word}
    (h : classOf (opcodeOf w) ∈ [some OpClass.opImm, some .jalr, some .load, some .miscMem]) :
    decodeFields w = fieldsI w := by
  simp only [List.mem_cons, List.not_mem_nil, or_false] at h
  rcases h with h | h | h | h <;> simp only [decodeFields, h]

theorem decodeFields_U {w : Word} (h : classOf (opcodeOf w) ∈ [some OpClass.lui, some .auipc]) :
    decodeFields w = fieldsU w := by
  simp only [List.mem_cons, List.not_mem_nil, or_false] at h
  rcases h with h | h <;> simp only [decodeFields, h]

theorem decodeFields_R {w : Word} (h : classOf (opcodeOf w) = some .op) : decodeFields w = fieldsR w := by
  simp only [decodeFields, h]

theorem decodeFields_J {w : Word} (h : classOf (opcodeOf w) = some .jal) : decodeFields w = fieldsJ w := by
  simp only [decodeFields, h]

theorem decodeFields_B {w : Word} (h : classOf (opcodeOf w) = some .branch) : decodeFields w = fieldsB w := by
  simp only [decodeFields, h]

theorem decodeFields_S {w : Word} (h : classOf (opcodeOf w) = some .store) : decodeFields w = fieldsS w := by
  simp only [decodeFields, h]

/-- SYSTEM words and words of an unrecognized opcode have no format (R132). -/
theorem decodeFields_noFormat {w : Word} (h : classOf (opcodeOf w) = some .system ∨ classOf (opcodeOf w) = none) :
    decodeFields w = zeroFields w := by
  rcases h with h | h <;> simp only [decodeFields, h]

/-! ### The I-type immediates -/

/-- A one-bit field as a two's complement number. -/
theorem toInt_extractLsb'_one (w : Word) (k : Nat) :
    (w.extractLsb' k 1).toInt = if w.getLsbD k = true then -1 else 0 := by
  have h : w.extractLsb' k 1 = BitVec.ofBool (w.getLsbD k) := by
    apply BitVec.eq_of_getLsbD_eq
    intro i hi
    obtain rfl : i = 0 := by omega
    simp
  rw [h]
  cases w.getLsbD k <;> rfl

/-- The I-type field is its sign bit over the eleven bits of `uimm` (R126). -/
theorem immIOf_eq_append (w : Word) : immIOf w = w.extractLsb' 31 1 ++ w.extractLsb' 20 11 := by
  rw [immIOf, BitVec.extractLsb'_append_extractLsb'_eq_extractLsb' (by decide)]

/-- R133: the two immediates differ by the weight of instr[31]. -/
theorem toInt_immIOf (w : Word) :
    (immIOf w).toInt = (w.extractLsb' 20 11).toNat - if w.getLsbD 31 = true then 2048 else 0 := by
  rw [immIOf_eq_append, BitVec.toInt_append, if_neg (by decide), toInt_extractLsb'_one]
  split <;> omega

/-- The zero-extended immediate is not negative. -/
theorem toInt_uimm (w : Word) : ((w.extractLsb' 20 11).zeroExtend 32).toInt = (w.extractLsb' 20 11).toNat := by
  have h := (w.extractLsb' 20 11).isLt
  rw [BitVec.toInt_eq_toNat_of_lt] <;> simp <;> omega

theorem toInt_signExtend_immIOf (w : Word) : ((immIOf w).signExtend 32).toInt = (immIOf w).toInt :=
  BitVec.toInt_signExtend_of_le (by decide)

/-- Settles O7: the fields of the I format, with the two immediates as numbers. -/
theorem iTypeImmediates : Obligations.ITypeImmediates := by
  unfold Obligations.ITypeImmediates
  intro w h
  have hu := (w.extractLsb' 20 11).isLt
  have himm : (fieldsI w).imm.toInt = (w.extractLsb' 20 11).toNat - if w.getLsbD 31 = true then 2048 else 0 :=
    (toInt_signExtend_immIOf w).trans (toInt_immIOf w)
  have huimm : (fieldsI w).uimm.toInt = (w.extractLsb' 20 11).toNat := toInt_uimm w
  have hnat : (fieldsI w).uimm.toNat = (w.extractLsb' 20 11).toNat := by
    simp [fieldsI]; omega
  rw [decodeFields_I h, hnat, himm]
  refine ⟨rfl, rfl, ?_, ?_, ?_, fun h31 => BitVec.eq_of_toInt_eq ?_, fun h31 => ?_⟩
  · split <;> omega
  · split <;> omega
  · omega
  · rw [himm, huimm, h31]; simp
  · rw [h31]; simp

/-! ### Branch and jump offsets -/

/-- A field with a last bit 0 is even and in the range of its width, and sign extension keeps the number (R135, R137). -/
theorem toInt_signExtend_append_zero {n : Nat} (x : BitVec n) (hn : n + 1 ≤ 32) :
    ((x ++ 0#1).signExtend 32).toInt % 2 = 0 ∧ -2 ^ n ≤ ((x ++ 0#1).signExtend 32).toInt ∧
      ((x ++ 0#1).signExtend 32).toInt < 2 ^ n := by
  have hx : (x ++ 0#1).toInt = 2 * x.toInt := by
    rw [BitVec.toInt_append]
    cases n with
    | zero => simp [BitVec.of_length_zero]
    | succ n => simp
  rw [BitVec.toInt_signExtend_of_le hn, hx]
  exact ⟨by omega, x.le_two_mul_toInt, x.two_mul_toInt_lt⟩

theorem getLsbD_signExtend_of_lt {n i : Nat} (x : BitVec n) (hi : i < n) (hn : n ≤ 32) :
    (x.signExtend 32).getLsbD i = x.getLsbD i := by
  rw [BitVec.getLsbD_signExtend, if_pos hi, decide_eq_true (by omega), Bool.true_and]

theorem getLsbD_immBOf_one (w : Word) : (immBOf w).getLsbD 1 = w.getLsbD 8 := by
  simp only [immBOf, BitVec.getLsbD_append]; simp

theorem getLsbD_immJOf_one (w : Word) : (immJOf w).getLsbD 1 = w.getLsbD 21 := by
  simp only [immJOf, BitVec.getLsbD_append]; simp

/-- Settles O8: the parity and the range of a sign-extended field with a last bit 0, and its next bit as a bit of the word. -/
theorem branchAndJumpOffsets : Obligations.BranchAndJumpOffsets := by
  unfold Obligations.BranchAndJumpOffsets
  refine ⟨fun w h => ?_, fun w h => ?_⟩
  · rw [decodeFields_B h]
    obtain ⟨heven, hlow, hhigh⟩ := toInt_signExtend_append_zero
      (w.extractLsb' 31 1 ++ w.extractLsb' 7 1 ++ w.extractLsb' 25 6 ++ w.extractLsb' 8 4) (by decide)
    have hbit : (fieldsB w).imm.getLsbD 1 = (immBOf w).getLsbD 1 :=
      getLsbD_signExtend_of_lt (immBOf w) (by decide) (by decide)
    exact ⟨heven, hlow, by simp only [fieldsB, immBOf]; omega, hbit.trans (getLsbD_immBOf_one w)⟩
  · rw [decodeFields_J h]
    obtain ⟨heven, hlow, hhigh⟩ := toInt_signExtend_append_zero
      (w.extractLsb' 31 1 ++ w.extractLsb' 12 8 ++ w.extractLsb' 20 1 ++ w.extractLsb' 21 10) (by decide)
    have hbit : (fieldsJ w).imm.getLsbD 1 = (immJOf w).getLsbD 1 :=
      getLsbD_signExtend_of_lt (immJOf w) (by decide) (by decide)
    exact ⟨heven, hlow, by simp only [fieldsJ, immJOf]; omega, hbit.trans (getLsbD_immJOf_one w)⟩

/-! ### Fields as digits -/

/-- A slice of a word is a digit of the word read as a number. -/
theorem extractLsb'_eq_digit (w : Word) (start len : Nat) :
    w.extractLsb' start len = BitVec.ofNat len (w.toNat / 2 ^ start) := by
  rw [BitVec.extractLsb', Nat.shiftRight_eq_div_pow]

theorem opcodeOf_eq_digit (w : Word) : opcodeOf w = BitVec.ofNat 7 w.toNat := by
  rw [opcodeOf, extractLsb'_eq_digit, Nat.pow_zero, Nat.div_one]

theorem rdOf_eq_digit (w : Word) : rdOf w = BitVec.ofNat 5 (w.toNat / 2 ^ 7) := extractLsb'_eq_digit w 7 5

theorem funct3Of_eq_digit (w : Word) : funct3Of w = BitVec.ofNat 3 (w.toNat / 2 ^ 12) := extractLsb'_eq_digit w 12 3

theorem rs1Of_eq_digit (w : Word) : rs1Of w = BitVec.ofNat 5 (w.toNat / 2 ^ 15) := extractLsb'_eq_digit w 15 5

theorem rs2Of_eq_digit (w : Word) : rs2Of w = BitVec.ofNat 5 (w.toNat / 2 ^ 20) := extractLsb'_eq_digit w 20 5

theorem funct7Of_eq_digit (w : Word) : funct7Of w = BitVec.ofNat 7 (w.toNat / 2 ^ 25) := extractLsb'_eq_digit w 25 7

/-- The U-type immediate is the word with its low twelve bits cleared (R127). -/
theorem immU_eq_and (w : Word) : immUOf w ++ 0#12 = w &&& 0xFFFFF000 := by
  apply BitVec.eq_of_getLsbD_eq
  intro i hi
  rw [BitVec.getLsbD_append]
  interval_cases i <;> simp [immUOf]

/-- Settles O9: the fields of the word's format, each slice read as a digit. -/
theorem decoderOutputsByFormat : Obligations.DecoderOutputsByFormat := by
  unfold Obligations.DecoderOutputsByFormat
  simp only [← opcodeOf_eq_digit, ← rdOf_eq_digit, ← funct3Of_eq_digit, ← rs1Of_eq_digit, ← rs2Of_eq_digit,
    ← funct7Of_eq_digit, ← immU_eq_and]
  exact ⟨fun w h => decodeFields_I h, fun w h => decodeFields_U h, fun w h => decodeFields_R h,
    fun w h => decodeFields_J h, fun w h => decodeFields_B h, fun w h => decodeFields_S h⟩

/-- Settles O10: a word without a format has the outputs' defaults. -/
theorem systemAndUnrecognizedFieldsAreZero : Obligations.SystemAndUnrecognizedFieldsAreZero := by
  unfold Obligations.SystemAndUnrecognizedFieldsAreZero
  intro w h
  rw [decodeFields_noFormat h, zeroFields, opcodeOf_eq_digit]

/-- Settles O3, by decoding each word. -/
theorem specWordsDecode : Obligations.SpecWordsDecode := by
  unfold Obligations.SpecWordsDecode
  decide

end Sys2Proof
end

section
/-! PROOF. The statements on the controller (40_controller.md): the Step as the fetch and the word fetched, the refusal of a
non-canonical word, the next pc, the edge that latches `ir`, and the clocked machine with its reference target, which reaches
the Step. Each part's laws stand before the statement they settle. -/

namespace Sys2Proof.Machine

/-! ### The Step from an instruction boundary -/

/-- A word that is an instruction runs as the instruction. -/
theorem runIr_of_instr {s : State} {i : Instr} (h : decodeWord s.ir = .instr i) : runIr s = exec i s := by
  simp only [runIr, h]

/-- A word that is non-canonical is refused by its word (R184). -/
theorem runIr_of_nonCanonical {s : State} {why : NonCanonical} (h : decodeWord s.ir = .nonCanonical why) :
    runIr s = .refused (.nonCanonical s.ir) := by
  simp only [runIr, h]

/-- Settles O32: the Step runs the fetched word, and what the Fetch changes is its law. -/
theorem stepRunsTheDecodedInstruction : Obligations.StepRunsTheDecodedInstruction := by
  unfold Obligations.StepRunsTheDecodedInstruction
  intro s i hf hm hd
  obtain ⟨hir, -, hpc, hregs, hmem, hgaps, hparams, hmark, hrest⟩ := fetch_law s
  refine ⟨?_, hir, hpc, hregs, hmem, hgaps, hparams, hmark.trans hm, hrest⟩
  rw [step_readPc hf hm, runIr_of_instr (hir ▸ hd)]

/-- Only a non-canonical word is refused: every instruction completes. -/
theorem nonCanonical_of_runIr_refused {s : State} {r : Refusal} (h : runIr s = .refused r) :
    ∃ why, decodeWord s.ir = .nonCanonical why := by
  cases hd : decodeWord s.ir with
  | nonCanonical why => exact ⟨why, rfl⟩
  | instr i => rw [runIr_of_instr hd, decodeEdge_instr hd] at h; cases h
  | unrecognized => simp only [runIr, hd] at h; cases h

/-- No instruction is about to run where the word at `pc` is non-canonical. -/
theorem nextInstr_of_nonCanonical {s : State} {why : NonCanonical} (hf : s.fsm = .readPc)
    (hd : decodeWord (fetch s).ir = .nonCanonical why) : nextInstr s = none := by
  simp only [nextInstr, hf, hd, instrOf]

/-- With no instruction about to run, no operand can be at fault. -/
theorem stepChecked_of_no_instr {s : State} (h : nextInstr s = none) : stepChecked s = .machine (step s) := by
  simp [stepChecked, h]

/-- A marked machine is refused every Step (R179), and no edge without reset changes it (R184). -/
theorem step_of_marked {s : State} (hm : s.refusalMark = true) : step s = .refused .refusalMarkSet := by
  simp [step, hm]

theorem clock_of_marked {b : BusIn} {s : State} (hm : s.refusalMark = true) (hrst : b.rst = false) : clock b s = s := by
  simp [clock, hm, hrst]

/-- Settles O35: the fetched word is refused in both Steps and in DECODE's edge, and the mark stops the machine. -/
theorem nonCanonicalWordIsRefused : Obligations.NonCanonicalWordIsRefused := by
  unfold Obligations.NonCanonicalWordIsRefused
  refine ⟨fun s why hf hm hd => ?_, fun s hm => ⟨step_of_marked hm, fun b hrst => clock_of_marked hm hrst⟩⟩
  obtain ⟨hir, -⟩ := fetch_law s
  rw [← hir] at hd ⊢
  have hstep : step s = .refused (.nonCanonical (fetch s).ir) := by
    rw [step_readPc hf hm, runIr_of_nonCanonical hd]
  refine ⟨hstep, ?_, decodeEdge_nonCanonical hd⟩
  rw [stepChecked_of_no_instr (nextInstr_of_nonCanonical hf hd), hstep]

/-! ### The next pc -/

/-- An instruction that does not transfer control goes to the sequential pc (10_state.md R42). -/
theorem exec_pc_of_not_transfers {i : Instr} {s t : State} (h : exec i s = .next t) (hn : transfers s i = false) :
    t.pc = s.pc + 4 := by
  cases exec_shape h with
  | result rd v c => simp
  | jump target rd _ _ _ _ ht => rw [hn] at ht; cases ht
  | branch rel rs1 rs2 off _ _ _ _ ht =>
    obtain ⟨-, hpc, -⟩ := branchIf_law rel rs1 rs2 off s
    rw [hpc, ← ht, hn, if_neg Bool.false_ne_true]
  | load rd w g ea => simp [loadFrom]
  | store n ea d => simp [storeTo]
  | noOp k => simp

/-- The pc after a branch, with the offset as an integer (R183). -/
theorem branchIf_pc (rel : Relation) (rs1 rs2 : RegIdx) (off : BitVec 13) (s : State) :
    (branchIf rel rs1 rs2 off s).pc =
      if cmp rel (readReg s rs1) (readReg s rs2) then s.pc + BitVec.ofInt 32 off.toInt else s.pc + 4 := by
  obtain ⟨-, hpc, -⟩ := branchIf_law rel rs1 rs2 off s
  exact hpc

/-- Every instruction goes where R183 says: the jumps to their targets, the branches by their relation, and the others, which
do not transfer control, to the sequential pc. -/
theorem exec_pc {i : Instr} {s t : State} (h : exec i s = .next t) : t.pc = nextPc s i := by
  cases i
  case jal rd off => cases h; exact jumpTo_pc _ _
  case jalr rd rs1 imm => cases h; exact jumpTo_pc _ _
  case beq | bne | blt | bge | bltu | bgeu => cases h; simp only [branchIf_pc, cmp_eq, decide_eq_true_eq, nextPc]
  all_goals exact exec_pc_of_not_transfers h rfl

/-- Settles O48: every instruction, and the no-op of an unrecognized opcode after its fetch. -/
theorem nextPcFollowsTheRule : Obligations.NextPcFollowsTheRule := by
  unfold Obligations.NextPcFollowsTheRule
  refine ⟨fun i s t => exec_pc, fun s t hf hd h => ?_⟩
  obtain ⟨hir, -, hpc, -⟩ := fetch_law s
  rw [step_readPc hf (not_marked_of_step h)] at h
  rcases runIr_cases h with ⟨i, hi, -⟩ | ⟨-, rfl⟩
  · rw [hir, hd] at hi; cases hi
  · simp [hpc]

/-! ### The instruction register -/

/-- Running the word in `ir` leaves it there. -/
theorem runIr_ir {s t : State} (h : runIr s = .next t) : t.ir = s.ir := by
  rcases runIr_cases h with ⟨i, -, he⟩ | ⟨-, rfl⟩
  · exact (exec_keepsFixed he).ir
  · rfl

theorem decodeEdge_ir (s : State) : (decodeEdge s).ir = s.ir := by
  have hshape := decodeEdge_shape s
  generalize decodeEdge s = t at hshape ⊢
  cases hshape with
  | refuse => rfl
  | done _ hrun => exact runIr_ir hrun
  | load rd w g ea => exact beginLoad_ir rd w g ea s
  | store n ea d => exact beginStore_ir n ea d s

/-- The acknowledge in LOAD_PC is the end of the Fetch (R173). -/
theorem clock_loadPc_ack {b : BusIn} {s : State} (hrst : b.rst = false) (hm : s.refusalMark = false)
    (hf : s.fsm = .loadPc) (ha : b.ack = true) : clock b s = endFetch b.dat s := by
  simp [clock, hrst, hm, hf, ha]

/-- Settles O56, over the shapes of an edge: only the end of the Fetch writes `ir`. -/
theorem fetchAcknowledgeLatchesIr : Obligations.FetchAcknowledgeLatchesIr := by
  unfold Obligations.FetchAcknowledgeLatchesIr
  intro b s hrst hm
  refine ⟨fun hf ha => ?_, fun hno => ?_⟩
  · rw [clock_loadPc_ack hrst hm hf ha]
    exact ⟨rfl, rfl⟩
  · generalize ht : clock b s = t
    cases clock_shape hrst ht with
    | endFetch _ hf ha => exact absurd ⟨hf, ha⟩ hno
    | decode => exact decodeEdge_ir s
    | stopped | waiting | beginFetch | endLoad | endStore => rfl

/-! ### The clocked machine with its reference target -/

/-- A run of edges in two parts. -/
theorem ticks_append (as bs : List Bool) (s : State) : ticks (as ++ bs) s = ticks bs (ticks as s) := by
  induction as generalizing s with
  | nil => rfl
  | cons a as ih => exact ih _

/-- Where no write lands, an edge with the target attached is the core's edge on the target's answer. -/
theorem tick_of_not_lands {e : EnvIn} {s : State} (h : writeLands e s = false) :
    tick e s = clock ⟨e.rst, e.ack, targetAnswer s⟩ s := by
  simp [tick, h]

/-- Without reset a write lands only in STORE. -/
theorem writeLands_of_ne_store (e : EnvIn) {s : State} (h : s.fsm ≠ .store) : writeLands e s = false := by
  simp [writeLands, h]

/-- However long a wait state is not acknowledged, it stays as it is and the target performs nothing (20_memory.md R78). -/
theorem ticks_waits {s : State} (hw : s.fsm.waits = true) (n : Nat) : ticks (List.replicate n false) s = s := by
  induction n with
  | zero => rfl
  | succ n ih =>
    have hwait : tick ⟨false, false, false⟩ s = s := by
      rw [tick_of_not_lands (by simp [writeLands])]
      exact waitStatesOnlyWait _ s hw rfl rfl
    rw [List.replicate_succ, ticks, hwait, ih]

/-- READ_PC's edge, LOAD_PC's acknowledge and DECODE's edge (R172 to R174). -/
theorem tick_readPc {s : State} (a : Bool) (hf : s.fsm = .readPc) (hm : s.refusalMark = false) :
    tick ⟨false, a, false⟩ s = beginFetch s := by
  rw [tick_of_not_lands (writeLands_of_ne_store _ (by simp [hf]))]
  simp [clock, hf, hm]

theorem tick_loadPc_ack {s : State} (hf : s.fsm = .loadPc) (hm : s.refusalMark = false) :
    tick ⟨false, true, false⟩ s = endFetch (targetAnswer s) s := by
  rw [tick_of_not_lands (writeLands_of_ne_store _ (by simp [hf]))]
  exact clock_loadPc_ack rfl hm hf rfl

theorem tick_decode {s : State} (a : Bool) (hf : s.fsm = .decode) (hm : s.refusalMark = false) :
    tick ⟨false, a, false⟩ s = decodeEdge s := by
  rw [tick_of_not_lands (writeLands_of_ne_store _ (by simp [hf]))]
  simp [clock, hf, hm]

/-- The acknowledge in STORE is the end of the store (R176). -/
theorem clock_store_ack {b : BusIn} {s : State} (hrst : b.rst = false) (hm : s.refusalMark = false)
    (hf : s.fsm = .store) (ha : b.ack = true) : clock b s = endStore s := by
  simp [clock, hrst, hm, hf, ha]

/-- The acknowledge of a data transaction is the rest of the instruction: a load takes the target's answer, and the target
performs a store (R175, R176). -/
theorem tick_data_ack {s : State} (hf : s.fsm = .load ∨ s.fsm = .store) (hm : s.refusalMark = false) :
    tick ⟨false, true, false⟩ s = finish s := by
  rcases hf with hf | hf
  · have hfin : finish s = endLoad (targetAnswer s) s := by simp only [finish, hf]
    rw [tick_of_not_lands (writeLands_of_ne_store _ (by simp [hf])), hfin]
    exact clock_load_ack rfl hm hf rfl
  · have hfin : finish s = endStore (landStore s) := by simp only [finish, hf]
    have hlands : writeLands ⟨false, true, false⟩ s = true := by simp [writeLands, hf, hm]
    rw [tick_eq, hlands, clock_store_ack rfl hm hf rfl, hfin]
    rfl

/-- The acknowledges of the data transaction that a schedule ends with, if the instruction has one. -/
def dataSchedule (ld : Nat) (data : Bool) : List Bool := if data then List.replicate ld false ++ [true] else []

/-- The edges of an instruction: those of its Fetch reach DECODE's edge, and those of its data transaction go on from there. -/
theorem ticks_schedule {s : State} (hf : s.fsm = .readPc) (hm : s.refusalMark = false) (lf ld : Nat) (data : Bool) :
    ticks (schedule lf ld data) s = ticks (dataSchedule ld data) (decodeEdge (fetch s)) := by
  have hbegin : ticks [false] s = beginFetch s := tick_readPc false hf hm
  have hack : tick ⟨false, true, false⟩ (beginFetch s) = fetch s := tick_loadPc_ack rfl hm
  have hdecode : ticks [true, false] (beginFetch s) = decodeEdge (fetch s) := by
    rw [ticks, hack]
    exact tick_decode (s := fetch s) false rfl hm
  rw [schedule, ticks_append, ticks_append, ticks_append, hbegin, ticks_waits rfl, hdecode, dataSchedule]

/-- However long a data transaction waits, its edges are the rest of the instruction. -/
theorem ticks_dataSchedule {s : State} (hf : s.fsm = .load ∨ s.fsm = .store) (hm : s.refusalMark = false) (ld : Nat) :
    ticks (dataSchedule ld true) s = finish s := by
  have hw : s.fsm.waits = true := by rcases hf with hf | hf <;> rw [hf] <;> rfl
  rw [dataSchedule, if_pos rfl, ticks_append, ticks_waits hw]
  exact tick_data_ack hf hm

/-- From DECODE's edge on, the edges of the data transaction, if the word makes one, reach what running the word makes. -/
theorem ticks_of_runIr {s t : State} (h : runIr s = .next t) (hm : s.refusalMark = false) (ld : Nat) :
    ticks (dataSchedule ld (accessesData (decodeWord s.ir))) (decodeEdge s) = t := by
  obtain ⟨hmark, -⟩ := decodeEdge_of_runIr h
  rw [eq_finish_of_runIr h]
  have hshape := decodeEdge_shape s
  generalize decodeEdge s = u at hshape hmark ⊢
  cases hshape with
  | refuse why hd => rw [runIr_of_nonCanonical hd] at h; cases h
  | done _ _ hb ha => rw [ha, finish_of_boundary hb]; rfl
  | load rd w g ea _ ha => rw [ha]; exact ticks_dataSchedule (.inl (by simp)) (hmark.trans hm) ld
  | store n ea d _ ha => rw [ha]; exact ticks_dataSchedule (.inr (by simp)) (hmark.trans hm) ld

/-- Settles O50: the Fetch's edges reach DECODE's edge, which refuses the word or leaves the data transaction to do. -/
theorem clockedMachineRefinesStep : Obligations.ClockedMachineRefinesStep := by
  unfold Obligations.ClockedMachineRefinesStep
  intro s lf ld hf hm
  rw [step_readPc hf hm]
  obtain ⟨hir, -, -, -, -, -, -, hmark, -⟩ := fetch_law s
  refine ⟨fun t h => ?_, fun w h => ?_⟩
  · rw [ticks_schedule hf hm, ← hir, ticks_of_runIr h (hmark.trans hm)]
  · obtain ⟨why, hd⟩ := nonCanonical_of_runIr_refused h
    rw [ticks_schedule hf hm, decodeEdge_nonCanonical hd]
    rfl

end Sys2Proof.Machine
end

section
/-! PROOF. The statements on OP-IMM (41_integer_immediate.md): the ALU's values in integers and naturals, the immediate of the
logic instructions, and the rule of every instruction that ends by writing its result to a register. -/

namespace Sys2Proof.Machine

/-! ### The values -/

/-- SLT compares integers (40_controller.md R181). -/
theorem alu_slt (p q : Word) : alu .slt p q = if p.toInt < q.toInt then 1 else 0 := by
  simp [alu, boolWord, BitVec.slt_eq_decide]

/-- SLTU compares naturals (R181). -/
theorem alu_sltu (p q : Word) : alu .sltu p q = if p.toNat < q.toNat then 1 else 0 := by
  simp [alu, boolWord, BitVec.ult_eq_decide]

/-- SLL multiplies by a power of two, modulo 2^32 (R181; 30_encoding.md R138). -/
theorem alu_sll (p q : Word) : alu .sll p q = BitVec.ofNat 32 (p.toNat * 2 ^ shiftAmount q) := shiftLeft_eq_ofNat p _

/-- SRL divides the natural number by a power of two. -/
theorem alu_srl (p q : Word) : alu .srl p q = BitVec.ofNat 32 (p.toNat / 2 ^ shiftAmount q) := ushiftRight_eq_ofNat p _

/-- SRA floor-divides the integer by a power of two. -/
theorem alu_sra (p q : Word) : alu .sra p q = BitVec.ofInt 32 (p.toInt / 2 ^ shiftAmount q) := sshiftRight_eq_ofInt p _

/-- The immediate of XORI, ORI and ANDI, by P_LOGIC_IMM (R200). -/
theorem immLogic_eq (p : Params) (imm : BitVec 12) :
    immLogic p imm = if p.logicImm = .uimm then BitVec.ofNat 32 (imm.toNat % 2048) else imm.signExtend 32 := by
  cases h : p.logicImm with
  | uimm => simp [immLogic, h, uimm11_eq]
  | simm => simp [immLogic, h, simm12]

/-! ### Instructions that end by writing their result -/

/-- An instruction that leads to `x[rd] <- v; pc <- pc + 4`, with IMM_SIGN recorded if `c`, does that and nothing else. -/
theorem registerResult_of_immSign {i : Instr} {s : State} {rd : RegIdx} {v : Word} {c : Bool}
    (h : exec i s = .next (writeResult rd v (recordGapIf c .immSign s))) :
    RegisterResult i (operandRegs i) s rd v (if c then [.immSign] else []) := by
  obtain ⟨hregs, hpc, hfsm, hgaps, hmem, hbus, hfixed⟩ := writeResult_law rd v c .immSign s
  exact ⟨_, h, hregs, hpc, hfsm, hgaps, hmem, hbus, hfixed, execChecked_eq h⟩

/-- The same where no gap can be recorded. -/
theorem registerResult_of_writeResult {i : Instr} {s : State} {rd : RegIdx} {v : Word}
    (h : exec i s = .next (writeResult rd v s)) : RegisterResult i (operandRegs i) s rd v [] :=
  registerResult_of_immSign (c := false) h

/-! ### OP-IMM -/

/-- Settles O12: ADDI's sum is the ALU's, and SLTI compares with the sign-extended immediate, which is the same integer. -/
theorem addiAndSltiResults : Obligations.AddiAndSltiResults := by
  unfold Obligations.AddiAndSltiResults
  refine ⟨fun rd rs1 imm s => registerResult_of_writeResult rfl, fun rd rs1 imm s => ?_⟩
  rw [← toInt_simm12, ← alu_slt]
  exact registerResult_of_writeResult rfl

/-- Settles O13: the comparison is the ALU's, and the gap's condition is the immediate's sign. -/
theorem sltiuResult : Obligations.SltiuResult := by
  unfold Obligations.SltiuResult
  intro rd rs1 imm s
  rw [← alu_sltu, ← immSignSet_eq]
  exact registerResult_of_immSign rfl

/-- Settles O14: the operand is `imm_L`, and the gap's condition is the immediate's sign. -/
theorem logicImmediateResults : Obligations.LogicImmediateResults := by
  unfold Obligations.LogicImmediateResults
  intro rd rs1 imm s immL himm
  rw [himm, ← immLogic_eq, ← immSignSet_eq]
  exact ⟨registerResult_of_immSign rfl, registerResult_of_immSign rfl, registerResult_of_immSign rfl⟩

/-- Settles O15: the ALU's shifts, by the shift amount of the immediate as an operand. -/
theorem shiftImmediateResults : Obligations.ShiftImmediateResults := by
  unfold Obligations.ShiftImmediateResults
  refine ⟨fun rd rs1 shamt s => ?_, fun rd rs1 shamt s => ?_, fun rd rs1 shamt s => ?_⟩ <;>
    rw [← shiftAmount_shamtWord shamt]
  · rw [← alu_sll]
    exact registerResult_of_writeResult rfl
  · rw [← alu_srl]
    exact registerResult_of_writeResult rfl
  · rw [← alu_sra]
    exact registerResult_of_writeResult rfl

end Sys2Proof.Machine
end

section
/-! PROOF. The statements on OP (42_integer_register.md): the ALU's sums and differences in integers and naturals, then each
instruction by the rule of those that end by writing their result. -/

namespace Sys2Proof.Machine

/-! ### The values -/

/-- ADD adds the naturals, modulo 2^32 (40_controller.md R181; 42_integer_register.md R241). -/
theorem alu_add (p q : Word) : alu .add p q = BitVec.ofNat 32 (p.toNat + q.toNat) := by
  rw [BitVec.ofNat_add, BitVec.ofNat_toNat, BitVec.ofNat_toNat, BitVec.setWidth_eq, BitVec.setWidth_eq, alu]

/-- SUB subtracts the integers, modulo 2^32 (R181, R241). -/
theorem alu_sub (p q : Word) : alu .sub p q = BitVec.ofInt 32 (p.toInt - q.toInt) := by
  apply BitVec.eq_of_toInt_eq
  rw [BitVec.toInt_ofInt, alu, BitVec.toInt_sub]

/-! ### OP -/

/-- Settles O16: the sum and the difference are the ALU's. -/
theorem addAndSubResults : Obligations.AddAndSubResults := by
  unfold Obligations.AddAndSubResults
  refine ⟨fun rd rs1 rs2 s => ?_, fun rd rs1 rs2 s => ?_⟩
  · rw [← alu_add]
    exact registerResult_of_writeResult rfl
  · rw [← alu_sub]
    exact registerResult_of_writeResult rfl

/-- Settles O17: the comparisons are the ALU's. -/
theorem setLessThanResults : Obligations.SetLessThanResults := by
  unfold Obligations.SetLessThanResults
  refine ⟨fun rd rs1 rs2 s => ?_, fun rd rs1 rs2 s => ?_⟩
  · rw [← alu_slt]
    exact registerResult_of_writeResult rfl
  · rw [← alu_sltu]
    exact registerResult_of_writeResult rfl

/-- Settles O18: the ALU's bitwise operations are those of the words, so the rule applies as it stands. -/
theorem bitwiseResults : Obligations.BitwiseResults := by
  unfold Obligations.BitwiseResults
  exact ⟨fun rd rs1 rs2 s => registerResult_of_writeResult rfl, fun rd rs1 rs2 s => registerResult_of_writeResult rfl,
    fun rd rs1 rs2 s => registerResult_of_writeResult rfl⟩

/-- Settles O19: the ALU's shifts, whose amount is the second operand modulo 32. -/
theorem shiftRegisterResults : Obligations.ShiftRegisterResults := by
  unfold Obligations.ShiftRegisterResults
  refine ⟨fun rd rs1 rs2 s => ?_, fun rd rs1 rs2 s => ?_, fun rd rs1 rs2 s => ?_⟩ <;>
    rw [← shiftAmount_eq]
  · rw [← alu_sll]
    exact registerResult_of_writeResult rfl
  · rw [← alu_srl]
    exact registerResult_of_writeResult rfl
  · rw [← alu_sra]
    exact registerResult_of_writeResult rfl

end Sys2Proof.Machine
end

section
/-! PROOF. The statement on LUI and AUIPC (43_upper_immediate.md), by the rule of the instructions that end by writing their
result. -/

namespace Sys2Proof.Machine

/-- Settles O20: the ALU passes `imm_U`, or adds it to `pc`, and `imm_U` is the field times 4096. -/
theorem upperImmediateResults : Obligations.UpperImmediateResults := by
  unfold Obligations.UpperImmediateResults
  refine ⟨fun rd imm s => ?_, fun rd imm s => ?_⟩
  · rw [← immU_eq]
    exact registerResult_of_writeResult rfl
  · rw [← immU_eq]
    exact registerResult_of_writeResult rfl

end Sys2Proof.Machine
end

section
/-! PROOF. The statements on control transfer (44_control_transfer.md): the rule of the two jumps, that of the six branches,
and each instruction by its rule. -/

namespace Sys2Proof.Machine

/-! ### JAL and JALR -/

/-- An instruction that leads to `x[rd] <- pc + 4; pc <- target` does that, with the gap of a misaligned target (R270), and
nothing else: the register write is `writeReg`'s, and all that the jump keeps of the written state is `s`'s. -/
theorem jumpResult_of_jumpTo {i : Instr} {s : State} {rd : RegIdx} {target : Word}
    (h : exec i s = .next (jumpTo target (writeReg rd (s.pc + 4) s))) :
    JumpResult i (operandRegs i) s rd target := by
  obtain ⟨hregs, hpc, hfsm, hgaps, hmem, hbus, hfixed⟩ := jumpTo_law target (writeReg rd (s.pc + 4) s)
  exact ⟨_, h, (writeReg_law rd _ s).trans_keeps hregs, hpc, hfsm, hgaps, fun a => congrArg (byteAt · a) hmem,
    { hbus with }, { hfixed with }, execChecked_eq h⟩

/-- Settles O21: the target is `pc` plus the offset as an integer. -/
theorem jalResult : Obligations.JalResult := by
  unfold Obligations.JalResult
  intro rd off s
  rw [← signExtend_eq_ofInt]
  exact jumpResult_of_jumpTo rfl

/-- Settles O22: the target is computed in `s`, before the link is written, so it uses the old `x[rs1]`. -/
theorem jalrResult : Obligations.JalrResult := by
  unfold Obligations.JalrResult
  intro rd rs1 imm s
  rw [← signExtend_eq_ofInt]
  exact jumpResult_of_jumpTo rfl

/-! ### The branches -/

/-- An instruction that leads to a branch on `rel` is taken if the relation holds, and does what R273 says. -/
theorem branchResult_of_branchIf {i : Instr} {s : State} {rel : Relation} {rs1 rs2 : RegIdx} {off : BitVec 13}
    {taken : Bool} (h : exec i s = .next (branchIf rel rs1 rs2 off s))
    (htaken : cmp rel (readReg s rs1) (readReg s rs2) = taken) :
    BranchResult i (operandRegs i) s taken (s.pc + BitVec.ofInt 32 off.toInt) := by
  obtain ⟨hregs, hpc, hfsm, hgaps, hmem, hbus, hfixed⟩ := branchIf_law rel rs1 rs2 off s
  rw [htaken] at hpc hgaps
  exact ⟨_, h, hregs, hpc, hfsm, hgaps, fun a => congrArg (byteAt · a) hmem, hbus, hfixed, execChecked_eq h⟩

/-- Settles O23: the comparator's equality and its negation. -/
theorem equalityBranchResults : Obligations.EqualityBranchResults := by
  unfold Obligations.EqualityBranchResults
  exact ⟨fun rs1 rs2 off s => branchResult_of_branchIf rfl (cmp_eq .eq _ _),
    fun rs1 rs2 off s => branchResult_of_branchIf rfl (cmp_eq .ne _ _)⟩

/-- Settles O24: the comparator's orders, of integers and of naturals, and their negations. -/
theorem orderBranchResults : Obligations.OrderBranchResults := by
  unfold Obligations.OrderBranchResults
  exact ⟨fun rs1 rs2 off s => branchResult_of_branchIf rfl (cmp_eq .lt _ _),
    fun rs1 rs2 off s => branchResult_of_branchIf rfl (cmp_eq .ge _ _),
    fun rs1 rs2 off s => branchResult_of_branchIf rfl (cmp_eq .ltu _ _),
    fun rs1 rs2 off s => branchResult_of_branchIf rfl (cmp_eq .geu _ _)⟩

end Sys2Proof.Machine
end

section
/-! PROOF. The statements on loads and stores (45_load_store.md): the adjusted data as bits and naturals, the rule of the loads
and that of the stores, and each instruction by its rule. -/

namespace Sys2Proof.Machine

/-! ### The adjusted data -/

/-- LB sign-extends the low byte of the returned word (R300, R301). -/
theorem adjust_byte_signed (r : Word) : adjust r .byte true = (r.setWidth 8).signExtend 32 := by
  rw [BitVec.setWidth_eq_extractLsb' (by decide)]
  rfl

/-- LH sign-extends its low half (R302). -/
theorem adjust_half_signed (r : Word) : adjust r .half true = (r.setWidth 16).signExtend 32 := by
  rw [BitVec.setWidth_eq_extractLsb' (by decide)]
  rfl

/-- LBU takes the natural number modulo 2^8 (R304). -/
theorem adjust_byte_unsigned (r : Word) : adjust r .byte false = BitVec.ofNat 32 (r.toNat % 256) := by
  apply BitVec.eq_of_toNat_eq
  simp [adjust]

/-- LHU takes it modulo 2^16 (R305). -/
theorem adjust_half_unsigned (r : Word) : adjust r .half false = BitVec.ofNat 32 (r.toNat % 65536) := by
  apply BitVec.eq_of_toNat_eq
  simp [adjust]

/-! ### Loads -/

/-- An instruction that leads to a load from `ea` completes with the adjusted word the reference target returns (R300), and
does nothing else: `loadFrom_law`. -/
theorem loadResult_of_loadFrom {i : Instr} {s : State} {rd : RegIdx} {w : Width} {signed : Bool} {ea v : Word}
    (h : exec i s = .next (loadFrom rd w signed ea s)) (hv : adjust (targetRead s.mem ea) w signed = v) :
    LoadResult i (operandRegs i) s rd ea v w signed := by
  obtain ⟨hregs, hpc, hfsm, hgaps, htrace, hcyc, hstb, hwe, hadr, hrd, hwidth, hsigned, hmem, hfixed⟩ :=
    loadFrom_law rd w signed ea s
  rw [hv] at hregs
  exact ⟨_, h, hregs, hpc, hfsm, hgaps, htrace, hcyc, hstb, hwe, hadr, hrd, hwidth, hsigned,
    fun a => congrArg (byteAt · a) hmem, hfixed, execChecked_eq h⟩

/-- Settles O25: the rule of the loads, with the whole word unadjusted. -/
theorem loadWordResult : Obligations.LoadWordResult := by
  unfold Obligations.LoadWordResult
  exact fun rd rs1 imm s => loadResult_of_loadFrom rfl rfl

/-- Settles O26: the rule of the loads, with the value that each width and signedness adjusts the returned word to. -/
theorem narrowLoadResults : Obligations.NarrowLoadResults := by
  unfold Obligations.NarrowLoadResults
  rintro rd rs1 imm s ea r rfl rfl
  exact ⟨loadResult_of_loadFrom rfl (adjust_byte_signed _), loadResult_of_loadFrom rfl (adjust_half_signed _),
    loadResult_of_loadFrom rfl (adjust_byte_unsigned _), loadResult_of_loadFrom rfl (adjust_half_unsigned _)⟩

/-! ### Stores -/

/-- An instruction that leads to a store of `d` to `ea` completes with `d` in the word that `ea` addresses (R306), and does
nothing else: `storeTo_law`, with the written word read back and a byte outside it left by `byteAt_targetWrite`. -/
theorem storeResult_of_storeTo {i : Instr} {s : State} {narrow : Bool} {ea d : Word}
    (h : exec i s = .next (storeTo narrow ea d s)) : StoreResult i (operandRegs i) s ea d narrow := by
  obtain ⟨hregs, hpc, hfsm, hgaps, htrace, hcyc, hstb, hwe, hadr, hdat, hrd, hwidth, hsigned, hfree, hmem, hfixed⟩ :=
    storeTo_law narrow ea d s
  have hword : targetRead (storeTo narrow ea d s).mem ea = d := targetRead_storeTo narrow ea d ea s rfl
  have hothers : ∀ a, a < wordBase ea ∨ wordBase ea + 4 ≤ a → byteAt (storeTo narrow ea d s).mem a = byteAt s.mem a :=
    fun a ha => by rw [hmem, byteAt_targetWrite, if_neg (by omega)]
  exact ⟨_, h, hregs, hpc, hfsm, hgaps, htrace, hcyc, hstb, hwe, hadr, hdat, hrd, hwidth, hsigned, hfree, hword, hothers,
    hfixed, execChecked_eq h⟩

/-- Settles O27: the rule of the stores. -/
theorem storeWordResult : Obligations.StoreWordResult := by
  unfold Obligations.StoreWordResult
  exact fun rs1 rs2 imm s => storeResult_of_storeTo rfl

/-- Settles O28: the rule of the stores, with NARROW_STORE. -/
theorem narrowStoreResults : Obligations.NarrowStoreResults := by
  unfold Obligations.NarrowStoreResults
  exact ⟨fun rs1 rs2 imm s => storeResult_of_storeTo rfl, fun rs1 rs2 imm s => storeResult_of_storeTo rfl⟩

end Sys2Proof.Machine
end

section
/-! PROOF. The statements on MISC-MEM, SYSTEM and unrecognized opcodes (46_misc_mem_system.md): what the no-op that records a
gap does, the two instructions by it, and the Step on a word of no row of the opcode table. -/

namespace Sys2Proof.Machine

/-! ### The no-op that records a gap -/

/-- `record Gap(k); pc <- pc + 4` and nothing else. -/
theorem advance_recordGap_law (k : Gap) (s : State) :
    KeepsRegisters s (advance (recordGap k s)) ∧ (advance (recordGap k s)).pc = s.pc + 4 ∧
    (advance (recordGap k s)).fsm = .readPc ∧ RecordsExactly s (advance (recordGap k s)) [k] ∧
    (advance (recordGap k s)).mem = s.mem ∧ KeepsBus s (advance (recordGap k s)) ∧
    KeepsFixed s (advance (recordGap k s)) := by
  obtain ⟨hregs, hpc, hfsm, -, hmem, hbus, hfixed⟩ := advance_law (recordGap k s)
  exact ⟨(recordGap_keepsRegisters k s).trans' hregs, hpc, hfsm, fun j => by simp, hmem, { hbus with }, { hfixed with }⟩

/-- An instruction that leads to that no-op, and has no operand, does it in both meanings. -/
theorem noOpResult_of_advance_recordGap {i : Instr} {s : State} {k : Gap}
    (h : exec i s = .next (advance (recordGap k s))) (hops : operandRegs i = []) : NoOpResult i s k := by
  obtain ⟨hregs, hpc, hfsm, hgaps, hmem, hbus, hfixed⟩ := advance_recordGap_law k s
  exact ⟨_, h, hregs, hpc, hfsm, hgaps, fun a => congrArg (byteAt · a) hmem, hbus, hfixed,
    by rw [execChecked_eq h, hops, checkedAnswer]⟩

/-! ### MISC-MEM and SYSTEM -/

/-- Settles O30: MISC-MEM is the no-op of its kind. -/
theorem miscMemIsANoOp : Obligations.MiscMemIsANoOp := by
  unfold Obligations.MiscMemIsANoOp
  exact fun rd rs1 funct3 imm s => noOpResult_of_advance_recordGap rfl rfl

/-- Settles O31: SYSTEM is the no-op of its kind. -/
theorem systemIsANoOp : Obligations.SystemIsANoOp := by
  unfold Obligations.SystemIsANoOp
  exact fun rest s => noOpResult_of_advance_recordGap rfl rfl

/-! ### Unrecognized words -/

/-- A word with an unrecognized opcode runs as the no-op of its kind (R334). -/
theorem runIr_of_unrecognized {s : State} (h : decodeWord s.ir = .unrecognized) :
    runIr s = .next (advance (recordGap .unrecognizedOpcode s)) := by
  simp only [runIr, h, execUnrecognized]

/-- Settles O33: the Step is the Fetch and then the no-op, and no operand can be at fault. -/
theorem stepRunsUnrecognizedWordAsNoOp : Obligations.StepRunsUnrecognizedWordAsNoOp := by
  unfold Obligations.StepRunsUnrecognizedWordAsNoOp
  intro s hf hm hd
  obtain ⟨hir, -, hpcF, hregsF, hmemF, hgapsF, hparamsF, hmarkF, htraceF, -⟩ := fetch_law s
  obtain ⟨hregs, hpc, hfsm, hgaps, hmem, hbus, hfixed⟩ := advance_recordGap_law .unrecognizedOpcode (fetch s)
  rw [← hir] at hd
  have hstep : step s = .next (advance (recordGap .unrecognizedOpcode (fetch s))) := by
    rw [step_readPc hf hm, runIr_of_unrecognized hd]
  have hno : nextInstr s = none :=
    Option.eq_none_iff_forall_ne_some.2 fun i hi => nomatch hd.symm.trans ((nextInstr_eq_some_iff hf).1 hi)
  rw [hpcF] at hpc
  rw [RecordsExactly, hgapsF] at hgaps
  exact ⟨_, hstep, hstep ▸ stepChecked_of_no_instr hno, hregsF.trans' hregs, hpc, hfsm, hgaps,
    fun a => congrArg (byteAt · a) (hmem.trans hmemF), hfixed.params.trans hparamsF,
    hfixed.mark.trans (hmarkF.trans hm), hbus.trace.trans htraceF⟩

end Sys2Proof.Machine
end

section
/-! PROOF. The statements on exceptions and unimplemented behaviour (60_exceptions.md): every instruction completes, what each
ending of an instruction adds to the gap record, the table of gap kinds by instruction, the record that only grows, and the
trace outputs. -/

namespace Sys2Proof.Machine

/-! ### Every instruction completes -/

/-- Every arm of dispatch answers a next state (R350). -/
theorem exec_completes (i : Instr) (s : State) : ∃ t, exec i s = .next t := by
  cases i <;> exact ⟨_, rfl⟩

/-- An instruction ends at an instruction boundary, whatever state it starts in. -/
theorem exec_atBoundary {i : Instr} {s t : State} (h : exec i s = .next t) : atBoundary t := by
  cases exec_shape h with
  | branch rel rs1 rs2 off =>
    obtain ⟨-, -, hfsm, -⟩ := branchIf_law rel rs1 rs2 off s
    exact hfsm
  | result | jump | load | store | noOp => rfl

/-- Settles O37: every arm answers a next state, and it is a boundary by the shapes of an instruction. -/
theorem everyInstructionCompletes : Obligations.EveryInstructionCompletes := by
  unfold Obligations.EveryInstructionCompletes
  intro i s
  obtain ⟨t, h⟩ := exec_completes i s
  obtain ⟨hparams, hir, hmark⟩ := exec_keepsFixed h
  exact ⟨t, h, exec_atBoundary h, hmark, hparams, hir⟩

/-! ### What the ending of an instruction adds to the gap record -/

/-- A jump records a target that is not a multiple of 4 (44_control_transfer.md R270). -/
theorem hasGap_jumpTo (t : Word) (s : State) (k : Gap) :
    hasGap (jumpTo t s).gaps k = (hasGap s.gaps k || (t.toNat % 4 != 0 && decide (k = .misalignedTarget))) := by
  rw [← offWord_eq]
  exact hasGap_recordGapIf (offWord t) .misalignedTarget k s

/-- A branch does so only if it is taken; the target is then the pc after it (R273). -/
theorem hasGap_branchIf (rel : Relation) (rs1 rs2 : RegIdx) (off : BitVec 13) (s : State) (k : Gap) :
    hasGap (branchIf rel rs1 rs2 off s).gaps k = (hasGap s.gaps k ||
      (cmp rel (readReg s rs1) (readReg s rs2) && (branchIf rel rs1 rs2 off s).pc.toNat % 4 != 0 &&
        decide (k = .misalignedTarget))) := by
  unfold branchIf
  cases cmp rel (readReg s rs1) (readReg s rs2) with
  | false => simp
  | true => simp only [if_true, hasGap_jumpTo, jumpTo_pc, Bool.true_and]

/-- A load records an effective address that is not a multiple of 4 (45_load_store.md R300). -/
theorem hasGap_loadFrom (rd : RegIdx) (w : Width) (signed : Bool) (ea : Word) (s : State) (k : Gap) :
    hasGap (loadFrom rd w signed ea s).gaps k =
      (hasGap s.gaps k || (ea.toNat % 4 != 0 && decide (k = .dataOffset))) := by
  rw [← offWord_eq]
  exact hasGap_recordGapIf (offWord ea) .dataOffset k s

/-- A store records that, and that it is narrow (R306). -/
theorem hasGap_storeTo (narrow : Bool) (ea d : Word) (s : State) (k : Gap) :
    hasGap (storeTo narrow ea d s).gaps k =
      (hasGap s.gaps k || (ea.toNat % 4 != 0 && decide (k = .dataOffset)) ||
        (narrow && decide (k = .narrowStore))) := by
  rw [← offWord_eq, ← hasGap_recordGapIf, ← hasGap_recordGapIf]
  rfl

/-- A result written to a register records IMM_SIGN by the sign of the immediate, where the instruction has that gap
(41_integer_immediate.md R200). -/
theorem hasGap_writeResult_immSign (rd : RegIdx) (v : Word) (imm : BitVec 12) (s : State) (k : Gap) :
    hasGap (writeResult rd v (recordGapIf (immSignSet imm) .immSign s)).gaps k =
      (hasGap s.gaps k || (imm.msb && decide (k = .immSign))) := by
  rw [← immSignSet_eq]
  exact hasGap_recordGapIf (immSignSet imm) .immSign k s

/-- The no-op that records a gap adds that kind. -/
theorem hasGap_advance_recordGap (j : Gap) (s : State) (k : Gap) :
    hasGap (advance (recordGap j s)).gaps k = (hasGap s.gaps k || decide (k = j)) :=
  hasGap_addGap j k s.gaps

/-! ### The table of gap kinds -/

/-- The table R353, one ending of an instruction after the other: each kind that the ending can add is the one whose condition
the table ties to the instruction, and the conditions of the other kinds are false for it. The
instructions left to the last line record nothing. -/
theorem exec_gaps {i : Instr} {s t : State} (h : exec i s = .next t) (k : Gap) :
    hasGap t.gaps k = (hasGap s.gaps k || gapCondition i s t k) := by
  cases i <;> cases h
  case' sltiu | xori | ori | andi => rw [hasGap_writeResult_immSign]
  case' jal | jalr => rw [hasGap_jumpTo]
  case' beq | bne | blt | bge | bltu | bgeu => rw [hasGap_branchIf]
  case' lb | lh | lw | lbu | lhu => rw [hasGap_loadFrom]
  case' sb | sh | sw => rw [hasGap_storeTo]
  case' miscMem | system => rw [hasGap_advance_recordGap]
  all_goals cases k <;> simp [gapCondition, transfers, dataAddress]

/-- Settles O44, by the table over the instructions. -/
theorem gapsAreRecordedExactlyByTheTable : Obligations.GapsAreRecordedExactlyByTheTable := by
  unfold Obligations.GapsAreRecordedExactlyByTheTable
  exact fun i s t k h => exec_gaps h k

/-! ### The gap record only grows -/

/-- Running the word in `ir` removes no gap kind: an instruction adds by the table, an unrecognized word adds its own kind. -/
theorem runIr_keeps_gap {s t : State} {k : Gap} (h : runIr s = .next t) (hk : hasGap s.gaps k = true) :
    hasGap t.gaps k = true := by
  rcases runIr_cases h with ⟨i, -, he⟩ | ⟨-, rfl⟩
  · rw [exec_gaps he, hk, Bool.true_or]
  · rw [hasGap_advance_recordGap, hk, Bool.true_or]

/-- Nor does DECODE's edge: the gaps of a load and of a store are recorded at it, and their acknowledge edges add none. -/
theorem decodeEdge_keeps_gap {s : State} {k : Gap} (hk : hasGap s.gaps k = true) :
    hasGap (decodeEdge s).gaps k = true := by
  have hshape := decodeEdge_shape s
  generalize decodeEdge s = t at hshape ⊢
  cases hshape with
  | refuse => exact hk
  | done _ hrun => exact runIr_keeps_gap hrun hk
  | load rd w g ea hrun => exact runIr_keeps_gap (t := loadFrom rd w g ea s) hrun hk
  | store n ea d hrun => exact runIr_keeps_gap (t := storeTo n ea d s) hrun hk

/-- A Step removes no gap kind: the Fetch and the acknowledge edges keep the record. -/
theorem step_keeps_gap {s t : State} {k : Gap} (h : step s = .next t) (hk : hasGap s.gaps k = true) :
    hasGap t.gaps k = true := by
  unfold step at h
  split at h
  · cases h
  · split at h
    case h_1 | h_2 | h_3 => exact runIr_keeps_gap h hk
    case h_4 | h_5 => cases h; exact hk

/-- Nor does a clock edge without reset: only DECODE's touches the record. -/
theorem clock_keeps_gap {b : BusIn} {s : State} {k : Gap} (hrst : b.rst = false) (hk : hasGap s.gaps k = true) :
    hasGap (clock b s).gaps k = true := by
  generalize ht : clock b s = t
  cases clock_shape hrst ht with
  | decode => exact decodeEdge_keeps_gap hk
  | stopped | waiting | beginFetch | endFetch | endLoad | endStore => exact hk

/-- Settles O43, for the Step and for the clocked machine. -/
theorem gapRecordNeverShrinks : Obligations.GapRecordNeverShrinks := by
  unfold Obligations.GapRecordNeverShrinks
  exact ⟨fun s t k => step_keeps_gap, fun b s k => clock_keeps_gap⟩

/-! ### The trace outputs -/

/-- Settles O60: each output is the register it names, and the codes are those of the tables R366 and R46. -/
theorem traceOutputsShowTheRegisters : Obligations.TraceOutputsShowTheRegisters := by
  unfold Obligations.TraceOutputsShowTheRegisters
  exact ⟨fun s => ⟨rfl, rfl, rfl, rfl, rfl⟩, rfl, rfl⟩

end Sys2Proof.Machine
end

section
/-! PROOF. The statements on reset, boot and the end of a run (70_reset_and_hazards.md): the word that a placement makes the next
Fetch read, the bytes of the boot image, what the edge with `rst_i = 1` leaves, and the self-loop at the end of a run. -/

namespace Sys2Proof.Machine

/-! ### A word placed for the next Fetch -/

/-- A word survives the host's passage through its number's low 32 bits. -/
theorem ofNat_toNat_mod (w : Word) : BitVec.ofNat 32 (w.toNat % 2 ^ 32) = w := by
  rw [Nat.mod_eq_of_lt w.isLt, BitVec.ofNat_toNat, BitVec.setWidth_eq]

theorem withFetchWord_eq (s : State) (w : Word) : s.withFetchWord 32 w.toNat = placeFetchWord w s := by
  rw [State.withFetchWord, ofNat_toNat_mod]

/-- The word placed is the word at `pc`, so it is what the Fetch latches (R88). -/
theorem fetch_placeFetchWord_ir (w : Word) (s : State) : (fetch (placeFetchWord w s)).ir = w := by
  obtain ⟨hir, -⟩ := fetch_law (placeFetchWord w s)
  rw [hir, placeFetchWord, targetRead_targetWrite, if_pos rfl]

/-- The host's reading of a table word is the decoder's: the four bytes make up the word again. -/
theorem decodeTableWord_toNat (w : Word) : decodeTableWord 32 w.toNat = instrOf (decodeWord w) := by
  simp only [decodeTableWord, decodeBytes, ofNat_toNat_mod, wordOfBytes_byteOfWord]

/-- Settles O34: the placed word is fetched, and at a boundary without the mark the Step runs the fetched word. -/
theorem placedWordRunsNext : Obligations.PlacedWordRunsNext := by
  unfold Obligations.PlacedWordRunsNext
  intro s w
  rw [withFetchWord_eq]
  have hir := fetch_placeFetchWord_ir w s
  refine ⟨hir, fun i hd => ?_, decodeTableWord_toNat w⟩
  rw [step_readPc rfl rfl, runIr_of_instr (hir.symm ▸ hd)]

/-! ### The boot image -/

/-- What an image that starts at address `a` places: byte `k` of the list at address `a + k`, below 2^32. -/
theorem memGet_imageFrom (bs : List Byte) (a k : Nat) :
    memGet (imageFrom a bs) (a + k) = if a + k < 2 ^ 32 then bs[k]? else none := by
  induction bs generalizing a k with
  | nil => simp [imageFrom, memGet]
  | cons b bs ih =>
    by_cases ha : a < 2 ^ 32
    · cases k with
      | zero => rw [Nat.add_zero, imageFrom, if_pos ha, memGet, if_pos rfl, if_pos ha, List.getElem?_cons_zero]
      | succ k =>
        have htail := ih (a + 1) k
        rw [Nat.add_assoc, Nat.add_comm 1 k] at htail
        rw [imageFrom, if_pos ha, memGet, if_neg (by omega), htail, List.getElem?_cons_succ]
    · rw [imageFrom, if_neg ha, if_neg (by omega), memGet]

/-- Boot places byte `k` of the image at address `k`, below 2^32 (R386). -/
theorem memGet_bootImage (p : Params) (blob : List Byte) (k : Nat) :
    memGet (bootImage p blob).mem k = if k < 2 ^ 32 then blob[k]? else none := by
  have h := memGet_imageFrom blob 0 k
  rw [Nat.zero_add] at h
  exact h

/-- Settles O39: an address holds the byte that boot placed there, or its free value where boot placed none. -/
theorem bootImagePlacesTheBytes : Obligations.BootImagePlacesTheBytes := by
  unfold Obligations.BootImagePlacesTheBytes
  intro p blob
  refine ⟨fun k b hb hk => ?_, fun k hk => ?_, rfl⟩
  · rw [byteAt, memGet_bootImage, if_pos hk, hb, Option.getD_some]
  · have hnone : memGet (bootImage p blob).mem k = none := by
      rw [memGet_bootImage]
      rcases hk with hlen | hspace
      · rw [List.getElem?_eq_none hlen, ite_self]
      · rw [if_neg (not_lt.2 hspace)]
    rw [byteAt, hnone, Option.getD_none]

/-! ### The reset edge -/

/-- A reset edge writes no register (R383; the values are the model's choice, log 15). -/
theorem readReg_resetEdge (s : State) (r : RegIdx) : readReg (resetEdge s) r = readReg s r := readReg_congr rfl r

/-- After it no register but `x0` counts as written (the spec's decision D17). -/
theorem isWritten_resetEdge (s : State) (r : RegIdx) : isWritten (resetEdge s) r = decide (r = 0#5) :=
  (isWritten_congr rfl r).trans (isWritten_resetWith s.params r)

theorem tick_mem (e : EnvIn) (s : State) :
    (tick e s).mem = if writeLands e s then targetWrite s.mem s.adrO s.datO else s.mem := by
  rw [tick_eq]

/-- Only a store's write can land. -/
theorem fsm_of_writeLands {e : EnvIn} {s : State} (h : writeLands e s = true) : s.fsm = .store := by
  by_contra hf
  rw [writeLands_of_ne_store e hf] at h
  cases h

/-- Whether a store that reset abandons has landed is the environment's choice (the spec's decision D28). -/
theorem writeLands_of_reset {e : EnvIn} {s : State} (hrst : e.rst = true) (hf : s.fsm = .store)
    (hm : s.refusalMark = false) : writeLands e s = e.abandonedLands := by
  simp [writeLands, hrst, hf, hm]

/-- Settles O58: the core's edge is the reset edge, and memory takes the abandoned store's write if that lands. -/
theorem resetEdgeTakesResetValues : Obligations.ResetEdgeTakesResetValues := by
  unfold Obligations.ResetEdgeTakesResetValues
  refine ⟨fun b s hrst => ?_, fun e s _ => ?_, fun e s hrst hf hm => ?_⟩
  · rw [clock_of_reset s hrst]
    exact ⟨rfl, rfl, rfl, rfl, rfl, rfl, rfl, hasGap_empty, fun r => ⟨readReg_resetEdge s r, isWritten_resetEdge s r⟩⟩
  · rw [tick_mem]
    split
    case isTrue hl => exact .inr ⟨fsm_of_writeLands hl, rfl⟩
    case isFalse => exact .inl rfl
  · rw [tick_mem, writeLands_of_reset hrst hf hm]
    exact ⟨fun hl => if_pos hl, fun hl => if_neg (by simp [hl])⟩

/-! ### The self-loop -/

/-- `jal x0, 0` jumps to its own address. -/
theorem exec_selfLoop (s : State) : exec (.jal 0 0) s = .next (jumpTo s.pc (writeReg 0 (s.pc + 4) s)) := by
  have htarget : alu .add s.pc (simmJ 0) = s.pc := BitVec.add_zero s.pc
  exact congrArg (fun t => Host.Outcome.next (jumpTo t (writeReg 0 (s.pc + 4) s))) htarget

theorem decodeWord_selfLoop : decodeWord 0x0000006F = .instr (.jal 0 0) := by decide

/-- The state after the word `jal x0, 0` has been fetched at `pc` and run. -/
def afterSelfLoop (s : State) : State :=
  jumpTo s.pc (writeReg 0 (s.pc + 4) (endFetch 0x0000006F (beginFetch s)))

/-- The gaps are as before: a misaligned `pc`, which the jump records, was recorded already (10_state.md R43). -/
theorem afterSelfLoop_gaps {s : State} (h : pcInv s) : (afterSelfLoop s).gaps = s.gaps := by
  obtain ⟨-, haligned⟩ := h
  refine gapRecord_ext fun k => ?_
  rw [afterSelfLoop, hasGap_jumpTo, writeReg_gaps, endFetch_gaps, beginFetch_gaps]
  by_cases hk : k = .misalignedTarget
  · subst hk
    cases hg : hasGap s.gaps .misalignedTarget with
    | true => rw [Bool.true_or]
    | false => simp [haligned hg]
  · simp [hk]

@[simp] theorem afterSelfLoop_pc (s : State) : (afterSelfLoop s).pc = s.pc := rfl
@[simp] theorem afterSelfLoop_fsm (s : State) : (afterSelfLoop s).fsm = .readPc := rfl
@[simp] theorem afterSelfLoop_mem (s : State) : (afterSelfLoop s).mem = s.mem := by simp [afterSelfLoop]
@[simp] theorem afterSelfLoop_refusalMark (s : State) : (afterSelfLoop s).refusalMark = s.refusalMark := by
  simp [afterSelfLoop]
@[simp] theorem afterSelfLoop_trace (s : State) :
    (afterSelfLoop s).trace = s.trace ++ [fetchRecord s.pc 0x0000006F] := by
  simp [afterSelfLoop, fetchRecord]
@[simp] theorem readReg_afterSelfLoop (s : State) (r : RegIdx) : readReg (afterSelfLoop s) r = readReg s r := by
  simp [afterSelfLoop]
@[simp] theorem isWritten_afterSelfLoop (s : State) (r : RegIdx) : isWritten (afterSelfLoop s) r = isWritten s r := by
  simp +contextual [afterSelfLoop]

/-- Of the architectural state the self-loop changes the trace alone. -/
theorem archState_afterSelfLoop {s : State} (h : pcInv s) :
    archState (afterSelfLoop s) = { archState s with trace := s.trace ++ [fetchRecord s.pc 0x0000006F] } := by
  rw [archState_congr (afterSelfLoop_pc s) (readReg_afterSelfLoop s) (isWritten_afterSelfLoop s) (afterSelfLoop_gaps h)
    (afterSelfLoop_refusalMark s), afterSelfLoop_trace]

/-- Under the reference target the run stays ended. -/
theorem atEndOfRun_afterSelfLoop {s : State} (h : atEndOfRun s) : atEndOfRun (afterSelfLoop s) := by
  obtain ⟨-, hm, hw⟩ := h
  exact ⟨rfl, (afterSelfLoop_refusalMark s).trans hm, by rw [afterSelfLoop_mem, afterSelfLoop_pc, hw]⟩

/-- The Step under the reference target from the end of a run. -/
theorem step_of_atEndOfRun {s : State} (h : atEndOfRun s) : step s = .next (afterSelfLoop s) := by
  obtain ⟨hf, hm, hw⟩ := h
  have hfetch : fetch s = endFetch 0x0000006F (beginFetch s) := by
    rw [fetch, targetAnswer_eq, beginFetch_mem, beginFetch_adrO, hw]
  rw [step_readPc hf hm, hfetch, runIr_of_instr decodeWord_selfLoop]
  exact exec_selfLoop _

/-! ### The end of a run under any target -/

/-- A word that makes no data transaction ends its Step with DECODE's edge, under any target (R171). -/
theorem finishUnder_decodeEdge_of_not_accessesData {target : Target} {s t : State} (h : runIr s = .next t)
    (ha : accessesData (decodeWord s.ir) = false) (hm : s.refusalMark = false) :
    finishUnder target (decodeEdge s) = .next t := by
  have hmark := runIr_refusalMark h
  have hshape := decodeEdge_shape s
  generalize decodeEdge s = u at hshape ⊢
  cases hshape with
  | refuse why hd => rw [runIr_of_nonCanonical hd] at h; cases h
  | load rd w g ea _ hdata => rw [ha] at hdata; cases hdata
  | store n ea d _ hdata => rw [ha] at hdata; cases hdata
  | done _ hrun hf =>
    obtain rfl : t = u := Host.Outcome.next.inj (h.symm.trans hrun)
    rw [finishUnder, if_neg (by simp [hmark, hm]), if_pos hf]

theorem endOfRun_iff (target : Target) (s : State) :
    endOfRun target s = true ↔ s.fsm = .readPc ∧ s.refusalMark = false ∧ fetchAnswer target s = some 0x0000006F := by
  simp [endOfRun, and_assoc]

/-- The spec's Step under any target from the end of a run. -/
theorem specStep_of_endOfRun {target : Target} {s : State} (h : endOfRun target s = true) :
    specStep target s = .next (afterSelfLoop s) := by
  obtain ⟨-, hm, hw⟩ := (endOfRun_iff target s).1 h
  rw [specStep_of_fetch hm hw, executeSpec_of_written decodeWord_selfLoop (uninitOperand_eq_none (by simp [operandRegs]))]
  exact finishUnder_decodeEdge_of_not_accessesData ((runIr_of_instr decodeWord_selfLoop).trans (exec_selfLoop _)) rfl hm

/-- A run that ends after no Step is at its end. -/
theorem finalAfter_zero {target : Target} {s t : State} (h : finalAfter target 0 s = some t) :
    endOfRun target s = true ∧ s = t := by
  unfold finalAfter at h
  split at h
  case isTrue he => exact ⟨he, Option.some.inj h⟩
  case isFalse => cases h

/-- A run that ends after more Steps is not at its end, and completes a Step. -/
theorem finalAfter_succ {target : Target} {n : Nat} {s t : State} (h : finalAfter target (n + 1) s = some t) :
    endOfRun target s = false ∧ ∃ u, specStep target s = .next u ∧ finalAfter target n u = some t := by
  rw [finalAfter] at h
  split at h
  case isTrue => cases h
  case isFalse he =>
    refine ⟨by simpa using he, ?_⟩
    split at h
    case h_1 u hs => exact ⟨u, hs, h⟩
    all_goals cases h

/-- A run has one final state, after one number of Steps: the Step is a function, and no earlier boundary is the end. -/
theorem finalAfter_unique {target : Target} {s t u : State} {n m : Nat} (hn : finalAfter target n s = some t)
    (hm : finalAfter target m s = some u) : n = m ∧ t = u := by
  induction n generalizing s m with
  | zero =>
    obtain ⟨hend, rfl⟩ := finalAfter_zero hn
    cases m with
    | zero => exact ⟨rfl, (finalAfter_zero hm).2⟩
    | succ m =>
      obtain ⟨hnot, -⟩ := finalAfter_succ hm
      rw [hend] at hnot
      cases hnot
  | succ n ih =>
    obtain ⟨hnot, v, hstep, hrest⟩ := finalAfter_succ hn
    cases m with
    | zero =>
      obtain ⟨hend, -⟩ := finalAfter_zero hm
      rw [hend] at hnot
      cases hnot
    | succ m =>
      obtain ⟨-, v', hstep', hrest'⟩ := finalAfter_succ hm
      obtain rfl : v = v' := TargetOutcome.next.inj (hstep.symm.trans hstep')
      obtain ⟨rfl, rfl⟩ := ih hrest hrest'
      exact ⟨rfl, rfl⟩

/-- Settles O49: both Steps from the end of a run lead to `afterSelfLoop`, and a run is a function of its first state. -/
theorem selfLoopEndsTheRun : Obligations.SelfLoopEndsTheRun := by
  unfold Obligations.SelfLoopEndsTheRun
  refine ⟨fun s h hp => ?_, fun target s h hp => ?_, fun target s t u n m => finalAfter_unique,
    fun target s t n => finalAfter_law target n s t⟩
  · exact ⟨_, step_of_atEndOfRun h, rfl, fun r => ⟨readReg_afterSelfLoop s r, isWritten_afterSelfLoop s r⟩,
      afterSelfLoop_mem s, fun k => by rw [afterSelfLoop_gaps hp], atEndOfRun_afterSelfLoop h⟩
  · exact ⟨_, specStep_of_endOfRun h, rfl, archState_afterSelfLoop hp⟩

end Sys2Proof.Machine
end
